-- ==== Sys2Proof/Word.lean ====
section
/-! DEFINITION. The value types of 00_scope.md R9 to R11: code units, bytes, words, texts and bit strings. -/

namespace Sys2Proof

/-- A 16-bit UTF-16 code unit (R9). No pairing of surrogates is checked anywhere (D23). -/
abbrev CodeUnit := BitVec 16

/-- A byte of data memory or of a file (20_memory.md R61). -/
abbrev Byte := BitVec 8

/-- A 32-bit word: a command word, a register of the window, or an i32 child in two's complement (R10). -/
abbrev Word32 := BitVec 32

/-- A 64-bit register (00_scope.md R8). -/
abbrev Word64 := BitVec 64

/-- A text: a finite sequence of code units (R11). -/
abbrev Text := List CodeUnit

/-- A bit string: a finite sequence of bits, element 0 written first (R11). -/
abbrev Bits := List Bool

/-- The terminator code unit 0x0000, which ends every encoded string (R15, 90_conflicts.md C1). -/
def terminator : CodeUnit := 0

end Sys2Proof
end

