-- ==== Sys2Proof/Config.lean ====
section
/-! DEFINITION. The implementation parameters of 00_scope.md R8, their defaults, and the model's one free value. -/

namespace Sys2Proof

/-- The order of bits within a data byte (20_memory.md R63, D7). -/
inductive BitOrder where
  | lsbFirst
  | msbFirst
  deriving DecidableEq, Repr

/-- The parameters of 00_scope.md R8. They are no state: no step changes them (10_state.md R46). -/
structure Config where
  bitOrder    : BitOrder
  nodeCap     : Nat
  dataCap     : Nat
  wbufCapBits : Nat
  outCap      : Nat
  deriving DecidableEq, Repr

/-- The default of every parameter (R8; D7, D18, D35). -/
def Config.default : Config where
  bitOrder    := .lsbFirst
  nodeCap     := 65535
  dataCap     := 2 ^ 32 - 1
  wbufCapBits := 8 * (2 ^ 32 - 1)
  outCap      := 2 ^ 32 - 1

/-- FREE VALUE. What a 64-bit register holds after a command writes it an index or a length of 2^64
or more: no rule gives it a value, so nothing is known of it (log entry 9, DESIGN CHOICE). -/
opaque Config.wideValue : Nat → Word64

end Sys2Proof
end

