-- ==== Sys2Proof/Syntax.lean ====
section
/-! DEFINITION. The eleven commands of 30_encoding.md R92, one constructor per row of the opcode table. -/

namespace Sys2Proof

/-- A command of the command set HCU-TLK (R92). Only WR_BIT carries an operand in its word, the bit
B = w[8]; the offset of RD_INIT and DECODE is ARG0 and the text of FREQ_ADD and ENCODE is latched
from the text port, so both stand in the state (R91). -/
inductive Instr where
  | rdInit
  | rdBit
  | wrClear
  | wrBit (b : Bool)
  | wrPos
  | wrFinish
  | freqClear
  | freqAdd
  | treeBuild
  | decode
  | encode
  deriving DecidableEq, Repr

/-- Why a command word is illegal: the three cases of 30_encoding.md R94. -/
inductive Illegal where
  /-- RES = w[31:9] is not 0. -/
  | reservedBits
  /-- B = w[8] is 1 and OP is not WR_BIT's. -/
  | operandBit
  /-- OP = w[7:0] is assigned to no command (R95). -/
  | unassignedOpcode
  deriving DecidableEq, Repr

end Sys2Proof
end

