-- ==== Sys2Proof/WellFormed.lean ====
section
/-! DEFINITION. Well-formedness: legal command words by the opcode table's mask and match (30_encoding.md
R93, last paragraph), and legal parameters (00_scope.md R8). Every term of `Instr` is well-formed, since
its one operand is a Bool; the checks are about words and configurations. -/

namespace Sys2Proof

/-- `mask` and `match` of the row of opcode_table.json an instruction belongs to (R93). WR_BIT's row
leaves bit 8 free; every other row fixes all 32 bits. -/
def Instr.row : Instr → Word32 × Word32
  | .rdInit    => (0xFFFFFFFF, 0x00000001)
  | .rdBit     => (0xFFFFFFFF, 0x00000002)
  | .wrClear   => (0xFFFFFFFF, 0x00000003)
  | .wrBit _   => (0xFFFFFEFF, 0x00000004)
  | .wrPos     => (0xFFFFFFFF, 0x00000005)
  | .wrFinish  => (0xFFFFFFFF, 0x00000006)
  | .freqClear => (0xFFFFFFFF, 0x00000010)
  | .freqAdd   => (0xFFFFFFFF, 0x00000011)
  | .treeBuild => (0xFFFFFFFF, 0x00000012)
  | .decode    => (0xFFFFFFFF, 0x00000020)
  | .encode    => (0xFFFFFFFF, 0x00000021)

/-- The word matches the instruction's row: `(w & mask) = match` (R93). -/
abbrev Instr.matchesRow (i : Instr) (w : Word32) : Prop := w &&& i.row.1 = i.row.2

/-- One instruction for each row of the opcode table, in its order. -/
def instrRows : List Instr :=
  [.rdInit, .rdBit, .wrClear, .wrBit false, .wrPos, .wrFinish, .freqClear, .freqAdd, .treeBuild, .decode, .encode]

/-- A command word that some row of the table matches. -/
abbrev WellFormedWord (w : Word32) : Prop := ∃ i ∈ instrRows, i.matchesRow w

/-- The legal values of the parameters (R8). -/
abbrev Config.Legal (c : Config) : Prop :=
  (1 ≤ c.nodeCap ∧ c.nodeCap ≤ 2 ^ 31) ∧ c.dataCap ≤ 2 ^ 32 - 1 ∧ c.wbufCapBits ≤ 8 * (2 ^ 32 - 1)

end Sys2Proof
end

