-- ==== Sys2Proof/Decode.lean ====
section
/-! DEFINITION. The engine's decoder, total over all 2^32 words (30_encoding.md R93), and the encoder. -/

namespace Sys2Proof

/-- OP, bits [7:0] of a command word (30_encoding.md R90). -/
abbrev opField (w : Word32) : BitVec 8 := w.extractLsb' 0 8

/-- B, bit [8] of a command word (R90). -/
abbrev bField (w : Word32) : Bool := w.getLsbD 8

/-- RES, bits [31:9] of a command word (R90). -/
abbrev resField (w : Word32) : BitVec 23 := w.extractLsb' 9 23

/-- The opcode map of 30_encoding.md R92 without WR_BIT's row, for words whose B and RES are 0. -/
def instrOfOpcode (op : BitVec 8) : Option Instr :=
  if op = 0x01 then some .rdInit
  else if op = 0x02 then some .rdBit
  else if op = 0x03 then some .wrClear
  else if op = 0x05 then some .wrPos
  else if op = 0x06 then some .wrFinish
  else if op = 0x10 then some .freqClear
  else if op = 0x11 then some .freqAdd
  else if op = 0x12 then some .treeBuild
  else if op = 0x20 then some .decode
  else if op = 0x21 then some .encode
  else none

/-- `decode_cw` of 30_encoding.md R93, its checks in that order. -/
def decode (w : Word32) : Except Illegal Instr :=
  if resField w ≠ 0 then .error .reservedBits
  else if opField w = 0x04 then .ok (.wrBit (bField w))
  else if bField w then .error .operandBit
  else
    match instrOfOpcode (opField w) with
    | some i => .ok i
    | none => .error .unassignedOpcode

/-- OP of each command (30_encoding.md R92). -/
def Instr.opcode : Instr → BitVec 8
  | .rdInit    => 0x01
  | .rdBit     => 0x02
  | .wrClear   => 0x03
  | .wrBit _   => 0x04
  | .wrPos     => 0x05
  | .wrFinish  => 0x06
  | .freqClear => 0x10
  | .freqAdd   => 0x11
  | .treeBuild => 0x12
  | .decode    => 0x20
  | .encode    => 0x21

/-- B of each command: WR_BIT's bit, 0 in every other (30_encoding.md R90). -/
def Instr.operandBit : Instr → Bool
  | .wrBit b => b
  | .rdInit | .rdBit | .wrClear | .wrPos | .wrFinish | .freqClear | .freqAdd | .treeBuild | .decode | .encode => false

/-- The command word of an instruction: RES = 0, then B, then OP (30_encoding.md R90). -/
def encode (i : Instr) : Word32 :=
  (0 : BitVec 23) ++ BitVec.ofBool i.operandBit ++ i.opcode

/-- The instruction the decoder reads from `w`, a number of `nbits` bits whose bits above `nbits` are 0.
A command is one 32-bit word (30_encoding.md R96), so a wider number is no command word. -/
def decodeTableWord (nbits w : Nat) : Option Instr :=
  if w < 2 ^ nbits ∧ w < 2 ^ 32 then (decode (BitVec.ofNat 32 w)).toOption else none

end Sys2Proof
end

