-- ==== Sys2Proof/Machine/State.lean ====
section
/-! DEFINITION. The state of the HCU (10_state.md R46) as plain data, the reasons a step can stop, and the
state after reset (10_state.md R45). -/

namespace Sys2Proof.Machine

open Sys2Proof

/-- The outcome of the last completed command, STATUS.ERR_CODE (60_exceptions.md R280). The codes 10 to
15 are reserved and never written, so they have no constructor. -/
inductive ErrCode where
  | ok
  | outOfRange
  | malformedTree
  | malformedStream
  | emptySymbolSet
  | illegalCommand
  | illegalOperand
  | capacityExceeded
  | noCodeTable
  | unknownSymbol
  deriving DecidableEq, Repr

/-- A record of tree memory: two signed 32-bit children (10_state.md R34, 20_memory.md R68). -/
structure NodeRecord where
  left  : Word32
  right : Word32
  deriving DecidableEq, Repr

/-- The pending-command latch's contents: the word written to CMD and the text port's contents at that
write (10_state.md R24). -/
structure Command where
  word : Word32
  text : Text
  deriving DecidableEq, Repr

/-- A model fault (60_exceptions.md R290): a mark of the model, no state of the chip. -/
inductive ModelFault where
  | uninitRead
  | hostHazard
  | hostRange
  deriving DecidableEq, Repr

/-- MFAULT, the set of model faults recorded (10_state.md R43). -/
structure FaultSet where
  uninitRead : Bool
  hostHazard : Bool
  hostRange  : Bool
  deriving DecidableEq, Repr

/-- The empty set of model faults. -/
abbrev FaultSet.empty : FaultSet := ⟨false, false, false⟩

/-- One access of the host to the block (20_memory.md R75): a read or write of the register window with
its width in bytes and its byte offset (10_state.md R23), or an access to a port (10_state.md R34, R35,
R40, R41). Only a 4-byte write is ever performed, so its value is one word. -/
inductive HostAccess where
  | readReg (width offset : Nat)
  | writeReg (width offset : Nat) (value : Word32)
  | readNode (index : Nat)
  | writeNode (index : Nat) (record : NodeRecord)
  | readData (index : Nat)
  | writeData (index : Nat) (byte : Byte)
  | writeText (text : Text)
  | readResText
  | readResBytes
  deriving DecidableEq, Repr

/-- A turn of one of the two agents (10_state.md R20, 20_memory.md R75). -/
inductive Turn where
  | host (access : HostAccess)
  | engine
  deriving DecidableEq, Repr

/-- What a host read returns. -/
inductive HostValue where
  | nothing
  | word (w : Word32)
  | node (r : NodeRecord)
  | byte (b : Byte)
  | text (t : Text)
  | bytes (bs : List Byte)
  deriving DecidableEq, Repr

/-- Values by index: the entries that are present, in rising order of index. -/
abbrev Table (α : Type) := List (Nat × α)

/-- Data memory: the bytes written since reset, in rising order of address. An unlisted byte has never
been written; it reads as no value (10_state.md R35, R43). -/
abbrev Memory := List Host.Cell

/-- The complete state of the model (10_state.md R46). -/
structure State where
  /-- The parameters (00_scope.md R8). No step changes them (log entry 1). -/
  cfg       : Config
  /-- STATUS.BUSY (R25). -/
  busy      : Bool
  /-- STATUS.ERR_CODE (R25). -/
  errCode   : ErrCode
  /-- STATUS.CT_VALID (R25). -/
  ctValid   : Bool
  /-- ERR_INFO (R26). -/
  errInfo   : Word64
  /-- ARG0 (R27). -/
  arg0      : Word32
  /-- RESULT (R28). -/
  result    : Word64
  /-- NODE_COUNT, N (R29). -/
  nodeCount : Word32
  /-- DATA_LEN, D (R30). -/
  dataLen   : Word32
  /-- RD_POS (R31). -/
  rdPos     : Word64
  /-- The writer buffer WB (R36). WR_POS is its length (R32). -/
  wb        : Bits
  /-- FREQ (R37): the non-zero counters by code unit. -/
  freq      : Table Word32
  /-- CT (R38): the codes by code unit; a unit not listed has code `none`. -/
  ct        : Table Bits
  /-- TM with its written flags (R34, R43): the written records by index. -/
  tm        : Table NodeRecord
  /-- DM with its written flags (R35, R43): the written bytes by index. -/
  dm        : Memory
  /-- RES_TEXT (R40). -/
  resText   : Text
  /-- RES_BYTES (R40). -/
  resBytes  : List Byte
  /-- TEXT_IN (R41). -/
  textIn    : Text
  /-- The pending-command latch (R24, R43). -/
  pending   : Option Command
  /-- MFAULT (R43). -/
  mfault    : FaultSet
  /-- The MODEL's own field: the turns of host and engine still to come, first turn first (log entry 2). -/
  agenda    : List Turn
  /-- The MODEL's own field: what the host's last read returned (log entry 3). -/
  hostData  : HostValue
  deriving DecidableEq, Repr

/-- Why a step stops. -/
inductive Fault where
  /-- Raised by `step` in every state with a model fault recorded: no agent has a further step
  (60_exceptions.md R291). Safe: the model says nothing of such a run. -/
  | modelFault (recorded : FaultSet)
  /-- Raised by ENCODE when CT_VALID = 1 and the terminator has no code, where 44_huffman_encode.md R220
  leaves the code string undefined and R221 says that this does not happen (log entry 10). Safe: the model
  stops where it has no meaning to give. -/
  | undefinedCodeString
  deriving DecidableEq, Repr

/-- Why an instruction has no meaning. -/
inductive Refusal where
  /-- Raised by `exec` for an instruction that is not modelled yet. Safe: nothing is claimed of it. -/
  | notModelled (mnemonic : String)
  deriving DecidableEq, Repr

/-- The machine right after reset (10_state.md R45, 70_reset_and_hazards.md R320): idle, no error, every
register 0, every buffer and table empty, TM and DM unwritten. The parameters have their defaults
(00_scope.md R8). The host has no turn waiting and has read nothing: the model's own two fields. -/
def State.reset : State where
  cfg       := Config.default
  busy      := false
  errCode   := .ok
  ctValid   := false
  errInfo   := 0
  arg0      := 0
  result    := 0
  nodeCount := 0
  dataLen   := 0
  rdPos     := 0
  wb        := []
  freq      := []
  ct        := []
  tm        := []
  dm        := []
  resText   := []
  resBytes  := []
  textIn    := []
  pending   := none
  mfault    := FaultSet.empty
  agenda    := []
  hostData  := .nothing

end Sys2Proof.Machine
end

