-- ==== Sys2Proof/Machine/Ops.lean ====
section
/-! DEFINITION. The named operations over memories, tables and registers, and the two ways a command
completes: by `return` (60_exceptions.md R284) and by `raise` (R283), the HCU's only "trap entry". -/

namespace Sys2Proof.Machine

open Sys2Proof

/-- The value listed at index `i`, if there is one. -/
def tableGet {α : Type} : Table α → Nat → Option α
  | [], _ => none
  | (k, v) :: rest, i => if k = i then some v else tableGet rest i

/-- The table with `v` listed at index `i`, its order kept. -/
def tableSet {α : Type} : Table α → Nat → α → Table α
  | [], i, v => [(i, v)]
  | (k, w) :: rest, i, v =>
    if i < k then (i, v) :: (k, w) :: rest
    else if k = i then (i, v) :: rest
    else (k, w) :: tableSet rest i v

/-- The canonical form of a table: its indices strictly rise. -/
abbrev Rising {α : Type} (t : Table α) : Prop := (t.map Prod.fst).Pairwise (· < ·)

/-- Every index of the table is below `n`. -/
abbrev Below {α : Type} (n : Nat) (t : Table α) : Prop := ∀ e ∈ t, e.1 < n

/-- Data memory is in its canonical form: addresses strictly rise. An unlisted byte reads as no value, so
no entry can equal what an unlisted address reads as. -/
abbrev Memory.wf (m : Memory) : Prop := (m.map Prod.fst).Pairwise (· < ·)

/-- `DM[j]`: the byte, or no value if it was never written (10_state.md R35). -/
def Memory.read (m : Memory) (j : Nat) : Option Byte := tableGet m j

/-- `DM[j] <- b` (10_state.md R35). -/
def Memory.write (m : Memory) (j : Nat) (b : Byte) : Memory := tableSet m j b

/-- A natural number as the value of a 64-bit register (`zext_64` of 00_scope.md R10). No rule says what
the register holds for a number that 64 bits cannot hold: there it is a free value (log entry 9). -/
def word64 (n : Nat) : Word64 := if n < 2 ^ 64 then BitVec.ofNat 64 n else Config.wideValue n

/-- `FREQ[u]` (10_state.md R37). -/
def State.freqOf (s : State) (u : CodeUnit) : Word32 := (tableGet s.freq u.toNat).getD 0

/-- `CT[u]` (10_state.md R38). -/
def State.codeOf (s : State) (u : CodeUnit) : Option Bits := tableGet s.ct u.toNat

/-- `TM[i]`: the record, or no value if it was never written (10_state.md R34). -/
def State.nodeAt (s : State) (i : Nat) : Option NodeRecord := tableGet s.tm i

/-- `DM[j]`: the byte, or no value if it was never written (10_state.md R35). -/
def State.byteAt (s : State) (j : Nat) : Option Byte := s.dm.read j

/-- L = 8·D, the bit length of the data segment (20_memory.md R62). -/
def State.bitLength (s : State) : Nat := 8 * s.dataLen.toNat

/-- WR_POS, the number of bits written (10_state.md R32, R46). -/
def State.wrPos (s : State) : Word64 := word64 s.wb.length

/-- The set with one more model fault. -/
def FaultSet.add (m : FaultSet) : ModelFault → FaultSet
  | .uninitRead => { m with uninitRead := true }
  | .hostHazard => { m with hostHazard := true }
  | .hostRange  => { m with hostRange := true }

/-- `fault F` (00_scope.md R12): the fault is recorded and nothing else changes (60_exceptions.md R291). -/
def State.recordFault (s : State) (f : ModelFault) : State := { s with mfault := s.mfault.add f }

/-- A command reaches `return` (60_exceptions.md R284): no error, BUSY cleared, and RESULT is what the
command's rule names, 0 where it names none (10_state.md R28). The latch keeps its contents, since no
rule lists a change of it (log entry 6). -/
def State.complete (s : State) (result : Word64) : State :=
  { s with busy := false, errCode := .ok, errInfo := 0, result := result }

/-- A command reaches `raise E(info)` (60_exceptions.md R283): the one way an error is taken. The changes
a command's rule lists on its error path are made by its meaning. -/
def State.raise (s : State) (e : ErrCode) (info : Word64) : State :=
  { s with busy := false, errCode := e, errInfo := info, result := 0 }

/-- A host write of `w` to CMD while BUSY = 0 (10_state.md R24): the word and the text port's contents are
latched and BUSY is set. -/
def State.issue (s : State) (w : Word32) : State :=
  { s with busy := true, pending := some ⟨w, s.textIn⟩ }

/-- `TM[base] <- r0; TM[base+1] <- r1; …`: the records are stored and marked written. -/
def writeRecords : Table NodeRecord → Nat → List NodeRecord → Table NodeRecord
  | tm, _, [] => tm
  | tm, base, r :: rs => writeRecords (tableSet tm base r) (base + 1) rs

end Sys2Proof.Machine
end

