-- ==== Sys2Proof/Machine/Operands.lean ====
section
/-! DEFINITION. The operands of the commands (30_encoding.md R91). The bit operand of WR_BIT is in its
instruction; the other two are in the state. No operand is scaled, shifted or sign-extended. -/

namespace Sys2Proof.Machine

open Sys2Proof

/-- `zext_64(off)`: ARG0, zero-extended (30_encoding.md R91). ARG0 cannot change while BUSY = 1 (70 R327,
R328), so its value at execution is its value at issue (log entry 7). -/
def State.offOperand (s : State) : Word64 := s.arg0.setWidth 64

/-- `text`: the text latched at issue (30_encoding.md R91, 10_state.md R24), taken unchanged. With an empty
latch no command was issued, and there is no text (log entry 8). -/
def State.textOperand (s : State) : Text :=
  match s.pending with
  | some c => c.text
  | none => []

end Sys2Proof.Machine
end

