-- ==== Sys2Proof/Machine/BitIo.lean ====
section
/-! DEFINITION. The bit reader and the bit writer: bit order, bit_at and pack (20_memory.md R63 to R65), and
the commands RD_INIT, RD_BIT, WR_CLEAR, WR_BIT, WR_POS and WR_FINISH (41_bitio.md). -/

namespace Sys2Proof.Machine

open Sys2Proof

/-- `pos(i)`: the place in its byte of the i-th bit taken (20_memory.md R63). -/
def bitPos : BitOrder → Nat → Nat
  | .lsbFirst, i => i
  | .msbFirst, i => 7 - i

/-- `bit_at(k)`: bit `k` of the data segment, or no value if its byte was never written (20_memory.md
R64). Its callers check `k < 8·D` first. -/
def bitAt (s : State) (k : Nat) : Option Bool :=
  match s.byteAt (k / 8) with
  | some byte => some (byte.getLsbD (bitPos s.cfg.bitOrder (k % 8)))
  | none => none

/-- Byte `j` of `pack(w)`: `b <- b | (1 << pos(i))` for each i in 0..7 with `k = 8·j + i < |w|` and
`w[k] = 1` (20_memory.md R65). -/
def packByte (order : BitOrder) (w : Bits) (j : Nat) : Byte :=
  (List.range 8).foldl
    (fun b i => if w.getD (8 * j + i) false then b ||| ((1 : Byte) <<< bitPos order i) else b) 0

/-- `pack(w)`: the bits as ⌈|w|/8⌉ bytes, padded with 0 bits (20_memory.md R65). -/
def pack (order : BitOrder) (w : Bits) : List Byte :=
  (List.range ((w.length + 7) / 8)).map (packByte order w)

/-- RD_INIT (41_bitio.md R120): the cursor is set; it is not checked against 8·D. -/
def execRdInit (s : State) : Host.Outcome State Fault Refusal :=
  .next ({ s with rdPos := s.offOperand }.complete 0)

/-- RD_BIT (41_bitio.md R121): OutOfRange at or past 8·D, else the bit at the cursor, which advances. -/
def execRdBit (s : State) : Host.Outcome State Fault Refusal :=
  if s.bitLength ≤ s.rdPos.toNat then .next (s.raise .outOfRange s.rdPos)
  else
    match bitAt s s.rdPos.toNat with
    | some b => .next ({ s with rdPos := s.rdPos + 1 }.complete ((BitVec.ofBool b).setWidth 64))
    | none => .next (s.recordFault .uninitRead)

/-- WR_CLEAR (41_bitio.md R123). RES_BYTES stays. -/
def execWrClear (s : State) : Host.Outcome State Fault Refusal :=
  .next ({ s with wb := [] }.complete 0)

/-- WR_BIT (41_bitio.md R124): CapacityExceeded when the writer is full, else the bit is appended. -/
def execWrBit (b : Bool) (s : State) : Host.Outcome State Fault Refusal :=
  if s.cfg.wbufCapBits ≤ s.wb.length then .next (s.raise .capacityExceeded (word64 s.wb.length))
  else .next ({ s with wb := s.wb ++ [b] }.complete 0)

/-- WR_POS (41_bitio.md R125). -/
def execWrPos (s : State) : Host.Outcome State Fault Refusal :=
  .next (s.complete s.wrPos)

/-- WR_FINISH (41_bitio.md R126): the writer is not consumed (D20). -/
def execWrFinish (s : State) : Host.Outcome State Fault Refusal :=
  .next ({ s with resBytes := pack s.cfg.bitOrder s.wb }.complete
    (word64 (pack s.cfg.bitOrder s.wb).length))

end Sys2Proof.Machine
end

