-- ==== Sys2Proof/Machine/HuffmanDecode.lean ====
section
/-! DEFINITION. The reading of a node record and the command DECODE (42_huffman_decode.md). -/

namespace Sys2Proof.Machine

open Sys2Proof

/-- `leaf_unit(v)` for a negative child `v`: its complement as a code unit, or no unit when `v` is below
-65536 (42_huffman_decode.md R150). -/
def leafUnit (v : Word32) : Option CodeUnit :=
  if v.toInt < -65536 then none else some ((-v - 1).setWidth 16)

/-- `leaf_value(u)`, the encoder's form: `-zext_32(u) - 1` (42_huffman_decode.md R150). -/
def leafValue (u : CodeUnit) : Word32 := -(u.setWidth 32) - 1

/-- The child a bit chooses: 0 takes `left`, 1 takes `right` (42_huffman_decode.md R153). -/
def NodeRecord.child (r : NodeRecord) : Bool → Word32
  | false => r.left
  | true  => r.right

/-- How the walk of DECODE ends, and the cursor there. -/
inductive Walk where
  /-- The terminator was reached: `return` with the text. -/
  | returned (pos : Nat) (out : Text)
  /-- `raise e(info)`. -/
  | raised (pos : Nat) (e : ErrCode) (info : Nat)
  /-- A byte or a record never written was read. -/
  | uninit (pos : Nat)
  deriving DecidableEq, Repr

/-- The loop of DECODE (42_huffman_decode.md R154). The first argument is the number of bits left in the
stream, 8·D − RD_POS, so 0 is the test RD_POS ≥ 8·D; `pos` is RD_POS, `out` the units so far, `cur`
DEC_CUR and `depth` DEC_DEPTH (10_state.md R42). -/
def decodeLoop (s : State) : (left : Nat) → (pos : Nat) → (out : Text) → (cur depth : Nat) → Walk
  | 0, pos, _, _, _ => .raised pos .malformedStream pos
  | left + 1, pos, out, cur, depth =>
    match bitAt s pos with
    | none => .uninit pos
    | some b =>
      match s.nodeAt cur with
      | none => .uninit (pos + 1)
      | some rec =>
        if (rec.child b).toInt < 0 then
          match leafUnit (rec.child b) with
          | none => .raised (pos + 1) .malformedTree cur
          | some u =>
            if u = terminator then .returned (pos + 1) out
            else if s.cfg.outCap ≤ out.length then .raised (pos + 1) .capacityExceeded out.length
            else decodeLoop s left (pos + 1) (out ++ [u]) 0 0
        else if s.nodeCount.toNat ≤ (rec.child b).toNat then .raised (pos + 1) .malformedTree cur
        else if s.nodeCount.toNat ≤ depth + 1 then .raised (pos + 1) .malformedStream (pos + 1)
        else decodeLoop s left (pos + 1) out (rec.child b).toNat (depth + 1)

/-- The whole walk from an offset: MalformedTree(0) when there is no root, else the loop from node 0
(42_huffman_decode.md R152, R154). -/
def decodeWalk (s : State) (off : Nat) : Walk :=
  if s.nodeCount = 0 then .raised off .malformedTree 0
  else decodeLoop s (s.bitLength - off) off [] 0 0

/-- DECODE (42_huffman_decode.md R154). On an error RES_TEXT is empty and RD_POS stays where it was at the
raise (D22). A model fault leaves the cursor at the faulting read (log entry 5). -/
def execDecode (s : State) : Host.Outcome State Fault Refusal :=
  match decodeWalk s s.offOperand.toNat with
  | .returned pos out =>
    .next ({ s with rdPos := BitVec.ofNat 64 pos, resText := out }.complete (word64 out.length))
  | .raised pos e info =>
    .next ({ s with rdPos := BitVec.ofNat 64 pos, resText := [] }.raise e (word64 info))
  | .uninit pos => .next ({ s with rdPos := BitVec.ofNat 64 pos }.recordFault .uninitRead)

end Sys2Proof.Machine
end

