-- ==== Sys2Proof/Machine/HuffmanBuild.lean ====
section
/-! DEFINITION. The frequency count and TREE_BUILD (43_huffman_build.md). -/

namespace Sys2Proof.Machine

open Sys2Proof

/-- FREQ_CLEAR (43_huffman_build.md R180): every counter is 0. TM, N and CT stay. -/
def execFreqClear (s : State) : Host.Outcome State Fault Refusal :=
  .next ({ s with freq := [] }.complete 0)

/-- `tmp[u] <- tmp[u] + 1`, counts being unbounded (43_huffman_build.md R181). -/
def bump (tmp : Table Nat) (u : CodeUnit) : Table Nat :=
  tableSet tmp u.toNat ((tableGet tmp u.toNat).getD 0 + 1)

/-- `tmp` of FREQ_ADD: FREQ, one more for each unit of the text, and one more for the string's one
terminator (43_huffman_build.md R181). -/
def countText (freq : Table Word32) (t : Text) : Table Nat :=
  bump (t.foldl bump (freq.map fun e => (e.1, e.2.toNat))) terminator

/-- `FREQ <- tmp`, each count in its 32-bit counter (43_huffman_build.md R181, D15). -/
def storeCounts (tmp : Table Nat) : Table Word32 :=
  tmp.map fun e => (e.1, BitVec.ofNat 32 e.2)

/-- FREQ_ADD (43_huffman_build.md R181): IllegalOperand at the first 0x0000 of the text; else
CapacityExceeded at the least unit whose counter would pass 2^32 − 1; else the text is counted. -/
def execFreqAdd (s : State) : Host.Outcome State Fault Refusal :=
  match s.textOperand.findIdx? (· == terminator) with
  | some i => .next (s.raise .illegalOperand (word64 i))
  | none =>
    match (countText s.freq s.textOperand).find? (fun e => decide (2 ^ 32 - 1 < e.2)) with
    | some e => .next (s.raise .capacityExceeded (word64 e.1))
    | none =>
      .next ({ s with freq := storeCounts (countText s.freq s.textOperand) }.complete 0)

/-- A tree of the build: a leaf item's unit, or an internal item with its two children
(43_huffman_build.md R184, R188). -/
inductive HTree where
  | leaf (u : CodeUnit)
  | node (left right : HTree)
  deriving DecidableEq, Repr

/-- The number of internal items of a tree. -/
def HTree.nodes : HTree → Nat
  | .leaf _ => 0
  | .node l r => 1 + l.nodes + r.nodes

/-- An item of the build (43_huffman_build.md R184). A weight needs no more than 64 bits (R188) and does
not wrap (00_scope.md R10), so it is an exact number (log entry 11). -/
structure Item where
  weight : Nat
  seq    : Nat
  tree   : HTree
  deriving DecidableEq, Repr

/-- The order of the priority structure: (weight, sequence number), lexicographic
(43_huffman_build.md R185). -/
def Item.before (a b : Item) : Bool :=
  decide (a.weight < b.weight ∨ (a.weight = b.weight ∧ a.seq < b.seq))

/-- The priority structure, never empty: its least item and the others in rising order. -/
structure Queue where
  least : Item
  rest  : List Item
  deriving DecidableEq, Repr

/-- Insertion into a list of items in rising order. -/
def insertItem (i : Item) : List Item → List Item
  | [] => [i]
  | x :: xs => if i.before x then i :: x :: xs else x :: insertItem i xs

/-- `insert(Q, I)` (43_huffman_build.md R188): Q is the items in rising order of their keys. -/
def enqueue (i : Item) (q : List Item) : Queue :=
  match q with
  | [] => ⟨i, []⟩
  | x :: xs => if i.before x then ⟨i, x :: xs⟩ else ⟨x, insertItem i xs⟩

/-- The merge of the two items popped: the first becomes the left child (43_huffman_build.md R188, D11). -/
def joinItems (a b : Item) (next : Nat) : Item := ⟨a.weight + b.weight, next, .node a.tree b.tree⟩

/-- The loop of `merge` (43_huffman_build.md R188): while more than one item is left, the two least are
popped and their merge is inserted. Each turn leaves one item fewer, so as many turns as there are items
beside the least are enough: the first argument. -/
def mergeLoop : (turns : Nat) → (next : Nat) → Queue → Item
  | 0, _, q => q.least
  | turns + 1, next, ⟨a, rest⟩ =>
    match rest with
    | [] => a
    | b :: others => mergeLoop turns (next + 1) (enqueue (joinItems a b next) others)

/-- The symbols with their counts, S of 43_huffman_build.md R182: the units with a non-zero counter, in
ascending order since FREQ is listed so. -/
def symbols (s : State) : List (CodeUnit × Nat) :=
  (s.freq.filter fun e => decide (0 < e.2.toNat)).map fun e => (BitVec.ofNat 16 e.1, e.2.toNat)

/-- The leaf items of the symbols from sequence number `j` on: L(u) has the weight FREQ[u] and the index
of u in S as its sequence number (43_huffman_build.md R184). -/
def leafItems : (j : Nat) → List (CodeUnit × Nat) → List Item
  | _, [] => []
  | j, (u, w) :: rest => ⟨w, j, .leaf u⟩ :: leafItems (j + 1) rest

/-- `merge(S)` for S = `first :: others` (43_huffman_build.md R188). -/
def mergeSymbols (first : CodeUnit × Nat) (others : List (CodeUnit × Nat)) : HTree :=
  (mergeLoop others.length (others.length + 1)
    (enqueue ⟨first.2, 0, .leaf first.1⟩ ((leafItems 1 others).foldr insertItem []))).tree

/-- The child field of an item numbered `idx` if it is internal: its index, or a leaf's value
(`child` of 43_huffman_build.md R191). -/
def childField : HTree → (idx : Nat) → Word32
  | .leaf u, _ => leafValue u
  | .node _ _, idx => BitVec.ofNat 32 idx

/-- The records of a tree whose root is numbered `my`, in pre-order, left before right: the left subtree
is numbered from `my + 1`, the right one after it (`visit` of 43_huffman_build.md R191, D12). -/
def flattenRecords : HTree → (my : Nat) → List NodeRecord
  | .leaf _, _ => []
  | .node l r, my =>
    ⟨childField l (my + 1), childField r (my + 1 + l.nodes)⟩ ::
      (flattenRecords l (my + 1) ++ flattenRecords r (my + 1 + l.nodes))

/-- The code of each leaf, its path from the root (43_huffman_build.md R191, R193). -/
def flattenCodes : HTree → (path : Bits) → List (CodeUnit × Bits)
  | .leaf u, path => [(u, path)]
  | .node l r, path => flattenCodes l (path ++ [false]) ++ flattenCodes r (path ++ [true])

/-- What TREE_BUILD writes: the records and the codes (43_huffman_build.md R182). -/
structure Built where
  recs  : List NodeRecord
  codes : List (CodeUnit × Bits)
  deriving DecidableEq, Repr

/-- The build of S = `first :: others`: the degenerate one-node tree for one symbol
(43_huffman_build.md R189), else the merged tree flattened (R188, R191). -/
def buildTree (first : CodeUnit × Nat) (others : List (CodeUnit × Nat)) : Built :=
  match others with
  | [] => ⟨[⟨leafValue first.1, leafValue first.1⟩], [(first.1, [false])]⟩
  | _ :: _ =>
    ⟨flattenRecords (mergeSymbols first others) 0, flattenCodes (mergeSymbols first others) []⟩

/-- `CT <- code`, with `none` for every unit that has no code (43_huffman_build.md R193). -/
def codeTable (codes : List (CodeUnit × Bits)) : Table Bits :=
  codes.foldl (fun ct e => tableSet ct e.1.toNat e.2) []

/-- k of 43_huffman_build.md R190 for |S| = n: `max(1, n − 1)`. -/
def recordsNeeded (n : Nat) : Nat := max 1 (n - 1)

/-- TREE_BUILD (43_huffman_build.md R182): EmptySymbolSet, then CapacityExceeded, else TM[0..k), N, CT and
CT_VALID are written. FREQ and TM[k..) stay. -/
def execTreeBuild (s : State) : Host.Outcome State Fault Refusal :=
  match symbols s with
  | [] => .next (s.raise .emptySymbolSet 0)
  | first :: others =>
    if s.cfg.nodeCap < recordsNeeded (others.length + 1) then
      .next (s.raise .capacityExceeded (word64 (recordsNeeded (others.length + 1))))
    else
      .next ({ s with
          tm := writeRecords s.tm 0 (buildTree first others).recs
          nodeCount := BitVec.ofNat 32 (recordsNeeded (others.length + 1))
          ct := codeTable (buildTree first others).codes
          ctValid := true }.complete (word64 (recordsNeeded (others.length + 1))))

end Sys2Proof.Machine
end

