-- ==== Sys2Proof/Machine/HuffmanEncode.lean ====
section
/-! DEFINITION. The code string and the command ENCODE (44_huffman_encode.md). -/

namespace Sys2Proof.Machine

open Sys2Proof

/-- The codes of the units of a text in order; no value unless every unit has one. -/
def textCode (s : State) : Text → Option Bits
  | [] => some []
  | u :: rest =>
    match s.codeOf u, textCode s rest with
    | some c, some cs => some (c ++ cs)
    | _, _ => none

/-- `c(t)`, the codes of the text followed by the terminator's; defined only when all of them are
(44_huffman_encode.md R220). -/
def codeString (s : State) (t : Text) : Option Bits := textCode s (t ++ [terminator])

/-- The check of the text in index order, from index `i` on: IllegalOperand at a terminator, UnknownSymbol
at a unit with no code, whichever index comes first (44_huffman_encode.md R222). -/
def firstBadUnit (s : State) : (i : Nat) → Text → Option (ErrCode × Nat)
  | _, [] => none
  | i, u :: rest =>
    if u = terminator then some (.illegalOperand, i)
    else
      match s.codeOf u with
      | none => some (.unknownSymbol, i)
      | some _ => firstBadUnit s (i + 1) rest

/-- ENCODE (44_huffman_encode.md R222): every check comes before any bit is written. Where R220 leaves the
code string undefined the machine stops (log entry 10). -/
def execEncode (s : State) : Host.Outcome State Fault Refusal :=
  if s.ctValid = false then .next (s.raise .noCodeTable 0)
  else
    match firstBadUnit s 0 s.textOperand with
    | some (e, i) => .next (s.raise e (word64 i))
    | none =>
      match codeString s s.textOperand with
      | none => .fault .undefinedCodeString
      | some bits =>
        if 2 ^ 32 - 1 < s.wb.length then .next (s.raise .capacityExceeded (word64 s.wb.length))
        else if s.cfg.wbufCapBits < s.wb.length + bits.length then
          .next (s.raise .capacityExceeded (word64 s.wb.length))
        else .next ({ s with wb := s.wb ++ bits }.complete (word64 s.wb.length))

end Sys2Proof.Machine
end

