-- ==== Sys2Proof/Machine/Dispatch.lean ====
section
/-! DEFINITION. The engine's dispatch: one arm per command of 30_encoding.md R92. -/

namespace Sys2Proof.Machine

open Sys2Proof

def exec (i : Instr) (s : State) : Host.Outcome State Fault Refusal :=
  match i with
  | .rdInit => Sys2Proof.Machine.execRdInit s
  | .rdBit => Sys2Proof.Machine.execRdBit s
  | .wrClear => Sys2Proof.Machine.execWrClear s
  | .wrBit b => Sys2Proof.Machine.execWrBit b s
  | .wrPos => Sys2Proof.Machine.execWrPos s
  | .wrFinish => Sys2Proof.Machine.execWrFinish s
  | .freqClear => Sys2Proof.Machine.execFreqClear s
  | .freqAdd => Sys2Proof.Machine.execFreqAdd s
  | .treeBuild => Sys2Proof.Machine.execTreeBuild s
  | .decode => Sys2Proof.Machine.execDecode s
  | .encode => Sys2Proof.Machine.execEncode s

end Sys2Proof.Machine
end

