-- ==== Sys2Proof/Machine/Flags.lean ====
section
/-! DEFINITION. STATUS and its fields (10_state.md R25, R44): the HCU has no other flags. -/

namespace Sys2Proof.Machine

open Sys2Proof

/-- The number of an outcome (60_exceptions.md R280). -/
def ErrCode.code : ErrCode → BitVec 4
  | .ok               => 0
  | .outOfRange       => 1
  | .malformedTree    => 2
  | .malformedStream  => 3
  | .emptySymbolSet   => 4
  | .illegalCommand   => 5
  | .illegalOperand   => 6
  | .capacityExceeded => 7
  | .noCodeTable      => 8
  | .unknownSymbol    => 9

/-- The word a read of STATUS returns: BUSY in [0], ERR_CODE in [7:4], CT_VALID in [8], the reserved bits
0 (10_state.md R25). -/
def State.statusWord (s : State) : Word32 :=
  (0 : BitVec 23) ++ BitVec.ofBool s.ctValid ++ s.errCode.code ++ (0 : BitVec 3) ++ BitVec.ofBool s.busy

/-- CT_VALID <- 0, a side effect of a host write to TM or NODE_COUNT (20_memory.md R72, D17). -/
def State.clearCtValid (s : State) : State := { s with ctValid := false }

/-- No model fault is recorded: the premise of every claim about a run (60_exceptions.md R291). -/
def FaultSet.isEmpty (m : FaultSet) : Bool := !(m.uninitRead || m.hostHazard || m.hostRange)

end Sys2Proof.Machine
end

