-- ==== Sys2Proof/Machine/HostPort.lean ====
section
/-! DEFINITION. The host's side of the block: the register window (10_state.md R23 to R33) and the ports
(10_state.md R34, R35, R40, R41). One access is one host step (20_memory.md R75). -/

namespace Sys2Proof.Machine

open Sys2Proof

/-- The registers of the window (10_state.md R23). -/
inductive Reg where
  | cmd
  | status
  | errInfoLo
  | errInfoHi
  | arg0
  | nodeCount
  | dataLen
  | resultLo
  | resultHi
  | rdPosLo
  | rdPosHi
  | wrPosLo
  | wrPosHi
  deriving DecidableEq, Repr

/-- The register at a byte offset of the window (10_state.md R23). The reserved offsets 0x1C, 0x38 and
0x3C, an unaligned offset and an offset past the 64 bytes hold none (log entry 13). -/
def regAt : Nat → Option Reg
  | 0x00 => some .cmd
  | 0x04 => some .status
  | 0x08 => some .errInfoLo
  | 0x0C => some .errInfoHi
  | 0x10 => some .arg0
  | 0x14 => some .nodeCount
  | 0x18 => some .dataLen
  | 0x20 => some .resultLo
  | 0x24 => some .resultHi
  | 0x28 => some .rdPosLo
  | 0x2C => some .rdPosHi
  | 0x30 => some .wrPosLo
  | 0x34 => some .wrPosHi
  | _    => none

/-- `X_LO = X[31:0]` (10_state.md R23). -/
def lowWord (x : Word64) : Word32 := x.extractLsb' 0 32

/-- `X_HI = X[63:32]` (10_state.md R23). -/
def highWord (x : Word64) : Word32 := x.extractLsb' 32 32

/-- What a 32-bit read of a register returns; CMD is write-only (10_state.md R23 to R32). -/
def readReg (s : State) : Reg → Option Word32
  | .cmd       => none
  | .status    => some s.statusWord
  | .errInfoLo => some (lowWord s.errInfo)
  | .errInfoHi => some (highWord s.errInfo)
  | .arg0      => some s.arg0
  | .nodeCount => some s.nodeCount
  | .dataLen   => some s.dataLen
  | .resultLo  => some (lowWord s.result)
  | .resultHi  => some (highWord s.result)
  | .rdPosLo   => some (lowWord s.rdPos)
  | .rdPosHi   => some (highWord s.rdPos)
  | .wrPosLo   => some (lowWord s.wrPos)
  | .wrPosHi   => some (highWord s.wrPos)

/-- The host's write of NODE_COUNT: HostRange above NODE_CAP, else N <- v and CT_VALID <- 0, even when
nothing changes (10_state.md R29). -/
def writeNodeCount (s : State) (v : Word32) : State :=
  if s.cfg.nodeCap < v.toNat then s.recordFault .hostRange
  else { s with nodeCount := v }.clearCtValid

/-- The host's write of DATA_LEN: HostRange above DATA_CAP, else D <- v (10_state.md R30). -/
def writeDataLen (s : State) (v : Word32) : State :=
  if s.cfg.dataCap < v.toNat then s.recordFault .hostRange else { s with dataLen := v }

/-- A 32-bit write of a register while BUSY = 0: CMD issues (10_state.md R24), ARG0, NODE_COUNT and
DATA_LEN are written (R27, R29, R30), and every other register is read-only (R23). -/
def writeReg (s : State) (v : Word32) : Reg → State
  | .cmd       => s.issue v
  | .arg0      => { s with arg0 := v }
  | .nodeCount => writeNodeCount s v
  | .dataLen   => writeDataLen s v
  | .status | .errInfoLo | .errInfoHi | .resultLo | .resultHi | .rdPosLo | .rdPosHi | .wrPosLo | .wrPosHi =>
    s.recordFault .hostRange

/-- The host reads a value: only the model's record of what it read changes (20_memory.md R72). -/
def State.answer (s : State) (v : HostValue) : State := { s with hostData := v }

/-- The host's read of a port's cell, or UninitRead where nothing was written (10_state.md R34, R35). -/
def answerOrUninit (s : State) : Option HostValue → State
  | some v => s.answer v
  | none   => s.recordFault .uninitRead

/-- A read of the window: aligned 32-bit words at the registers' offsets only (10_state.md R23). -/
def accessReadReg (s : State) (width offset : Nat) : State :=
  if width = 4 then
    match (regAt offset).bind (readReg s) with
    | some v => s.answer (.word v)
    | none   => s.recordFault .hostRange
  else s.recordFault .hostRange

/-- A write of the window: aligned 32-bit words at the registers' offsets only (10_state.md R23). -/
def accessWriteReg (s : State) (width offset : Nat) (v : Word32) : State :=
  if width = 4 then
    match regAt offset with
    | some r => writeReg s v r
    | none   => s.recordFault .hostRange
  else s.recordFault .hostRange

/-- A read of TM through the tree port (10_state.md R34). -/
def accessReadNode (s : State) (i : Nat) : State :=
  if i < s.cfg.nodeCap then answerOrUninit s ((s.nodeAt i).map .node) else s.recordFault .hostRange

/-- A write of TM through the tree port: the record is stored and marked written, and CT_VALID is cleared
(10_state.md R34). -/
def accessWriteNode (s : State) (i : Nat) (r : NodeRecord) : State :=
  if i < s.cfg.nodeCap then { s with tm := tableSet s.tm i r }.clearCtValid
  else s.recordFault .hostRange

/-- A read of DM through the data port (10_state.md R35). -/
def accessReadData (s : State) (j : Nat) : State :=
  if j < s.cfg.dataCap then answerOrUninit s ((s.byteAt j).map .byte) else s.recordFault .hostRange

/-- A write of DM through the data port: the byte is stored and marked written (10_state.md R35). -/
def accessWriteData (s : State) (j : Nat) (b : Byte) : State :=
  if j < s.cfg.dataCap then { s with dm := s.dm.write j b } else s.recordFault .hostRange

/-- An access while BUSY = 0 (10_state.md R33). -/
def idleAccess (s : State) : HostAccess → State
  | .readReg width offset    => accessReadReg s width offset
  | .writeReg width offset v => accessWriteReg s width offset v
  | .readNode i              => accessReadNode s i
  | .writeNode i r           => accessWriteNode s i r
  | .readData j              => accessReadData s j
  | .writeData j b           => accessWriteData s j b
  | .writeText t             => { s with textIn := t }
  | .readResText             => s.answer (.text s.resText)
  | .readResBytes            => s.answer (.bytes s.resBytes)

/-- The one access the host may make while BUSY = 1 (10_state.md R33). -/
abbrev HostAccess.readStatus : HostAccess := .readReg 4 0x04

/-- One access of the host (10_state.md R33): while BUSY = 1, a read of STATUS or HostHazard, which has no
other effect (60_exceptions.md R289; log entry 14). -/
def hostAccess (s : State) (a : HostAccess) : State :=
  if s.busy = true ∧ a ≠ .readStatus then s.recordFault .hostHazard else idleAccess s a

end Sys2Proof.Machine
end

