-- ==== Sys2Proof/Machine/Engine.lean ====
section
/-! DEFINITION. The turns of the two agents (10_state.md R20, 20_memory.md R75): the engine performs the
latched command, the host makes one access, and neither moves once a model fault is recorded. -/

namespace Sys2Proof.Machine

open Sys2Proof

/-- The engine performs one command word: an illegal one raises IllegalCommand with the word as info
(30_encoding.md R94), which comes before every other error (60_exceptions.md R288). -/
def performWord (w : Word32) (s : State) : Host.Outcome State Fault Refusal :=
  match decode w with
  | .ok i => exec i s
  | .error _ => .next (s.raise .illegalCommand (w.setWidth 64))

/-- A turn of the engine: it performs the latched command, or does nothing while BUSY = 0 (log entry 2). A
state with BUSY = 1 and an empty latch is never reached; the engine has nothing to perform there (log
entry 8). -/
def engineTurn (s : State) : Host.Outcome State Fault Refusal :=
  if s.busy = true then
    match s.pending with
    | some c => performWord c.word s
    | none => .next s
  else .next s

/-- One turn. Once MFAULT is non-empty no agent has a further step (60_exceptions.md R291). -/
def takeTurn (t : Turn) (s : State) : Host.Outcome State Fault Refusal :=
  if s.mfault.isEmpty then
    match t with
    | .host a => .next (hostAccess s a)
    | .engine => engineTurn s
  else .fault (.modelFault s.mfault)

/-- The next turn of the agenda is taken; with no turn waiting the engine moves, so a latched command is
performed in the end (70_reset_and_hazards.md R333, log entry 2). -/
def nextTurn (s : State) : Host.Outcome State Fault Refusal :=
  match s.agenda with
  | [] => takeTurn .engine s
  | t :: rest => takeTurn t { s with agenda := rest }

/-- The state in which the engine's turn comes next and the word `w` has just been written to CMD. -/
def placeCommand (s : State) (w : Word32) : State :=
  { s.issue w with agenda := .engine :: s.agenda }

end Sys2Proof.Machine
end

