-- ==== Sys2Proof/Machine/Step.lean ====
section
/-! DEFINITION. One step of the machine: one turn of one of its two agents. -/

namespace Sys2Proof.Machine

open Sys2Proof

/-- One step (20_memory.md R75). -/
def step (s : State) : Host.Outcome State Fault Refusal := nextTurn s

/-- The state `s` in which the host has just written the word `w` of `nbits` bits to CMD and the engine
moves next: the HCU fetches no instruction (10_state.md R21), and a CMD write is how a command comes to
run (log entry 17). -/
def State.withFetchWord (s : State) (nbits w : Nat) : State :=
  placeCommand s (BitVec.ofNat 32 (w % 2 ^ nbits))

end Sys2Proof.Machine
end

