-- ==== Sys2Proof/Machine/Container.lean ====
section
/-! DEFINITION. The TLK container of the host's side (45_host_container.md): byte order, entry tables, the
file layout, PARSE and the file SERIALIZE emits. Nothing here touches the block's state. -/

namespace Sys2Proof.Machine

open Sys2Proof

/-- `LE32(b0, b1, b2, b3)` (20_memory.md R67). -/
def le32 (b0 b1 b2 b3 : Byte) : Word32 := b3 ++ b2 ++ b1 ++ b0

/-- `LE32⁻¹(v) = [v[7:0], v[15:8], v[23:16], v[31:24]]` (20_memory.md R67). -/
def toLe32 (v : Word32) : List Byte :=
  [v.extractLsb' 0 8, v.extractLsb' 8 8, v.extractLsb' 16 8, v.extractLsb' 24 8]

/-- The 32-bit field at byte `p` of a file. PARSE reads fields only inside the file (R249). -/
def le32At (bytes : List Byte) (p : Nat) : Word32 :=
  le32 (bytes.getD p 0) (bytes.getD (p + 1) 0) (bytes.getD (p + 2) 0) (bytes.getD (p + 3) 0)

/-- The codes the host procedures return in addition to the architectural ones (60_exceptions.md R292). -/
inductive HostCode where
  | invalidMagic
  | truncatedFile
  | trailingData
  | notFound
  | duplicateId
  deriving DecidableEq, Repr

/-- The number of a host result code (60_exceptions.md R292). -/
def HostCode.code : HostCode → BitVec 8
  | .invalidMagic  => 0x10
  | .truncatedFile => 0x11
  | .trailingData  => 0x12
  | .notFound      => 0x13
  | .duplicateId   => 0x14

/-- The error of a host procedure: a code of its own, or an architectural error passed on unchanged
(45_host_container.md R240). -/
inductive HostError where
  | host (c : HostCode)
  | arch (e : ErrCode)
  deriving DecidableEq, Repr

/-- An entry: a string's id and the bit offset where its code begins (45_host_container.md R245, 20 R69). -/
structure Entry where
  id     : Word32
  offset : Word32
  deriving DecidableEq, Repr

/-- A table in which no id occurs twice (45_host_container.md R245). -/
abbrev UniqueIds (tbl : List Entry) : Prop := (tbl.map Entry.id).Nodup

/-- `insert(tbl, id, off)`: the entry is appended, or DuplicateId and no change (45_host_container.md R246). -/
def insertEntry (tbl : List Entry) (e : Entry) : Except HostCode (List Entry) :=
  if tbl.any (fun x => x.id == e.id) then .error .duplicateId else .ok (tbl ++ [e])

/-- The entries inserted one after another, stopping at the first DuplicateId (45_host_container.md R249). -/
def insertEntries (tbl : List Entry) : List Entry → Except HostCode (List Entry)
  | [] => .ok tbl
  | e :: rest =>
    match insertEntry tbl e with
    | .ok tbl' => insertEntries tbl' rest
    | .error c => .error c

/-- `lookup(tbl, id)` (45_host_container.md R247). -/
def lookupEntry (tbl : List Entry) (id : Word32) : Except HostCode Word32 :=
  match tbl.find? (fun x => x.id == id) with
  | some e => .ok e.offset
  | none   => .error .notFound

/-- A TLK document (00_scope.md R3, 45_host_container.md R249). -/
structure Doc where
  version    : Word32
  minVersion : Word32
  male       : List Entry
  female     : List Entry
  nodes      : List NodeRecord
  data       : List Byte
  deriving DecidableEq, Repr

/-- The fixed magic of a TLK file (45_host_container.md R243). -/
def tlkMagic : Word32 := 0x006B6C54

/-- T = 28 + 8M + 8F + 8N + D (45_host_container.md R242). -/
def fileLength (m f n d : Nat) : Nat := 28 + 8 * m + 8 * f + 8 * n + d

/-- `n` entry records from byte `base` on (20_memory.md R69). -/
def entriesAt (bytes : List Byte) (base n : Nat) : List Entry :=
  (List.range n).map fun i => ⟨le32At bytes (base + 8 * i), le32At bytes (base + 8 * i + 4)⟩

/-- `n` node records from byte `base` on (20_memory.md R68). -/
def nodesAt (bytes : List Byte) (base n : Nat) : List NodeRecord :=
  (List.range n).map fun i => ⟨le32At bytes (base + 8 * i), le32At bytes (base + 8 * i + 4)⟩

/-- The sections of a file whose length is right: the two tables, the nodes and the data
(45_host_container.md R249). -/
def parseSections (bytes : List Byte) (m f n : Nat) : Except HostCode Doc :=
  match insertEntries [] (entriesAt bytes 28 m) with
  | .error c => .error c
  | .ok male =>
    match insertEntries [] (entriesAt bytes (28 + 8 * m) f) with
    | .error c => .error c
    | .ok female =>
      .ok { version    := le32At bytes 4
            minVersion := le32At bytes 8
            male       := male
            female     := female
            nodes      := nodesAt bytes (28 + 8 * m + 8 * f) n
            data       := bytes.drop (28 + 8 * m + 8 * f + 8 * n) }

/-- `PARSE(bytes)` (45_host_container.md R249), its checks in that order (R251). -/
def parse (bytes : List Byte) : Except HostCode Doc :=
  if bytes.length < 4 then .error .truncatedFile
  else if le32At bytes 0 ≠ tlkMagic then .error .invalidMagic
  else if bytes.length < 28 then .error .truncatedFile
  else
    let m := (le32At bytes 12).toNat
    let f := (le32At bytes 16).toNat
    let n := (le32At bytes 20).toNat
    let d := (le32At bytes 24).toNat
    if bytes.length < fileLength m f n d then .error .truncatedFile
    else if fileLength m f n d < bytes.length then .error .trailingData
    else parseSections bytes m f n

/-- An entry's wire form (20_memory.md R69). -/
def Entry.wire (e : Entry) : List Byte := toLe32 e.id ++ toLe32 e.offset

/-- A node record's wire form (20_memory.md R68). -/
def NodeRecord.wire (r : NodeRecord) : List Byte := toLe32 r.left ++ toLe32 r.right

/-- The file of a document: header, tables, nodes, data (45_host_container.md R241, R257). -/
def emitDoc (d : Doc) : List Byte :=
  toLe32 tlkMagic ++ toLe32 d.version ++ toLe32 d.minVersion
    ++ toLe32 (BitVec.ofNat 32 d.male.length) ++ toLe32 (BitVec.ofNat 32 d.female.length)
    ++ toLe32 (BitVec.ofNat 32 d.nodes.length) ++ toLe32 (BitVec.ofNat 32 d.data.length)
    ++ d.male.flatMap Entry.wire ++ d.female.flatMap Entry.wire ++ d.nodes.flatMap NodeRecord.wire ++ d.data

end Sys2Proof.Machine
end

