-- ==== Sys2Proof/Machine/HostProc.lean ====
section
/-! DEFINITION. The host's programs: command lines (30_encoding.md R97), the pseudo-operations (R98), and
the procedures LOAD_DOC, DECODE_ENTRY, DECODE_ALL and SERIALIZE (45_host_container.md). Each is a list of
turns, or a function that drives the machine by turns. -/

namespace Sys2Proof.Machine

open Sys2Proof

/-- The run goes on from what an outcome answers, or has stopped. -/
def andThen {α β : Type} (r : Host.Outcome α Fault Refusal) (f : α → Host.Outcome β Fault Refusal) :
    Host.Outcome β Fault Refusal :=
  match r with
  | .next a    => f a
  | .fault e   => .fault e
  | .refused e => .refused e

/-- The turns taken one after another, stopping at the first that stops. -/
def takeTurns : List Turn → State → Host.Outcome State Fault Refusal
  | [], s => .next s
  | t :: rest, s => andThen (takeTurn t s) (takeTurns rest)

/-- A command line with no operand in the state: CMD is written, the engine performs the command, and the
host's poll of STATUS finds BUSY = 0 (30_encoding.md R97). How many polls find BUSY = 1 before that is open
(70_reset_and_hazards.md R333, 93_implementation_defined.md I27): DESIGN CHOICE, none, so the engine's turn comes
right after the CMD write and the one poll after it (log entry 19). -/
def commandLine (i : Instr) : List Turn :=
  [.host (.writeReg 4 0x00 (encode i)), .engine, .host .readStatus]

/-- A command line with an offset: ARG0 is written first (30_encoding.md R97, 70 R328). -/
def offsetLine (i : Instr) (off : Word32) : List Turn :=
  .host (.writeReg 4 0x10 off) :: commandLine i

/-- A command line with a text: TEXT_IN is loaded first (30_encoding.md R97, 70 R328). -/
def textLine (i : Instr) (t : Text) : List Turn :=
  .host (.writeText t) :: commandLine i

/-- `N := v` (30_encoding.md R97). -/
def writeNLine (v : Word32) : Turn := .host (.writeReg 4 0x14 v)

/-- `D := v` (30_encoding.md R97). -/
def writeDLine (v : Word32) : Turn := .host (.writeReg 4 0x18 v)

/-- `TM[base] := r0; TM[base+1] := r1; …` (30_encoding.md R97). -/
def writeNodeLines : (base : Nat) → List NodeRecord → List Turn
  | _, [] => []
  | base, r :: rs => .host (.writeNode base r) :: writeNodeLines (base + 1) rs

/-- `DM[base] := b0; DM[base+1] := b1; …` (30_encoding.md R97). -/
def writeDataLines : (base : Nat) → List Byte → List Turn
  | _, [] => []
  | base, b :: bs => .host (.writeData base b) :: writeDataLines (base + 1) bs

/-- `BUILD t1, …, tn` (30_encoding.md R98), line by line. -/
def buildLines (ts : List Text) : List (List Turn) :=
  commandLine .freqClear :: (ts.map (textLine .freqAdd) ++ [commandLine .treeBuild])

/-- `LOADTREE r0, …, r(k-1)` (30_encoding.md R98). -/
def loadTree (rs : List NodeRecord) : List Turn :=
  writeNLine (BitVec.ofNat 32 rs.length) :: writeNodeLines 0 rs

/-- `LOADDATA b0, …, b(m-1)` (30_encoding.md R98). -/
def loadData (bs : List Byte) : List Turn :=
  writeDataLines 0 bs ++ [writeDLine (BitVec.ofNat 32 bs.length)]

/-- `ENCODE_ALL t1, …, tn` (30_encoding.md R98), line by line. -/
def encodeAllLines (ts : List Text) : List (List Turn) :=
  commandLine .wrClear :: (ts.map (textLine .encode) ++ [commandLine .wrFinish])

/-- What a host procedure gives: the block's state after it, with a value or an error
(45_host_container.md R240); or the run has stopped. -/
abbrev ProcResult (α : Type) := Host.Outcome (State × Except HostError α) Fault Refusal

/-- The error the last completed command reported, if any: read from ERR_CODE (60_exceptions.md R285). -/
def State.commandError (s : State) : Option ErrCode := if s.errCode = .ok then none else some s.errCode

/-- The lines one after another, every command issued whatever the earlier ones reported, with the first error of
them all, `err` being the first one so far (45_host_container.md R257; log entry 15). -/
def runLines : List (List Turn) → (err : Option ErrCode) → State →
    Host.Outcome (State × Option ErrCode) Fault Refusal
  | [], err, s => .next (s, err)
  | l :: rest, err, s => andThen (takeTurns l s) fun s' => runLines rest (err <|> s'.commandError) s'

/-- `LOAD_DOC(doc)` (45_host_container.md R250). Its accesses change no error code, so it ends with no
error of its own once the capacities hold. -/
def loadDoc (d : Doc) (s : State) : ProcResult Unit :=
  if s.cfg.nodeCap < d.nodes.length ∨ s.cfg.dataCap < d.data.length then
    .next (s, .error (.arch .capacityExceeded))
  else
    andThen (takeTurns (loadTree d.nodes ++ loadData d.data) s) fun s' => .next (s', .ok ())

/-- The two tables of a document (00_scope.md R15). -/
inductive Gender where
  | male
  | female
  deriving DecidableEq, Repr

/-- The table of a gender (45_host_container.md R253). -/
def Doc.table (d : Doc) : Gender → List Entry
  | .male   => d.male
  | .female => d.female

/-- `DECODE_ENTRY(doc, id, g)`, for a document that is loaded (45_host_container.md R253). -/
def decodeEntry (d : Doc) (id : Word32) (g : Gender) (s : State) : ProcResult Text :=
  match lookupEntry (d.table g) id with
  | .error c => .next (s, .error (.host c))
  | .ok off  =>
    andThen (takeTurns (offsetLine .decode off) s) fun s' =>
      match s'.commandError with
      | some e => .next (s', .error (.arch e))
      | none   => .next (s', .ok s'.resText)

/-- DECODE_ENTRY for each entry of a table in order, keeping each entry's own result
(45_host_container.md R254). -/
def decodeEntries (d : Doc) (g : Gender) : List Entry → State →
    Host.Outcome (State × List (Except HostError Text)) Fault Refusal
  | [], s => .next (s, [])
  | e :: rest, s =>
    andThen (decodeEntry d e.id g s) fun r =>
    andThen (decodeEntries d g rest r.1) fun rs => .next (rs.1, r.2 :: rs.2)

/-- `DECODE_ALL(doc)`: the male entries in table order, then the female ones (45_host_container.md R254). -/
def decodeAll (d : Doc) (s : State) : Host.Outcome (State × List (Except HostError Text)) Fault Refusal :=
  andThen (decodeEntries d .male d.male s) fun ms =>
  andThen (decodeEntries d .female d.female ms.1) fun fs => .next (fs.1, ms.2 ++ fs.2)

/-- The checks of SERIALIZE before any command, in their order (45_host_container.md R256). -/
def serializeCheck (male female : List (Word32 × Text)) : Option HostError :=
  if ¬ (male.map Prod.fst).Nodup then some (.host .duplicateId)
  else if ¬ (female.map Prod.fst).Nodup then some (.host .duplicateId)
  else if (male ++ female).any (fun p => p.2.contains terminator) then some (.arch .illegalOperand)
  else if male = [] ∧ female = [] then some (.arch .emptySymbolSet)
  else if 2 ^ 32 - 1 < male.length ∨ 2 ^ 32 - 1 < female.length then some (.arch .capacityExceeded)
  else none

/-- The table after `insert(tbl, id, off)`, which leaves it unchanged on DuplicateId (45_host_container.md R246). -/
def tableAfterInsert (tbl : List Entry) (e : Entry) : List Entry :=
  match insertEntry tbl e with
  | .ok tbl' => tbl'
  | .error _ => tbl

/-- What the loops of SERIALIZE pass along: the block, the first error so far, the table so far. -/
structure Encoding where
  block : State
  err   : Option ErrCode
  tbl   : List Entry
  deriving DecidableEq, Repr

/-- `for (id, t) in list: ENCODE t; insert(tbl, id, RESULT)`, every ENCODE issued (45_host_container.md R257). A
start offset fits 32 bits, since ENCODE refuses any other (44_huffman_encode.md R222). -/
def encodeEntries : List (Word32 × Text) → Encoding → Host.Outcome Encoding Fault Refusal
  | [], x => .next x
  | (id, t) :: rest, x =>
    andThen (takeTurns (textLine .encode t) x.block) fun s =>
      encodeEntries rest ⟨s, x.err <|> s.commandError, tableAfterInsert x.tbl ⟨id, s.result.setWidth 32⟩⟩

/-- TM[0..N), every record of which TREE_BUILD has written (43_huffman_build.md R192). -/
def treeRecords (s : State) : List NodeRecord := (List.range s.nodeCount.toNat).filterMap s.nodeAt

/-- What SERIALIZE returns after WR_FINISH: the first error any command reported and no bytes, else the whole
file (45_host_container.md R257, R258; log entry 15). -/
def serializeResult (version minVersion : Word32) (maleTable femaleTable : List Entry) (err : Option ErrCode)
    (s : State) : Except HostError (List Byte) :=
  match err with
  | some e => .error (.arch e)
  | none   => .ok (emitDoc ⟨version, minVersion, maleTable, femaleTable, treeRecords s, s.resBytes⟩)

/-- `SERIALIZE(ver, minv, male, female)` (45_host_container.md R255 to R257): the checks, then every command of the
build, the encodings and WR_FINISH, and only then the test for errors. -/
def serialize (version minVersion : Word32) (male female : List (Word32 × Text)) (s : State) :
    ProcResult (List Byte) :=
  match serializeCheck male female with
  | some e => .next (s, .error e)
  | none =>
    andThen (runLines (buildLines ((male ++ female).map Prod.snd) ++ [commandLine .wrClear]) none s) fun b =>
    andThen (encodeEntries male ⟨b.1, b.2, []⟩) fun m =>
    andThen (encodeEntries female ⟨m.block, m.err, []⟩) fun f =>
    andThen (runLines [commandLine .wrFinish] f.err f.block) fun r =>
      .next (r.1, serializeResult version minVersion m.tbl f.tbl r.2 r.1)

end Sys2Proof.Machine
end

