-- ==== Sys2Proof/Safety.lean ====
section
/-! DEFINITION. The terms claims are stated in: states in which an agent moves, the invariants of the machine
(10_state.md R29 to R43), trees and the paths in them (10_state.md R39, 42_huffman_decode.md R157), and the
greedy merge as a relation (43_huffman_build.md R185, R188). -/

namespace Sys2Proof.Machine

open Sys2Proof

/-- The engine has the command `c` to perform: it is latched, BUSY = 1 and no model fault is recorded. -/
structure State.Running (s : State) (c : Command) : Prop where
  noFault : s.mfault.isEmpty = true
  busy    : s.busy = true
  latched : s.pending = some c

/-- The host may access the block: BUSY = 0 and no model fault is recorded (10_state.md R33). -/
structure State.Idle (s : State) : Prop where
  noFault : s.mfault.isEmpty = true
  busy    : s.busy = false

/-- S of 43_huffman_build.md R182: `[u in 0x0000..0xFFFF, ascending | FREQ[u] > 0]`. -/
def State.symbolSet (s : State) : List CodeUnit :=
  ((List.range 65536).map (BitVec.ofNat 16)).filter fun u => decide (0 < (s.freqOf u).toNat)

/-- The invariant of the machine's data: the bounds the rules give each register and memory, and the
canonical form of each table. -/
structure State.Wf (s : State) : Prop where
  /-- The parameters have legal values (00_scope.md R8). -/
  cfgLegal     : s.cfg.Legal
  /-- N ≤ NODE_CAP (10_state.md R29, 43_huffman_build.md R190). -/
  nodeCountLe  : s.nodeCount.toNat ≤ s.cfg.nodeCap
  /-- D ≤ DATA_CAP (10_state.md R30). -/
  dataLenLe    : s.dataLen.toNat ≤ s.cfg.dataCap
  /-- RD_POS ≤ max(2^32 − 1, 8·DATA_CAP) (10_state.md R31). -/
  rdPosLe      : s.rdPos.toNat ≤ max (2 ^ 32 - 1) (8 * s.cfg.dataCap)
  /-- |WB| ≤ WBUF_CAP_BITS (10_state.md R32, R36). -/
  wbLe         : s.wb.length ≤ s.cfg.wbufCapBits
  freqRising   : Rising s.freq
  freqBelow    : Below 65536 s.freq
  freqNonzero  : ∀ e ∈ s.freq, e.2 ≠ 0
  /-- The terminator is counted once any unit is (43_huffman_build.md R186). -/
  terminatorCounted : s.freq ≠ [] → s.freqOf terminator ≠ 0
  ctRising     : Rising s.ct
  ctBelow      : Below 65536 s.ct
  /-- A code is a non-empty bit string (10_state.md R38). -/
  ctNonempty   : ∀ e ∈ s.ct, e.2 ≠ []
  tmRising     : Rising s.tm
  /-- TM has the indices 0 to NODE_CAP − 1 (10_state.md R34). -/
  tmBelow      : Below s.cfg.nodeCap s.tm
  dmWf         : s.dm.wf
  /-- DM has the indices 0 to DATA_CAP − 1 (10_state.md R35). -/
  dmBelow      : Below s.cfg.dataCap s.dm
  /-- BUSY = 1 only while a command is latched (10_state.md R20, R24). -/
  busyLatched  : s.busy = true → s.pending.isSome = true

/-- The leaf reached by following a path from the record `cur`, bit 0 taking `left` and bit 1 `right`, if
the path ends exactly at a leaf and every index on it is below N (10_state.md R39). -/
def follow (s : State) : (cur : Nat) → Bits → Option CodeUnit
  | _, [] => none
  | cur, b :: rest =>
    match s.nodeAt cur with
    | none => none
    | some rec =>
      if (rec.child b).toInt < 0 then
        match rest with
        | [] => leafUnit (rec.child b)
        | _ :: _ => none
      else if s.nodeCount.toNat ≤ (rec.child b).toNat then none
      else follow s (rec.child b).toNat rest

/-- The unit has a leaf in TM[0..N) (10_state.md R39). -/
def State.hasLeaf (s : State) (u : CodeUnit) : Prop :=
  ∃ i rec b, i < s.nodeCount.toNat ∧ s.nodeAt i = some rec ∧ rec.child b = leafValue u

/-- A child of record `i` as TREE_BUILD writes it: a leaf's value, or an index above `i` and below N
(43_huffman_build.md R195). -/
def State.soundChild (s : State) (i : Nat) (v : Word32) : Prop :=
  (∃ u, v = leafValue u) ∨ (0 ≤ v.toInt ∧ i < v.toNat ∧ v.toNat < s.nodeCount.toNat)

/-- Every record of TM[0..N) is written and both its children are sound; there is a root. -/
structure State.SoundTree (s : State) : Prop where
  rootExists : 0 < s.nodeCount.toNat
  sound      : ∀ i, i < s.nodeCount.toNat →
    ∃ rec, s.nodeAt i = some rec ∧ s.soundChild i rec.left ∧ s.soundChild i rec.right

/-- While CT_VALID = 1 the code table matches the tree (10_state.md R39): the tree is sound, exactly the
units with a leaf have a code, following a code from the root reaches its unit's leaf, no code is longer
than N (43_huffman_build.md R196), and the terminator has a code (44_huffman_encode.md R221). -/
structure State.CodesMatch (s : State) : Prop where
  tree       : s.ctValid = true → s.SoundTree
  leaves     : s.ctValid = true → ∀ u, s.hasLeaf u ↔ s.codeOf u ≠ none
  reach      : s.ctValid = true → ∀ u c, s.codeOf u = some c → follow s 0 c = some u
  lengths    : s.ctValid = true → ∀ u c, s.codeOf u = some c → 1 ≤ c.length ∧ c.length ≤ s.nodeCount.toNat
  terminated : s.ctValid = true → s.codeOf terminator ≠ none

/-- The invariant of every run. -/
structure State.Inv (s : State) : Prop where
  wf    : s.Wf
  codes : s.CodesMatch

/-- The bits of the data segment from `pos` on are `w`. -/
def streamHas (s : State) (pos : Nat) (w : Bits) : Prop :=
  pos + w.length ≤ s.bitLength ∧ ∀ i, i < w.length → bitAt s (pos + i) = w[i]?

/-- One unit's code stands at `pos`: a path of the tree that leads to the unit's leaf, no longer than N
(42_huffman_decode.md R157, R160). -/
def codedAt (s : State) (pos : Nat) (u : CodeUnit) (c : Bits) : Prop :=
  follow s 0 c = some u ∧ c.length ≤ s.nodeCount.toNat ∧ streamHas s pos c

/-- The text, followed by the terminator, stands coded in the stream from `pos` to `stop`: one code after
another with nothing between (42_huffman_decode.md R160). -/
def spells (s : State) : (pos : Nat) → Text → (stop : Nat) → Prop
  | pos, [], stop => ∃ c, codedAt s pos terminator c ∧ stop = pos + c.length
  | pos, u :: rest, stop => u ≠ terminator ∧ ∃ c, codedAt s pos u c ∧ spells s (pos + c.length) rest stop

/-- The greedy merge of 43_huffman_build.md R188 as a relation on the items left: the two items with the
least keys are replaced by their merge, until one is left. -/
inductive GreedyMerge : List Item → Nat → HTree → Prop where
  | last (i : Item) (next : Nat) : GreedyMerge [i] next i.tree
  | merge (items others : List Item) (a b : Item) (next : Nat) (root : HTree)
      (popped : items.Perm (a :: b :: others))
      (leastFirst : a.before b = true ∧ ∀ x ∈ others, b.before x = true)
      (goesOn : GreedyMerge (joinItems a b next :: others) (next + 1) root) :
      GreedyMerge items next root

/-- The points the walk of DECODE passes, as the pseudocode of 42_huffman_decode.md R154 reaches the head of
its loop: RD_POS, the units so far, DEC_CUR and DEC_DEPTH. -/
inductive DecodeReaches (s : State) (off : Nat) : Nat → Text → Nat → Nat → Prop where
  | start : DecodeReaches s off off [] 0 0
  | emit (pos cur depth : Nat) (out : Text) (b : Bool) (rec : NodeRecord) (u : CodeUnit)
      (before : DecodeReaches s off pos out cur depth)
      (inStream : pos < s.bitLength) (bit : bitAt s pos = some b) (record : s.nodeAt cur = some rec)
      (isLeaf : (rec.child b).toInt < 0) (unit : leafUnit (rec.child b) = some u)
      (noTerminator : u ≠ terminator) (room : out.length < s.cfg.outCap) :
      DecodeReaches s off (pos + 1) (out ++ [u]) 0 0
  | descend (pos cur depth : Nat) (out : Text) (b : Bool) (rec : NodeRecord)
      (before : DecodeReaches s off pos out cur depth)
      (inStream : pos < s.bitLength) (bit : bitAt s pos = some b) (record : s.nodeAt cur = some rec)
      (isIndex : 0 ≤ (rec.child b).toInt) (inTree : (rec.child b).toNat < s.nodeCount.toNat)
      (shallow : depth + 1 < s.nodeCount.toNat) :
      DecodeReaches s off (pos + 1) out (rec.child b).toNat (depth + 1)

/-- The loop has arrived at a point where it takes the child `v` of the record `cur` (42_huffman_decode.md R154,
R153): the bit at `pos` is in the stream and the record is written. -/
structure DecodeTakes (s : State) (off pos : Nat) (out : Text) (cur depth : Nat) (v : Word32) : Prop where
  rootExists : s.nodeCount ≠ 0
  reached    : DecodeReaches s off pos out cur depth
  inStream   : pos < s.bitLength
  taken      : ∃ b rec, bitAt s pos = some b ∧ s.nodeAt cur = some rec ∧ rec.child b = v

/-- The `raise`s of DECODE (42_huffman_decode.md R154): RD_POS at the raise, the error and its info. -/
inductive DecodeRaises (s : State) (off : Nat) : Nat → ErrCode → Nat → Prop where
  | noRoot (empty : s.nodeCount = 0) : DecodeRaises s off off .malformedTree 0
  | exhausted (pos cur depth : Nat) (out : Text) (rootExists : s.nodeCount ≠ 0)
      (reached : DecodeReaches s off pos out cur depth) (past : s.bitLength ≤ pos) :
      DecodeRaises s off pos .malformedStream pos
  | badLeaf (pos cur depth : Nat) (out : Text) (v : Word32) (takes : DecodeTakes s off pos out cur depth v)
      (low : v.toInt < -65536) : DecodeRaises s off (pos + 1) .malformedTree cur
  | full (pos cur depth : Nat) (out : Text) (v : Word32) (takes : DecodeTakes s off pos out cur depth v)
      (isLeaf : -65536 ≤ v.toInt ∧ v.toInt < -1) (noRoom : s.cfg.outCap ≤ out.length) :
      DecodeRaises s off (pos + 1) .capacityExceeded out.length
  | badIndex (pos cur depth : Nat) (out : Text) (v : Word32) (takes : DecodeTakes s off pos out cur depth v)
      (isIndex : 0 ≤ v.toInt) (high : s.nodeCount.toNat ≤ v.toNat) : DecodeRaises s off (pos + 1) .malformedTree cur
  | cycle (pos cur depth : Nat) (out : Text) (v : Word32) (takes : DecodeTakes s off pos out cur depth v)
      (isIndex : 0 ≤ v.toInt) (inTree : v.toNat < s.nodeCount.toNat) (deep : s.nodeCount.toNat ≤ depth + 1) :
      DecodeRaises s off (pos + 1) .malformedStream (pos + 1)

/-- `visit` and `child` of 43_huffman_build.md R191 as they are written there, with idx, recs and code
passed along: a leaf's path is its code, an internal item takes the next index before its children. -/
def visit : HTree → (path : Bits) → Nat × Table NodeRecord × List (CodeUnit × Bits) →
    Word32 × Nat × Table NodeRecord × List (CodeUnit × Bits)
  | .leaf u, path, (idx, recs, code) => (leafValue u, idx, recs, code ++ [(u, path)])
  | .node l r, path, (my, recs, code) =>
    match visit l (path ++ [false]) (my + 1, recs, code) with
    | (lv, idx1, recs1, code1) =>
      match visit r (path ++ [true]) (idx1, recs1, code1) with
      | (rv, idx2, recs2, code2) => (BitVec.ofNat 32 my, idx2, tableSet recs2 my ⟨lv, rv⟩, code2)

/-- The leaf items of S (43_huffman_build.md R184): each unit with its count and its index in S. -/
def leafItemsOf (s : State) : List Item :=
  s.symbolSet.zipIdx.map fun e => ⟨(s.freqOf e.1).toNat, e.2, .leaf e.1⟩

/-- A step in which the host makes the access `a`, whatever turns come after it. -/
def hostStep (a : HostAccess) (s : State) : Host.Outcome State Fault Refusal :=
  step { s with agenda := .host a :: s.agenda }

/-- The commands performed one after another. -/
def execAll : List Instr → State → Host.Outcome State Fault Refusal
  | [], s => .next s
  | i :: rest, s =>
    match exec i s with
    | .next s'   => execAll rest s'
    | .fault f   => .fault f
    | .refused r => .refused r

/-- A command performed with the text `t` latched. -/
def execWithText (i : Instr) (t : Text) (s : State) : Host.Outcome State Fault Refusal :=
  exec i { s with pending := some ⟨encode i, t⟩ }

/-- What FREQ[u] is after BUILD of the texts: the occurrences of `u`, and for the terminator the number of texts
(43_huffman_build.md R183). -/
def countOf (ts : List Text) (u : CodeUnit) : Nat :=
  ts.flatten.count u + if u = terminator then ts.length else 0

/-- S after BUILD of one text or more (43_huffman_build.md R186). -/
def unitsOf (ts : List Text) : List CodeUnit := (terminator :: ts.flatten).dedup

/-- The number of bits ENCODE appends for the texts under the codes of `b` (44_huffman_encode.md R220). -/
def codeBits (b : State) (ts : List Text) : Nat := (ts.map fun t => ((codeString b t).getD []).length).sum

/-- The host's access is a write that 20_memory.md R72 lets clear CT_VALID: of a record of TM or of
NODE_COUNT. -/
def HostAccess.writesTree : HostAccess → Bool
  | .writeNode _ _          => true
  | .writeReg width off _   => width == 4 && off == 0x14
  | .readReg _ _ | .readNode _ | .readData _ | .writeData _ _ | .writeText _ | .readResText | .readResBytes => false

/-- The errors a command can raise (60_exceptions.md R282). -/
def errorsOf : Instr → List ErrCode
  | .rdInit | .wrClear | .wrPos | .wrFinish | .freqClear => []
  | .rdBit     => [.outOfRange]
  | .wrBit _   => [.capacityExceeded]
  | .freqAdd   => [.illegalOperand, .capacityExceeded]
  | .treeBuild => [.emptySymbolSet, .capacityExceeded]
  | .decode    => [.malformedTree, .malformedStream, .capacityExceeded]
  | .encode    => [.noCodeTable, .illegalOperand, .unknownSymbol, .capacityExceeded]

end Sys2Proof.Machine
end

