-- ==== Sys2Proof/Certificates/Slice0/Obligations.lean ====
section
/-! DEFINITION. The statements for the provers. Each docstring names the rule of spec/ a statement
formalises. `word64 n` is `zext_64(n)` for every n below 2^64 and a free value above, where no rule gives one
(log entry 9): a statement that names it holds for every such value. -/

open Sys2Proof Sys2Proof.Machine

/-- The command words of 30_encoding.md R92 and the vectors E1 to E18 of 95_test_vectors.md: a sanity
statement on fixed words. -/
def Obligations.ListedWordsDecode : Prop :=
  decode 0x00000001 = .ok .rdInit ∧ decode 0x00000002 = .ok .rdBit ∧ decode 0x00000003 = .ok .wrClear ∧
  decode 0x00000004 = .ok (.wrBit false) ∧ decode 0x00000104 = .ok (.wrBit true) ∧
  decode 0x00000005 = .ok .wrPos ∧ decode 0x00000006 = .ok .wrFinish ∧
  decode 0x00000010 = .ok .freqClear ∧ decode 0x00000011 = .ok .freqAdd ∧
  decode 0x00000012 = .ok .treeBuild ∧ decode 0x00000020 = .ok .decode ∧
  decode 0x00000021 = .ok .encode ∧
  decode 0x00000000 = .error .unassignedOpcode ∧ decode 0x00000007 = .error .unassignedOpcode ∧
  decode 0x00000101 = .error .operandBit ∧ decode 0x00000204 = .error .reservedBits ∧
  decode 0x80000020 = .error .reservedBits ∧ decode 0x000000FF = .error .unassignedOpcode

/-- Decoding and encoding agree in both directions (30_encoding.md R90, R92, R93): every word that decodes
to an instruction is that instruction's word, and every instruction's word decodes to it. -/
def Obligations.DecodeIsInverseOfEncode : Prop :=
  ∀ (w : Word32) (i : Instr), decode w = .ok i ↔ encode i = w

/-- 30_encoding.md R93: a word decodes to a command of a row exactly when `(w & mask) = match`. -/
def Obligations.DecodeMatchesTableRows : Prop :=
  ∀ (w : Word32) (i : Instr), i ∈ instrRows →
    ((∃ j, decode w = .ok j ∧ j.row = i.row) ↔ w &&& i.row.1 = i.row.2)

/-- 30_encoding.md R94: a word is illegal exactly in the three cases the rule lists, and executing it raises
IllegalCommand with the word as info, changing nothing but ERR_CODE, ERR_INFO, RESULT and BUSY (and, in the
model, taking the engine's turn off the agenda: log entry 2). -/
def Obligations.IllegalWordRaisesIllegalCommand : Prop :=
  ∀ (s : State) (c : Command), s.Running c →
    (((∀ i, decode c.word ≠ .ok i) ↔
      opField c.word ∉ ([0x01, 0x02, 0x03, 0x04, 0x05, 0x06, 0x10, 0x11, 0x12, 0x20, 0x21] : List (BitVec 8)) ∨
      resField c.word ≠ 0 ∨ (bField c.word = true ∧ opField c.word ≠ 0x04))) ∧
    ((∀ i, decode c.word ≠ .ok i) →
      (s.agenda = [] → step s =
        .next { s with errCode := .illegalCommand, errInfo := c.word.setWidth 64, result := 0, busy := false }) ∧
      (∀ rest, s.agenda = .engine :: rest → step s =
        .next { s with agenda := rest, errCode := .illegalCommand, errInfo := c.word.setWidth 64, result := 0,
                       busy := false }))

/-- A step of the engine performs the decoded instruction: with the engine's turn first in the agenda, or no
turn waiting, a step is `exec` of the instruction the latched word decodes to; and `withFetchWord` places
an instruction so that the very next step is `exec` of it (10_state.md R20). -/
def Obligations.StepPerformsLatchedCommand : Prop :=
  (∀ (s : State) (c : Command) (i : Instr), s.Running c → decode c.word = .ok i →
    (s.agenda = [] → step s = exec i s) ∧
    (∀ rest, s.agenda = .engine :: rest → step s = exec i { s with agenda := rest })) ∧
  (∀ (s : State) (i : Instr), s.mfault.isEmpty = true →
    step (s.withFetchWord 32 (encode i).toNat) = exec i (s.issue (encode i)))

/-- 41_bitio.md R120, RD_INIT. -/
def Obligations.RdInitSetsCursor : Prop :=
  decode 0x00000001 = .ok .rdInit ∧ ∀ s : State, exec .rdInit s =
    .next { s with rdPos := s.arg0.setWidth 64, result := 0, errCode := .ok, errInfo := 0, busy := false }

/-- 41_bitio.md R121, RD_BIT: past the end, in the stream, and on a byte never written. -/
def Obligations.RdBitReadsBitAtCursor : Prop :=
  decode 0x00000002 = .ok .rdBit ∧ ∀ s : State,
    (8 * s.dataLen.toNat ≤ s.rdPos.toNat →
      exec .rdBit s = .next { s with errCode := .outOfRange, errInfo := s.rdPos, result := 0, busy := false }) ∧
    (∀ byte, s.rdPos.toNat < 8 * s.dataLen.toNat → s.byteAt (s.rdPos.toNat / 8) = some byte →
      exec .rdBit s = .next { s with
        rdPos := s.rdPos + 1
        result := (BitVec.ofBool (byte.getLsbD
          (if s.cfg.bitOrder = .lsbFirst then s.rdPos.toNat % 8 else 7 - s.rdPos.toNat % 8))).setWidth 64
        errCode := .ok, errInfo := 0, busy := false }) ∧
    (s.rdPos.toNat < 8 * s.dataLen.toNat → s.byteAt (s.rdPos.toNat / 8) = none →
      exec .rdBit s = .next { s with mfault := { s.mfault with uninitRead := true } })

/-- 41_bitio.md R122: after RD_INIT at s the RD_BITs return bit_at(s), bit_at(s + 1), … up to the end, and
every later one raises OutOfRange with the cursor at max(s, 8·D). -/
def Obligations.ReaderReturnsStreamInOrder : Prop :=
  ∀ (s : State) (n : Nat),
    (∀ j, j < s.dataLen.toNat → s.byteAt j ≠ none) →
    (∀ b, s.arg0.toNat + n < s.bitLength → bitAt s (s.arg0.toNat + n) = some b →
      execAll (.rdInit :: List.replicate (n + 1) .rdBit) s =
        .next { s with rdPos := BitVec.ofNat 64 (s.arg0.toNat + n + 1), result := (BitVec.ofBool b).setWidth 64,
                       errCode := .ok, errInfo := 0, busy := false }) ∧
    (s.bitLength ≤ s.arg0.toNat + n →
      execAll (.rdInit :: List.replicate (n + 1) .rdBit) s =
        .next { s with rdPos := BitVec.ofNat 64 (max s.arg0.toNat s.bitLength), result := 0,
                       errCode := .outOfRange, errInfo := BitVec.ofNat 64 (max s.arg0.toNat s.bitLength),
                       busy := false })

/-- 41_bitio.md R123, WR_CLEAR. -/
def Obligations.WrClearEmptiesWriter : Prop :=
  decode 0x00000003 = .ok .wrClear ∧ ∀ s : State, exec .wrClear s =
    .next { s with wb := [], result := 0, errCode := .ok, errInfo := 0, busy := false }

/-- 41_bitio.md R124, WR_BIT. -/
def Obligations.WrBitAppendsBit : Prop :=
  decode 0x00000004 = .ok (.wrBit false) ∧ decode 0x00000104 = .ok (.wrBit true) ∧ ∀ (s : State) (b : Bool),
    (s.cfg.wbufCapBits ≤ s.wb.length → exec (.wrBit b) s =
      .next { s with errCode := .capacityExceeded, errInfo := word64 s.wb.length, result := 0, busy := false }) ∧
    (s.wb.length < s.cfg.wbufCapBits → exec (.wrBit b) s =
      .next { s with wb := s.wb ++ [b], result := 0, errCode := .ok, errInfo := 0, busy := false })

/-- 41_bitio.md R125, WR_POS. -/
def Obligations.WrPosReturnsBitOffset : Prop :=
  decode 0x00000005 = .ok .wrPos ∧ ∀ s : State, exec .wrPos s =
    .next { s with result := word64 s.wb.length, errCode := .ok, errInfo := 0, busy := false }

/-- 41_bitio.md R126 and 20_memory.md R65, WR_FINISH: ⌈|WB|/8⌉ bytes, bit k of WB at position pos(k mod 8)
of byte k div 8, every further bit 0; WB is not consumed. -/
def Obligations.WrFinishPacksWriter : Prop :=
  decode 0x00000006 = .ok .wrFinish ∧ ∀ s : State, ∃ bytes : List Byte,
    exec .wrFinish s =
      .next { s with resBytes := bytes, result := word64 bytes.length, errCode := .ok, errInfo := 0, busy := false } ∧
    bytes.length = (s.wb.length + 7) / 8 ∧
    ∀ k, k < 8 * bytes.length →
      (bytes.getD (k / 8) 0).getLsbD (if s.cfg.bitOrder = .lsbFirst then k % 8 else 7 - k % 8) = s.wb.getD k false

/-- 20_memory.md R66: with pack(w) loaded as the data segment, bit_at gives w's bits and then 0. -/
def Obligations.ReaderReadsWhatWriterPacked : Prop :=
  ∀ (s : State) (w : Bits),
    s.dataLen.toNat = (pack s.cfg.bitOrder w).length →
    (∀ j, j < (pack s.cfg.bitOrder w).length → s.byteAt j = (pack s.cfg.bitOrder w)[j]?) →
    (∀ k, k < w.length → bitAt s k = w[k]?) ∧
    (∀ k, w.length ≤ k → k < 8 * s.dataLen.toNat → bitAt s k = some false)

/-- 41_bitio.md R127, its first part: WR_CLEAR, the WR_BITs of a bit string that fits, and WR_FINISH. -/
def Obligations.WriterCollectsBits : Prop :=
  ∀ (s : State) (bits : Bits), bits.length ≤ s.cfg.wbufCapBits →
    execAll (.wrClear :: (bits.map .wrBit ++ [.wrFinish])) s =
      .next { s with wb := bits, resBytes := pack s.cfg.bitOrder bits,
                     result := word64 ((bits.length + 7) / 8), errCode := .ok, errInfo := 0, busy := false }

/-- 43_huffman_build.md R180, FREQ_CLEAR. -/
def Obligations.FreqClearZeroesCounters : Prop :=
  decode 0x00000010 = .ok .freqClear ∧ ∀ s : State, ∃ f, exec .freqClear s =
      .next { s with freq := f, result := 0, errCode := .ok, errInfo := 0, busy := false } ∧
    ∀ u : CodeUnit, ({ s with freq := f } : State).freqOf u = 0

/-- 43_huffman_build.md R181, FREQ_ADD: IllegalOperand at the first 0x0000, CapacityExceeded at the least
unit whose counter would overflow, else every counter grows by the unit's occurrences in the text and the
terminator's by one more. -/
def Obligations.FreqAddCountsText : Prop :=
  decode 0x00000011 = .ok .freqAdd ∧ ∀ (s : State), Rising s.freq →
    (∀ i, s.textOperand[i]? = some terminator → (∀ j, j < i → s.textOperand[j]? ≠ some terminator) →
      exec .freqAdd s =
        .next { s with errCode := .illegalOperand, errInfo := word64 i, result := 0, busy := false }) ∧
    (∀ u : CodeUnit, terminator ∉ s.textOperand →
      2 ^ 32 - 1 < (s.freqOf u).toNat + s.textOperand.count u + (if u = terminator then 1 else 0) →
      (∀ v : CodeUnit, v.toNat < u.toNat →
        (s.freqOf v).toNat + s.textOperand.count v + (if v = terminator then 1 else 0) ≤ 2 ^ 32 - 1) →
      exec .freqAdd s =
        .next { s with errCode := .capacityExceeded, errInfo := u.setWidth 64, result := 0, busy := false }) ∧
    (terminator ∉ s.textOperand →
      (∀ u : CodeUnit,
        (s.freqOf u).toNat + s.textOperand.count u + (if u = terminator then 1 else 0) ≤ 2 ^ 32 - 1) →
      ∃ f, exec .freqAdd s =
          .next { s with freq := f, result := 0, errCode := .ok, errInfo := 0, busy := false } ∧
        ∀ u : CodeUnit, (({ s with freq := f } : State).freqOf u).toNat =
          (s.freqOf u).toNat + s.textOperand.count u + (if u = terminator then 1 else 0))

/-- 43_huffman_build.md R183: the order of two FREQ_ADDs changes nothing. -/
def Obligations.FreqAddsCommute : Prop :=
  ∀ (s s1 s2 s12 s21 : State) (t1 t2 : Text), Rising s.freq →
    execWithText .freqAdd t1 s = .next s1 → s1.errCode = .ok →
    execWithText .freqAdd t2 s1 = .next s12 → s12.errCode = .ok →
    execWithText .freqAdd t2 s = .next s2 → s2.errCode = .ok →
    execWithText .freqAdd t1 s2 = .next s21 →
    s21.errCode = .ok ∧ s12.freq = s21.freq

/-- 43_huffman_build.md R182, R187, R190, R192: TREE_BUILD's errors, and what a successful build writes. -/
def Obligations.TreeBuildWritesTree : Prop :=
  decode 0x00000012 = .ok .treeBuild ∧ ∀ (s : State), s.Wf →
    (s.symbolSet = [] → exec .treeBuild s =
      .next { s with errCode := .emptySymbolSet, errInfo := 0, result := 0, busy := false }) ∧
    (s.symbolSet ≠ [] → s.cfg.nodeCap < max 1 (s.symbolSet.length - 1) → exec .treeBuild s =
      .next { s with errCode := .capacityExceeded,
                     errInfo := BitVec.ofNat 64 (max 1 (s.symbolSet.length - 1)), result := 0, busy := false }) ∧
    (s.symbolSet ≠ [] → max 1 (s.symbolSet.length - 1) ≤ s.cfg.nodeCap →
      ∃ tm ct, exec .treeBuild s =
          .next { s with tm := tm, ct := ct, ctValid := true,
                         nodeCount := BitVec.ofNat 32 (max 1 (s.symbolSet.length - 1)),
                         result := BitVec.ofNat 64 (max 1 (s.symbolSet.length - 1)),
                         errCode := .ok, errInfo := 0, busy := false } ∧
        (∀ i, i < max 1 (s.symbolSet.length - 1) → tableGet tm i ≠ none) ∧
        (∀ i, max 1 (s.symbolSet.length - 1) ≤ i → tableGet tm i = s.nodeAt i) ∧
        (∀ u : CodeUnit, tableGet ct u.toNat ≠ none ↔ u ∈ s.symbolSet))

/-- 43_huffman_build.md R189: one symbol gives the degenerate one-node tree, its code the one bit 0. -/
def Obligations.SingleSymbolBuildsDegenerateTree : Prop :=
  ∀ (s : State) (u : CodeUnit), s.Wf → s.symbolSet = [u] →
    ∃ t, exec .treeBuild s = .next t ∧ t.errCode = .ok ∧ t.nodeCount = 1 ∧
      t.nodeAt 0 = some ⟨leafValue u, leafValue u⟩ ∧ t.codeOf u = some [false] ∧
      ∀ v, v ≠ u → t.codeOf v = none

/-- 43_huffman_build.md R184, R185, R188, R191: with two symbols or more the records and the codes are those
of a tree that the greedy two-lowest merge reaches from the leaf items of S. -/
def Obligations.BuiltTreeIsGreedyMerge : Prop :=
  ∀ (s t : State), s.Wf → 2 ≤ s.symbolSet.length → exec .treeBuild s = .next t → t.errCode = .ok →
    ∃ root, GreedyMerge (leafItemsOf s) s.symbolSet.length root ∧
      (∀ i, i < t.nodeCount.toNat → t.nodeAt i = (flattenRecords root 0)[i]?) ∧
      (∀ u c, t.codeOf u = some c ↔ (u, c) ∈ flattenCodes root [])

/-- 43_huffman_build.md R191: the records and codes the model flattens a tree into are those of the
pseudocode's visit. -/
def Obligations.FlattenFollowsVisit : Prop :=
  ∀ l r : HTree, ∃ recs, visit (.node l r) [] (0, [], []) =
      (0, (HTree.node l r).nodes, recs, flattenCodes (.node l r) []) ∧
    (flattenRecords (.node l r) 0).length = (HTree.node l r).nodes ∧
    ∀ i, i < (HTree.node l r).nodes → tableGet recs i = (flattenRecords (.node l r) 0)[i]?

/-- 43_huffman_build.md R195: in a built tree with two symbols or more every internal child has an index
between its parent's and N, the leaves are exactly the symbols, no code begins another, and no code is
empty. -/
def Obligations.BuiltTreeIsValid : Prop :=
  ∀ (s t : State), s.Wf → 2 ≤ s.symbolSet.length → exec .treeBuild s = .next t → t.errCode = .ok →
    t.nodeCount.toNat = s.symbolSet.length - 1 ∧
    (∀ i, i < t.nodeCount.toNat → ∃ rec, t.nodeAt i = some rec ∧
      ∀ b, (∃ u, u ∈ s.symbolSet ∧ rec.child b = leafValue u) ∨
        (0 ≤ (rec.child b).toInt ∧ i < (rec.child b).toNat ∧ (rec.child b).toNat < t.nodeCount.toNat)) ∧
    (∀ u, u ∈ s.symbolSet → ∃ i rec b, i < t.nodeCount.toNat ∧ t.nodeAt i = some rec ∧ rec.child b = leafValue u ∧
      ∀ j rec' b', j < t.nodeCount.toNat → t.nodeAt j = some rec' → rec'.child b' = leafValue u → j = i ∧ b' = b) ∧
    (∀ u v c d, t.codeOf u = some c → t.codeOf v = some d → c <+: d → u = v) ∧
    (∀ u c, t.codeOf u = some c → c ≠ [])

/-- 43_huffman_build.md R196: the bounds of code lengths. -/
def Obligations.CodeLengthsAreBounded : Prop :=
  ∀ (s t : State), s.Wf → exec .treeBuild s = .next t → t.errCode = .ok →
    (2 ≤ s.symbolSet.length → ∀ u ∈ s.symbolSet, ∃ c, t.codeOf u = some c ∧
      1 ≤ c.length ∧ c.length ≤ s.symbolSet.length - 1 ∧ s.symbolSet.length - 1 ≤ 65535) ∧
    (s.symbolSet.length = 1 → ∀ u ∈ s.symbolSet, ∃ c, t.codeOf u = some c ∧ c.length = 1)

/-- 43_huffman_build.md R194: TREE_BUILD's results are a function of FREQ alone. -/
def Obligations.BuildDependsOnFreqAlone : Prop :=
  ∀ (s s' t t' : State), s'.freq = s.freq →
    exec .treeBuild s = .next t → t.errCode = .ok → exec .treeBuild s' = .next t' → t'.errCode = .ok →
    t'.nodeCount = t.nodeCount ∧ t'.ct = t.ct ∧ ∀ i, i < t.nodeCount.toNat → t'.nodeAt i = t.nodeAt i

/-- 42_huffman_decode.md R154: wherever the pseudocode's loop arrives, its next test decides DECODE's
outcome as written there: exhaustion, a model fault, a leaf out of range, the terminator, a full text, an
index out of range, the cycle guard. Nothing is said of the cursor a model fault leaves (log entry 5). -/
def Obligations.DecodeFollowsPseudocode : Prop :=
  decode 0x00000020 = .ok .decode ∧ ∀ (s : State),
    (s.nodeCount = 0 → exec .decode s =
      .next { s with rdPos := s.arg0.setWidth 64, resText := [], result := 0, errCode := .malformedTree,
                     errInfo := 0, busy := false }) ∧
    ∀ (pos cur depth : Nat) (out : Text), s.nodeCount ≠ 0 →
      DecodeReaches s s.arg0.toNat pos out cur depth →
      (s.bitLength ≤ pos → exec .decode s =
        .next { s with rdPos := BitVec.ofNat 64 pos, resText := [], result := 0, errCode := .malformedStream,
                       errInfo := BitVec.ofNat 64 pos, busy := false }) ∧
      (pos < s.bitLength → bitAt s pos = none → ∃ p, exec .decode s =
        .next { s with rdPos := p, mfault := { s.mfault with uninitRead := true } }) ∧
      ∀ b, pos < s.bitLength → bitAt s pos = some b →
        (s.nodeAt cur = none → ∃ p, exec .decode s =
          .next { s with rdPos := p, mfault := { s.mfault with uninitRead := true } }) ∧
        ∀ rec, s.nodeAt cur = some rec →
          ((rec.child b).toInt < -65536 → exec .decode s =
            .next { s with rdPos := BitVec.ofNat 64 (pos + 1), resText := [], result := 0,
                           errCode := .malformedTree, errInfo := word64 cur, busy := false }) ∧
          (rec.child b = -1 → exec .decode s =
            .next { s with rdPos := BitVec.ofNat 64 (pos + 1), resText := out, result := word64 out.length,
                           errCode := .ok, errInfo := 0, busy := false }) ∧
          (-65536 ≤ (rec.child b).toInt → (rec.child b).toInt < -1 → s.cfg.outCap ≤ out.length → exec .decode s =
            .next { s with rdPos := BitVec.ofNat 64 (pos + 1), resText := [], result := 0,
                           errCode := .capacityExceeded, errInfo := word64 out.length, busy := false }) ∧
          (0 ≤ (rec.child b).toInt → s.nodeCount.toNat ≤ (rec.child b).toNat → exec .decode s =
            .next { s with rdPos := BitVec.ofNat 64 (pos + 1), resText := [], result := 0,
                           errCode := .malformedTree, errInfo := word64 cur, busy := false }) ∧
          (0 ≤ (rec.child b).toInt → (rec.child b).toNat < s.nodeCount.toNat → s.nodeCount.toNat ≤ depth + 1 →
            exec .decode s =
            .next { s with rdPos := BitVec.ofNat 64 (pos + 1), resText := [], result := 0,
                           errCode := .malformedStream, errInfo := BitVec.ofNat 64 (pos + 1), busy := false })

/-- 42_huffman_decode.md R154, R160: when the text and the terminator stand coded in the stream from the
offset to `stop`, DECODE returns the text and leaves the cursor at `stop`. -/
def Obligations.DecodeReturnsSpelledText : Prop :=
  ∀ (s : State) (t : Text) (stop : Nat),
    spells s s.arg0.toNat t stop → t.length ≤ s.cfg.outCap →
    exec .decode s =
      .next { s with rdPos := BitVec.ofNat 64 stop, resText := t, result := word64 t.length,
                     errCode := .ok, errInfo := 0, busy := false }

/-- 42_huffman_decode.md R155: with no model fault recorded DECODE has completed, and has read at most
max(0, 8·D − off) bits; it records none when every record below N and every byte of the segment is written. -/
def Obligations.DecodeAlwaysCompletes : Prop :=
  ∀ s : State, ∃ t, exec .decode s = .next t ∧
    (t.mfault.isEmpty = true → t.busy = false ∧
      s.arg0.toNat ≤ t.rdPos.toNat ∧ t.rdPos.toNat ≤ s.arg0.toNat + (s.bitLength - s.arg0.toNat)) ∧
    ((∀ i, i < s.nodeCount.toNat → s.nodeAt i ≠ none) → (∀ j, j < s.dataLen.toNat → s.byteAt j ≠ none) →
      t.mfault = s.mfault)

/-- 42_huffman_decode.md R157: where the records below N have no cycle (some rank falls along every internal
child), DECODE raises MalformedStream only because the stream is exhausted. -/
def Obligations.CycleGuardNeedsCycle : Prop :=
  ∀ (s t : State) (rank : Nat → Nat),
    (∀ i rec b, i < s.nodeCount.toNat → s.nodeAt i = some rec → 0 ≤ (rec.child b).toInt →
      (rec.child b).toNat < s.nodeCount.toNat → rank (rec.child b).toNat < rank i) →
    exec .decode s = .next t → t.mfault.isEmpty = true → t.errCode = .malformedStream →
    s.bitLength ≤ t.rdPos.toNat

/-- 20_memory.md R79: DECODE's results are a function of TM[0..N), N, DM[0..D), D, the offset, BIT_ORDER and
OUT_CAP, and DECODE writes neither TM nor DM. -/
def Obligations.DecodeDependsOnItsInputs : Prop :=
  ∀ (s s' t : State),
    s'.nodeCount = s.nodeCount → s'.dataLen = s.dataLen → s'.arg0 = s.arg0 →
    s'.cfg.bitOrder = s.cfg.bitOrder → s'.cfg.outCap = s.cfg.outCap →
    (∀ i, i < s.nodeCount.toNat → s'.nodeAt i = s.nodeAt i) →
    (∀ j, j < s.dataLen.toNat → s'.byteAt j = s.byteAt j) →
    s'.mfault.isEmpty = true →
    exec .decode s = .next t → t.mfault.isEmpty = true →
    t.tm = s.tm ∧ t.dm = s.dm ∧
    ∃ t', exec .decode s' = .next t' ∧ t'.mfault.isEmpty = true ∧ t'.errCode = t.errCode ∧
      t'.errInfo = t.errInfo ∧ t'.result = t.result ∧ t'.resText = t.resText ∧ t'.rdPos = t.rdPos

/-- 42_huffman_decode.md R161: a text DECODE returns holds no 0x0000. -/
def Obligations.DecodedTextHasNoTerminator : Prop :=
  ∀ s t : State, exec .decode s = .next t → t.mfault.isEmpty = true → terminator ∉ t.resText

/-- 42_huffman_decode.md R159: while CT_VALID = 1, DECODE never raises MalformedTree, and raises
MalformedStream only because the stream is exhausted. -/
def Obligations.BuiltTreeNeverMalformed : Prop :=
  ∀ s t : State, s.CodesMatch → s.ctValid = true → exec .decode s = .next t → t.mfault.isEmpty = true →
    t.errCode ≠ .malformedTree ∧ (t.errCode = .malformedStream → s.bitLength ≤ t.rdPos.toNat)

/-- 44_huffman_encode.md R222, ENCODE: its errors in their order, and the append of the code string. -/
def Obligations.EncodeAppendsCodeString : Prop :=
  decode 0x00000021 = .ok .encode ∧ ∀ s : State,
    (s.ctValid = false → exec .encode s =
      .next { s with errCode := .noCodeTable, errInfo := 0, result := 0, busy := false }) ∧
    (s.ctValid = true → ∀ i u, s.textOperand[i]? = some u →
      (∀ j v, j < i → s.textOperand[j]? = some v → v ≠ terminator ∧ s.codeOf v ≠ none) →
      (u = terminator → exec .encode s =
        .next { s with errCode := .illegalOperand, errInfo := word64 i, result := 0, busy := false }) ∧
      (u ≠ terminator → s.codeOf u = none → exec .encode s =
        .next { s with errCode := .unknownSymbol, errInfo := word64 i, result := 0, busy := false })) ∧
    (s.ctValid = true → terminator ∉ s.textOperand → ∀ codes : List Bits,
      List.Forall₂ (fun u c => s.codeOf u = some c) (s.textOperand ++ [terminator]) codes →
      (2 ^ 32 - 1 < s.wb.length ∨ s.cfg.wbufCapBits < s.wb.length + codes.flatten.length → exec .encode s =
        .next { s with errCode := .capacityExceeded, errInfo := word64 s.wb.length, result := 0, busy := false }) ∧
      (s.wb.length ≤ 2 ^ 32 - 1 → s.wb.length + codes.flatten.length ≤ s.cfg.wbufCapBits → exec .encode s =
        .next { s with wb := s.wb ++ codes.flatten, result := BitVec.ofNat 64 s.wb.length,
                       errCode := .ok, errInfo := 0, busy := false }))

/-- 44_huffman_encode.md R225: two successful ENCODEs in a row return strictly increasing offsets, equal texts
or not. -/
def Obligations.EncodeOffsetsIncrease : Prop :=
  ∀ (s s1 s2 : State) (t1 t2 : Text), s.Wf →
    execWithText .encode t1 s = .next s1 → s1.errCode = .ok →
    execWithText .encode t2 s1 = .next s2 → s2.errCode = .ok →
    s1.result.toNat < s2.result.toNat

/-- 20_memory.md R80: encoding texts one after another appends their code strings in order; the start offset
of each is the length written before it. -/
def Obligations.EncodingsConcatenate : Prop :=
  ∀ (s s1 s2 : State) (t1 t2 : Text),
    execWithText .encode t1 s = .next s1 → s1.errCode = .ok →
    execWithText .encode t2 s1 = .next s2 → s2.errCode = .ok →
    ∃ c1 c2, codeString s t1 = some c1 ∧ codeString s t2 = some c2 ∧ s2.wb = s.wb ++ c1 ++ c2 ∧
      s1.result = BitVec.ofNat 64 s.wb.length ∧ s2.result = BitVec.ofNat 64 (s.wb.length + c1.length)

/-- 44_huffman_encode.md R224: what ENCODE wrote, packed and loaded as the data segment, DECODE at the returned
offset gives back, with the cursor just past the code string. -/
def Obligations.EncodeDecodeRoundTrip : Prop :=
  ∀ (s s1 s2 : State) (t : Text) (c : Bits), s.Inv →
    execWithText .encode t s = .next s1 → s1.errCode = .ok → codeString s t = some c →
    s2.tm = s1.tm → s2.nodeCount = s1.nodeCount → s2.cfg = s1.cfg →
    s2.dataLen.toNat = (pack s1.cfg.bitOrder s1.wb).length →
    (∀ j, j < (pack s1.cfg.bitOrder s1.wb).length → s2.byteAt j = (pack s1.cfg.bitOrder s1.wb)[j]?) →
    s2.arg0.setWidth 64 = s1.result → t.length ≤ s1.cfg.outCap →
    exec .decode s2 =
      .next { s2 with rdPos := s1.result + BitVec.ofNat 64 c.length, resText := t, result := word64 t.length,
                      errCode := .ok, errInfo := 0, busy := false }

/-- 60_exceptions.md R282: a command raises no error but those its row lists. -/
def Obligations.CommandsRaiseOnlyTheirErrors : Prop :=
  ∀ (i : Instr) (s t : State), exec i s = .next t → t.mfault.isEmpty = true →
    t.errCode = .ok ∨ t.errCode ∈ errorsOf i

/-- 60_exceptions.md R283: an error is precise. DECODE's error-path changes are RD_POS at the point of the raise
and an empty RES_TEXT (42_huffman_decode.md R154). -/
def Obligations.ErrorsArePrecise : Prop :=
  ∀ (i : Instr) (s t : State), exec i s = .next t → t.mfault.isEmpty = true → t.errCode ≠ .ok →
    (i ≠ .decode → t = { s with errCode := t.errCode, errInfo := t.errInfo, result := 0, busy := false }) ∧
    (i = .decode → ∃ pos info, DecodeRaises s s.arg0.toNat pos t.errCode info ∧
      t = { s with errCode := t.errCode, errInfo := word64 info, result := 0, busy := false,
                   rdPos := BitVec.ofNat 64 pos, resText := [] })

/-- 60_exceptions.md R286: an error is not sticky; the outcome of a command does not depend on the last
command's ERR_CODE, ERR_INFO and RESULT. -/
def Obligations.ErrorsAreNotSticky : Prop :=
  ∀ (i : Instr) (s t : State) (e : ErrCode) (info r : Word64),
    exec i s = .next t → t.mfault.isEmpty = true →
    exec i { s with errCode := e, errInfo := info, result := r } = .next t

/-- 60_exceptions.md R284: a command that succeeds leaves ERR_INFO 0 and BUSY 0; 10_state.md R28: one that names
no result leaves RESULT 0. -/
def Obligations.SuccessClearsErrorAndBusy : Prop :=
  ∀ (i : Instr) (s t : State), exec i s = .next t → t.mfault.isEmpty = true → t.errCode = .ok →
    t.errInfo = 0 ∧ t.busy = false ∧
    (i ∈ ([.rdInit, .wrClear, .wrBit false, .wrBit true, .freqClear, .freqAdd] : List Instr) → t.result = 0)

/-- Every command completes in every state whose code table matches its tree, or records a read of memory
never written; the machine stops in none (00_scope.md R13, 70_reset_and_hazards.md R334). -/
def Obligations.EveryCommandCompletes : Prop :=
  ∀ (i : Instr) (s : State), s.CodesMatch → ∃ t, exec i s = .next t ∧
    ((t.busy = false ∧ t.mfault = s.mfault) ∨
      ((i = .rdBit ∨ i = .decode) ∧ t.mfault = { s.mfault with uninitRead := true }))

/-- The frame of every command (10_state.md R27, R30, R31, R34 to R38, R40): the engine writes only what the
rules let that command write, and no byte of data memory. That the latch keeps its contents at completion is the
model's choice (log entry 6); the agenda and hostData are the model's own fields (log entries 2, 3). -/
def Obligations.CommandsWriteOnlyTheirState : Prop :=
  ∀ (i : Instr) (s t : State), exec i s = .next t →
    t.cfg = s.cfg ∧ t.arg0 = s.arg0 ∧ t.dataLen = s.dataLen ∧ t.dm = s.dm ∧ (∀ j, t.byteAt j = s.byteAt j) ∧
    t.textIn = s.textIn ∧ t.pending = s.pending ∧ t.agenda = s.agenda ∧ t.hostData = s.hostData ∧
    (t.rdPos = s.rdPos ∨ i = .rdInit ∨ i = .rdBit ∨ i = .decode) ∧
    (t.wb = s.wb ∨ i = .wrClear ∨ i = .wrBit false ∨ i = .wrBit true ∨ i = .encode) ∧
    (t.freq = s.freq ∨ i = .freqClear ∨ i = .freqAdd) ∧
    ((t.tm = s.tm ∧ t.nodeCount = s.nodeCount ∧ t.ct = s.ct ∧ t.ctValid = s.ctValid) ∨ i = .treeBuild) ∧
    (t.resText = s.resText ∨ i = .decode) ∧ (t.resBytes = s.resBytes ∨ i = .wrFinish)

/-- 10_state.md R25: every field of the word a read of STATUS returns; 60_exceptions.md R280: the ten numbers
ERR_CODE takes. -/
def Obligations.StatusWordFields : Prop :=
  ErrCode.code .ok = 0 ∧ ErrCode.code .outOfRange = 1 ∧ ErrCode.code .malformedTree = 2 ∧
  ErrCode.code .malformedStream = 3 ∧ ErrCode.code .emptySymbolSet = 4 ∧ ErrCode.code .illegalCommand = 5 ∧
  ErrCode.code .illegalOperand = 6 ∧ ErrCode.code .capacityExceeded = 7 ∧ ErrCode.code .noCodeTable = 8 ∧
  ErrCode.code .unknownSymbol = 9 ∧
  ∀ s : State,
    s.statusWord.getLsbD 0 = s.busy ∧ s.statusWord.extractLsb' 1 3 = 0 ∧
    s.statusWord.extractLsb' 4 4 = s.errCode.code ∧ s.statusWord.getLsbD 8 = s.ctValid ∧
    s.statusWord.extractLsb' 9 23 = 0

/-- 10_state.md R23, R25 to R32: what a read of each readable register returns while BUSY = 0, and that nothing
of the block changes; STATUS may be read while BUSY = 1 too (R33). -/
def Obligations.HostReadsRegisters : Prop :=
  ∀ s : State,
    (s.mfault.isEmpty = true → hostStep (.readReg 4 0x04) s = .next { s with hostData := .word s.statusWord }) ∧
    (s.Idle →
      hostStep (.readReg 4 0x08) s = .next { s with hostData := .word (s.errInfo.extractLsb' 0 32) } ∧
      hostStep (.readReg 4 0x0C) s = .next { s with hostData := .word (s.errInfo.extractLsb' 32 32) } ∧
      hostStep (.readReg 4 0x10) s = .next { s with hostData := .word s.arg0 } ∧
      hostStep (.readReg 4 0x14) s = .next { s with hostData := .word s.nodeCount } ∧
      hostStep (.readReg 4 0x18) s = .next { s with hostData := .word s.dataLen } ∧
      hostStep (.readReg 4 0x20) s = .next { s with hostData := .word (s.result.extractLsb' 0 32) } ∧
      hostStep (.readReg 4 0x24) s = .next { s with hostData := .word (s.result.extractLsb' 32 32) } ∧
      hostStep (.readReg 4 0x28) s = .next { s with hostData := .word (s.rdPos.extractLsb' 0 32) } ∧
      hostStep (.readReg 4 0x2C) s = .next { s with hostData := .word (s.rdPos.extractLsb' 32 32) } ∧
      hostStep (.readReg 4 0x30) s = .next { s with hostData := .word ((word64 s.wb.length).extractLsb' 0 32) } ∧
      hostStep (.readReg 4 0x34) s = .next { s with hostData := .word ((word64 s.wb.length).extractLsb' 32 32) })

/-- 10_state.md R24, R27, R29, R30: the host's writes of CMD, ARG0, NODE_COUNT and DATA_LEN while BUSY = 0. -/
def Obligations.HostWritesRegisters : Prop :=
  ∀ (s : State) (v : Word32), s.Idle →
    hostStep (.writeReg 4 0x00 v) s = .next { s with busy := true, pending := some ⟨v, s.textIn⟩ } ∧
    hostStep (.writeReg 4 0x10 v) s = .next { s with arg0 := v } ∧
    (v.toNat ≤ s.cfg.nodeCap →
      hostStep (.writeReg 4 0x14 v) s = .next { s with nodeCount := v, ctValid := false }) ∧
    (v.toNat ≤ s.cfg.dataCap → hostStep (.writeReg 4 0x18 v) s = .next { s with dataLen := v })

/-- 10_state.md R34, R35, R40, R41: the host's accesses to the ports while BUSY = 0, at indices below the
capacities. What a read returns stands in hostData, the model's own field (log entry 3). -/
def Obligations.HostUsesPorts : Prop :=
  ∀ (s : State), s.Idle →
    (∀ i r, i < s.cfg.nodeCap → ∃ tm, hostStep (.writeNode i r) s = .next { s with tm := tm, ctValid := false } ∧
      tableGet tm i = some r ∧ ∀ j, j ≠ i → tableGet tm j = s.nodeAt j) ∧
    (∀ i r, i < s.cfg.nodeCap → s.nodeAt i = some r →
      hostStep (.readNode i) s = .next { s with hostData := .node r }) ∧
    (∀ i, i < s.cfg.nodeCap → s.nodeAt i = none →
      hostStep (.readNode i) s = .next { s with mfault := { s.mfault with uninitRead := true } }) ∧
    (∀ j b, j < s.cfg.dataCap → ∃ dm : Memory, hostStep (.writeData j b) s = .next { s with dm := dm } ∧
      dm.read j = some b ∧ ∀ k, k ≠ j → dm.read k = s.byteAt k) ∧
    (∀ j b, j < s.cfg.dataCap → s.byteAt j = some b →
      hostStep (.readData j) s = .next { s with hostData := .byte b }) ∧
    (∀ j, j < s.cfg.dataCap → s.byteAt j = none →
      hostStep (.readData j) s = .next { s with mfault := { s.mfault with uninitRead := true } }) ∧
    (∀ t, hostStep (.writeText t) s = .next { s with textIn := t }) ∧
    hostStep .readResText s = .next { s with hostData := .text s.resText } ∧
    hostStep .readResBytes s = .next { s with hostData := .bytes s.resBytes }

/-- 60_exceptions.md R290, HostRange: while BUSY = 0, an access at a wrong width, at a reserved or unaligned
offset, to a register that does not allow it, above a capacity or at an index beyond one records HostRange
and has no other effect. That an offset past the window's 64 bytes is one of these is the model's reading
(log entry 13). -/
def Obligations.HostRangeIsRecorded : Prop :=
  ∀ (s : State) (a : HostAccess), s.Idle →
    ((∃ width offset, a = .readReg width offset ∧ (width ≠ 4 ∨ offset ∉
        [0x04, 0x08, 0x0C, 0x10, 0x14, 0x18, 0x20, 0x24, 0x28, 0x2C, 0x30, 0x34])) ∨
      (∃ width offset v, a = .writeReg width offset v ∧ (width ≠ 4 ∨ offset ∉ [0x00, 0x10, 0x14, 0x18] ∨
        (offset = 0x14 ∧ s.cfg.nodeCap < v.toNat) ∨ (offset = 0x18 ∧ s.cfg.dataCap < v.toNat))) ∨
      (∃ i, s.cfg.nodeCap ≤ i ∧ (a = .readNode i ∨ ∃ r, a = .writeNode i r)) ∨
      (∃ j, s.cfg.dataCap ≤ j ∧ (a = .readData j ∨ ∃ b, a = .writeData j b))) →
    hostStep a s = .next { s with mfault := { s.mfault with hostRange := true } }

/-- 10_state.md R33, 60_exceptions.md R289: while BUSY = 1 every access but a read of STATUS records HostHazard
and has no other effect. -/
def Obligations.BusyAccessIsHazard : Prop :=
  ∀ (s : State) (a : HostAccess), s.mfault.isEmpty = true → s.busy = true → a ≠ .readReg 4 0x04 →
    hostStep a s = .next { s with mfault := { s.mfault with hostHazard := true } }

/-- 60_exceptions.md R291: once MFAULT is non-empty no agent has a further step. -/
def Obligations.RecordedFaultStopsMachine : Prop :=
  ∀ s : State, s.mfault ≠ FaultSet.empty → step s = .fault (.modelFault s.mfault)

/-- 20_memory.md R72: no read has a side effect; a read of the host changes at most what it is answered, or
records a model fault. -/
def Obligations.HostReadsHaveNoSideEffect : Prop :=
  ∀ (s : State) (a : HostAccess), s.mfault.isEmpty = true →
    ((∃ width offset, a = .readReg width offset) ∨ (∃ i, a = .readNode i) ∨ (∃ j, a = .readData j) ∨
      a = .readResText ∨ a = .readResBytes) →
    ∃ t, hostStep a s = .next t ∧ t = { s with hostData := t.hostData, mfault := t.mfault }

/-- 20_memory.md R72, R78, 10_state.md R29, R34: of all the host's accesses only writes of TM and NODE_COUNT touch
CT_VALID, TM and N; they clear CT_VALID, even when the value written is the old one, unless they fault, and then
they change none of these; no access changes CT. -/
def Obligations.HostClearsCodeTableOnTreeWrites : Prop :=
  ∀ (s t : State) (a : HostAccess), hostStep a s = .next t → t.ct = s.ct ∧
    (a.writesTree = true ∧ t.mfault.isEmpty = true → t.ctValid = false) ∧
    (¬ (a.writesTree = true ∧ t.mfault.isEmpty = true) →
      t.ctValid = s.ctValid ∧ t.tm = s.tm ∧ t.nodeCount = s.nodeCount)

/-- 70_reset_and_hazards.md R320, 10_state.md R45: the state after reset. -/
def Obligations.ResetState : Prop :=
  State.reset.statusWord = 0 ∧ State.reset.busy = false ∧ State.reset.errCode = .ok ∧ State.reset.ctValid = false ∧
  State.reset.errInfo = 0 ∧ State.reset.arg0 = 0 ∧ State.reset.result = 0 ∧ State.reset.nodeCount = 0 ∧
  State.reset.dataLen = 0 ∧ State.reset.rdPos = 0 ∧ State.reset.wrPos = 0 ∧ State.reset.wb = [] ∧
  (∀ u, State.reset.freqOf u = 0) ∧ (∀ u, State.reset.codeOf u = none) ∧ (∀ i, State.reset.nodeAt i = none) ∧
  (∀ j, State.reset.byteAt j = none) ∧ State.reset.resText = [] ∧ State.reset.resBytes = [] ∧
  State.reset.textIn = [] ∧ State.reset.pending = none ∧ State.reset.mfault = FaultSet.empty ∧
  (∀ i, i < State.reset.cfg.nodeCap → hostStep (.readNode i) State.reset =
    .next { State.reset with mfault := { FaultSet.empty with uninitRead := true } }) ∧
  (∀ j, j < State.reset.cfg.dataCap → hostStep (.readData j) State.reset =
    .next { State.reset with mfault := { FaultSet.empty with uninitRead := true } })

/-- The invariant holds after reset. -/
def Obligations.ResetMeetsInvariant : Prop := State.reset.Inv

/-- Every step keeps the machine's data in its bounds and its canonical form (10_state.md R29 to R38). That RD_POS
keeps its bound in a state a model fault leaves is the model's choice (log entry 5). -/
def Obligations.StepKeepsWellFormed : Prop :=
  ∀ s t : State, s.Wf → step s = .next t → t.Wf

/-- 10_state.md R39: every step keeps the code table matching the tree while CT_VALID = 1. -/
def Obligations.StepKeepsCodesMatching : Prop :=
  ∀ s t : State, s.Inv → step s = .next t → t.CodesMatch

/-- 10_state.md R46: no step changes a parameter. R43, 60_exceptions.md R291: a step is taken only while no model
fault is recorded, and after a step that records one no step is taken, so none is ever cleared. -/
def Obligations.StepKeepsParametersAndFaults : Prop :=
  ∀ s t : State, step s = .next t → t.cfg = s.cfg ∧ s.mfault = FaultSet.empty ∧
    (t.mfault ≠ FaultSet.empty → ∀ r, step t ≠ .next r)

/-- 45_host_container.md R249, R257, R262: PARSE reads back the document whose file is emitted. -/
def Obligations.ParseReadsEmittedDocument : Prop :=
  ∀ d : Doc, UniqueIds d.male → UniqueIds d.female →
    d.male.length < 2 ^ 32 → d.female.length < 2 ^ 32 → d.nodes.length < 2 ^ 32 → d.data.length < 2 ^ 32 →
    parse (emitDoc d) = .ok d

/-- 45_host_container.md R249, R251: the errors of PARSE in their order. -/
def Obligations.ParseReportsFirstError : Prop :=
  ∀ bytes : List Byte,
    (bytes.length < 4 → parse bytes = .error .truncatedFile) ∧
    (4 ≤ bytes.length → le32At bytes 0 ≠ 0x006B6C54 → parse bytes = .error .invalidMagic) ∧
    (4 ≤ bytes.length → le32At bytes 0 = 0x006B6C54 →
      (bytes.length < 28 ∨ bytes.length < 28 + 8 * (le32At bytes 12).toNat + 8 * (le32At bytes 16).toNat +
        8 * (le32At bytes 20).toNat + (le32At bytes 24).toNat) → parse bytes = .error .truncatedFile) ∧
    (28 ≤ bytes.length → le32At bytes 0 = 0x006B6C54 →
      28 + 8 * (le32At bytes 12).toNat + 8 * (le32At bytes 16).toNat + 8 * (le32At bytes 20).toNat +
        (le32At bytes 24).toNat < bytes.length → parse bytes = .error .trailingData) ∧
    (28 ≤ bytes.length → le32At bytes 0 = 0x006B6C54 →
      28 + 8 * (le32At bytes 12).toNat + 8 * (le32At bytes 16).toNat + 8 * (le32At bytes 20).toNat +
        (le32At bytes 24).toNat = bytes.length →
      (¬ (UniqueIds (entriesAt bytes 28 (le32At bytes 12).toNat) ∧
          UniqueIds (entriesAt bytes (28 + 8 * (le32At bytes 12).toNat) (le32At bytes 16).toNat)) →
        parse bytes = .error .duplicateId) ∧
      (UniqueIds (entriesAt bytes 28 (le32At bytes 12).toNat) →
        UniqueIds (entriesAt bytes (28 + 8 * (le32At bytes 12).toNat) (le32At bytes 16).toNat) →
        ∃ d, parse bytes = .ok d))

/-- 45_host_container.md R246, R247: insertion and lookup in an entry table. -/
def Obligations.EntryTableInsertAndLookup : Prop :=
  ∀ (tbl : List Entry) (e : Entry) (id : Word32), UniqueIds tbl →
    ((∃ x ∈ tbl, x.id = e.id) → insertEntry tbl e = .error .duplicateId) ∧
    ((∀ x ∈ tbl, x.id ≠ e.id) → insertEntry tbl e = .ok (tbl ++ [e]) ∧ UniqueIds (tbl ++ [e]) ∧
      lookupEntry (tbl ++ [e]) e.id = .ok e.offset) ∧
    (∀ x ∈ tbl, x.id = id → lookupEntry tbl id = .ok x.offset) ∧
    ((∀ x ∈ tbl, x.id ≠ id) → lookupEntry tbl id = .error .notFound)

/-- 45_host_container.md R256: SERIALIZE's checks come first, in their order, and issue no command. -/
def Obligations.SerializeChecksFirst : Prop :=
  ∀ (version minVersion : Word32) (male female : List (Word32 × Text)) (s : State),
    (¬ (male.map Prod.fst).Nodup ∨ ¬ (female.map Prod.fst).Nodup →
      serialize version minVersion male female s = .next (s, .error (.host .duplicateId))) ∧
    ((male.map Prod.fst).Nodup → (female.map Prod.fst).Nodup → (∃ p ∈ male ++ female, terminator ∈ p.2) →
      serialize version minVersion male female s = .next (s, .error (.arch .illegalOperand))) ∧
    (male = [] → female = [] →
      serialize version minVersion male female s = .next (s, .error (.arch .emptySymbolSet))) ∧
    ((male.map Prod.fst).Nodup → (female.map Prod.fst).Nodup → (∀ p ∈ male ++ female, terminator ∉ p.2) →
      2 ^ 32 - 1 < male.length ∨ 2 ^ 32 - 1 < female.length →
      serialize version minVersion male female s = .next (s, .error (.arch .capacityExceeded)))

/-- 45_host_container.md R261. First part: with the lists as the rule asks, the counters of 43_huffman_build.md R181
wide enough and room for the records, BUILD and WR_CLEAR end without an error, and with room for the code bits
and every start offset in 32 bits SERIALIZE returns bytes. Second part: a file SERIALIZE returns is parsed back,
and after LOAD_DOC every pair decodes to its text while an id outside a table is not found. That the host's
procedures poll STATUS once, after the engine's turn, is the model's choice (log entry 19). -/
def Obligations.SerializedFileRoundTrips : Prop :=
  (∀ (version minVersion : Word32) (male female : List (Word32 × Text)) (s : State),
    s.Inv → s.Idle → (male.map Prod.fst).Nodup → (female.map Prod.fst).Nodup →
    (∀ p ∈ male ++ female, terminator ∉ p.2) → male ++ female ≠ [] →
    male.length ≤ 2 ^ 32 - 1 → female.length ≤ 2 ^ 32 - 1 →
    (∀ u, countOf ((male ++ female).map Prod.snd) u ≤ 2 ^ 32 - 1) →
    max 1 ((unitsOf ((male ++ female).map Prod.snd)).length - 1) ≤ s.cfg.nodeCap →
    ∃ b, runLines (buildLines ((male ++ female).map Prod.snd) ++ [commandLine .wrClear]) none s = .next (b, none) ∧
      (codeBits b ((male ++ female).map Prod.snd) ≤ s.cfg.wbufCapBits →
        (∀ i, i < (male ++ female).length →
          codeBits b (((male ++ female).map Prod.snd).take i) ≤ 2 ^ 32 - 1) →
        ∃ s1 bytes, serialize version minVersion male female s = .next (s1, .ok bytes))) ∧
  (∀ (version minVersion : Word32) (male female : List (Word32 × Text)) (s s1 : State) (bytes : List Byte),
    s.Inv → s.Idle → serialize version minVersion male female s = .next (s1, .ok bytes) →
    (∀ p ∈ male ++ female, p.2.length ≤ s.cfg.outCap) →
    ∃ d, parse bytes = .ok d ∧ d.version = version ∧ d.minVersion = minVersion ∧
      d.male.map Entry.id = male.map Prod.fst ∧ d.female.map Entry.id = female.map Prod.fst ∧
      (d.data.length ≤ s.cfg.dataCap → ∃ s2, loadDoc d s1 = .next (s2, .ok ()) ∧
        (∀ p ∈ male, ∃ s3, decodeEntry d p.1 .male s2 = .next (s3, .ok p.2)) ∧
        (∀ p ∈ female, ∃ s3, decodeEntry d p.1 .female s2 = .next (s3, .ok p.2)) ∧
        (∀ id, id ∉ male.map Prod.fst → decodeEntry d id .male s2 = .next (s2, .error (.host .notFound))) ∧
        (∀ id, id ∉ female.map Prod.fst → decodeEntry d id .female s2 = .next (s2, .error (.host .notFound)))))
end

