-- ==== Sys2Proof/Laws/Bits.lean ====
section
/-! SUPPORT. The laws of bit order, bit_at, pack and 64-bit results. -/

namespace Sys2Proof.Machine

open Sys2Proof

theorem word64_eq {n : Nat} (h : n < 2 ^ 64) : word64 n = BitVec.ofNat 64 n := if_pos h

theorem toNat_word64 {n : Nat} (h : n < 2 ^ 64) : (word64 n).toNat = n := by
  rw [word64_eq h, BitVec.toNat_ofNat, Nat.mod_eq_of_lt h]

theorem bitPos_lt (order : BitOrder) {i : Nat} (h : i < 8) : bitPos order i < 8 := by
  cases order <;> simp only [bitPos] <;> omega

theorem bitPos_inj (order : BitOrder) {i j : Nat} (hi : i < 8) (hj : j < 8)
    (h : bitPos order i = bitPos order j) : i = j := by
  cases order <;> simp only [bitPos] at h <;> omega

theorem bitPos_eq (order : BitOrder) (i : Nat) :
    bitPos order i = if order = .lsbFirst then i else 7 - i := by
  cases order <;> rfl

@[simp] theorem length_pack (order : BitOrder) (w : Bits) : (pack order w).length = (w.length + 7) / 8 := by
  simp [pack]

/-- The bit of `packByte` at the place of the i-th bit taken is bit `8·j + i` of the bit string, and 0 past
its end (20_memory.md R65). -/
theorem getLsbD_packByte (order : BitOrder) (w : Bits) (j : Nat) {i : Nat} (hi : i < 8) :
    (packByte order w j).getLsbD (bitPos order i) = w.getD (8 * j + i) false := by
  have key : ∀ (l : List Nat) (b : Byte), (∀ k ∈ l, k < 8) → l.Nodup →
      (l.foldl (fun b i => if w.getD (8 * j + i) false then b ||| ((1 : Byte) <<< bitPos order i) else b) b).getLsbD
        (bitPos order i) = (b.getLsbD (bitPos order i) || (decide (i ∈ l) && w.getD (8 * j + i) false)) := by
    intro l
    induction l with
    | nil => simp
    | cons k l ih =>
      intro b hl hn
      have hk : k < 8 := hl k (List.mem_cons_self ..)
      have hp := bitPos_lt order hi
      rw [List.foldl_cons, ih _ (fun x hx => hl x (List.mem_cons_of_mem _ hx)) (List.nodup_cons.1 hn).2]
      by_cases hik : i = k
      · subst hik
        have : i ∉ l := (List.nodup_cons.1 hn).1
        by_cases hw : w.getD (8 * j + i) false = true
        · simp only [hw, if_true]; simp [hp]
        · simp only [hw]; simp
      · have hne : bitPos order i ≠ bitPos order k := fun h => hik (bitPos_inj order hi hk h)
        have hone : ((1 : Byte) <<< bitPos order k).getLsbD (bitPos order i) = false := by
          have h01 : (1 : Byte).getLsbD (bitPos order i - bitPos order k) = decide (bitPos order i - bitPos order k = 0) := by
            cases h : bitPos order i - bitPos order k with
            | zero => rfl
            | succ n => simp
          rw [BitVec.getLsbD_shiftLeft, h01]
          simp only [hp, decide_true, Bool.true_and]
          by_cases h : bitPos order i < bitPos order k
          · simp [h]
          · have : bitPos order i - bitPos order k ≠ 0 := by omega
            simp [this]
        split
        · rw [BitVec.getLsbD_or, hone]; simp [hik]
        · simp [hik]
  have := key (List.range 8) 0 (by simp) List.nodup_range
  rw [packByte, this]; simp [hi]

end Sys2Proof.Machine
end

