-- ==== Sys2Proof/Laws/Codec.lean ====
section
/-! SUPPORT. The laws of leaf values and what DECODE's walk can do. -/

namespace Sys2Proof.Machine

open Sys2Proof

theorem toInt_leafValue (u : CodeUnit) : (leafValue u).toInt = -(u.toNat : Int) - 1 := by
  have hu := u.isLt
  simp only [leafValue, BitVec.toInt_sub, BitVec.toInt_neg, BitVec.toInt_setWidth]
  have h1 : (1 : Word32).toInt = 1 := by decide
  simp only [h1, Int.bmod_def, Nat.reducePow]
  omega

theorem leafValue_neg (u : CodeUnit) : (leafValue u).toInt < 0 := by
  rw [toInt_leafValue]; omega

theorem leafValue_inj {u v : CodeUnit} (h : leafValue u = leafValue v) : u = v := by
  have := congrArg BitVec.toInt h
  rw [toInt_leafValue, toInt_leafValue] at this
  exact BitVec.eq_of_toNat_eq (by omega)

/-- The decoder reads back the unit of a leaf's value (42_huffman_decode.md R150). -/
@[simp] theorem leafUnit_leafValue (u : CodeUnit) : leafUnit (leafValue u) = some u := by
  have hu := u.isLt
  rw [leafUnit, if_neg (by rw [toInt_leafValue]; omega)]
  congr 1
  apply BitVec.eq_of_toNat_eq
  simp only [leafValue, BitVec.toNat_setWidth, BitVec.toNat_sub, BitVec.toNat_neg]
  omega

/-- A child that reads as the unit `u` is `u`'s leaf value. -/
theorem eq_leafValue_of_leafUnit {v : Word32} {u : CodeUnit} (hv : v.toInt < 0) (h : leafUnit v = some u) :
    v = leafValue u := by
  rw [leafUnit] at h
  split at h
  · simp at h
  next hr =>
    simp only [Option.some.injEq] at h
    subst h
    apply BitVec.eq_of_toInt_eq
    rw [toInt_leafValue, BitVec.toNat_setWidth, BitVec.toNat_sub, BitVec.toNat_neg]
    have hn := v.isLt
    rw [BitVec.toInt_eq_toNat_cond] at hv hr ⊢
    have : (1 : Word32).toNat = 1 := rfl
    rw [this]
    split at hv <;> split at hr <;> split <;> omega

/-- The cursor where a walk ends. -/
def Walk.cursor : Walk → Nat
  | .returned pos _ => pos
  | .raised pos _ _ => pos
  | .uninit pos => pos

/-- What one turn of DECODE's loop can do (42_huffman_decode.md R154): end the walk with the cursor where it
is or one further, or go on one bit further at the root after a unit, or at a child below N. -/
theorem decodeLoop_turn (s : State) (left pos : Nat) (out : Text) (cur depth : Nat) :
    (∃ w, decodeLoop s (left + 1) pos out cur depth = w ∧
      (w = .uninit pos ∨ w = .uninit (pos + 1) ∨ w = .raised (pos + 1) .malformedTree cur ∨
       w = .returned (pos + 1) out ∨ w = .raised (pos + 1) .capacityExceeded out.length ∨
       w = .raised (pos + 1) .malformedStream (pos + 1))) ∨
    (∃ u, u ≠ terminator ∧ out.length < s.cfg.outCap ∧
      decodeLoop s (left + 1) pos out cur depth = decodeLoop s left (pos + 1) (out ++ [u]) 0 0) ∨
    (∃ v, v < s.nodeCount.toNat ∧ depth + 1 < s.nodeCount.toNat ∧
      decodeLoop s (left + 1) pos out cur depth = decodeLoop s left (pos + 1) out v (depth + 1)) := by
  rw [decodeLoop]
  cases bitAt s pos with
  | none => exact .inl ⟨_, rfl, by simp⟩
  | some b =>
    cases s.nodeAt cur with
    | none => exact .inl ⟨_, rfl, by simp⟩
    | some rec =>
      dsimp only
      by_cases hv : (rec.child b).toInt < 0
      · rw [if_pos hv]
        cases leafUnit (rec.child b) with
        | none => exact .inl ⟨_, rfl, by simp⟩
        | some u =>
          dsimp only
          by_cases hu : u = terminator
          · rw [if_pos hu]; exact .inl ⟨_, rfl, by simp⟩
          · rw [if_neg hu]
            by_cases hc : s.cfg.outCap ≤ out.length
            · rw [if_pos hc]; exact .inl ⟨_, rfl, by simp⟩
            · rw [if_neg hc]; exact .inr (.inl ⟨u, hu, by omega, rfl⟩)
      · rw [if_neg hv]
        by_cases hn : s.nodeCount.toNat ≤ (rec.child b).toNat
        · rw [if_pos hn]; exact .inl ⟨_, rfl, by simp⟩
        · rw [if_neg hn]
          by_cases hd : s.nodeCount.toNat ≤ depth + 1
          · rw [if_pos hd]; exact .inl ⟨_, rfl, by simp⟩
          · rw [if_neg hd]; exact .inr (.inr ⟨_, by omega, by omega, rfl⟩)

/-- The loop never goes back and never reads past the bits left (42_huffman_decode.md R155). -/
theorem decodeLoop_cursor (s : State) (left pos : Nat) (out : Text) (cur depth : Nat) :
    pos ≤ (decodeLoop s left pos out cur depth).cursor ∧
    (decodeLoop s left pos out cur depth).cursor ≤ pos + left := by
  induction left generalizing pos out cur depth with
  | zero => simp [decodeLoop, Walk.cursor]
  | succ left ih =>
    rcases decodeLoop_turn s left pos out cur depth with ⟨w, h, hw⟩ | ⟨u, -, -, h⟩ | ⟨v, -, -, h⟩
    · rw [h]
      rcases hw with rfl | rfl | rfl | rfl | rfl | rfl <;> simp only [Walk.cursor] <;> omega
    · rw [h]; have := ih (pos + 1) (out ++ [u]) 0 0; omega
    · rw [h]; have := ih (pos + 1) out v (depth + 1); omega

/-- The errors the loop raises (60_exceptions.md R282). -/
theorem decodeLoop_errors (s : State) (left pos : Nat) (out : Text) (cur depth : Nat) {p : Nat} {e : ErrCode}
    {info : Nat} (h : decodeLoop s left pos out cur depth = .raised p e info) :
    e = .malformedTree ∨ e = .malformedStream ∨ e = .capacityExceeded := by
  induction left generalizing pos out cur depth with
  | zero => simp only [decodeLoop, Walk.raised.injEq] at h; simp [← h.2.1]
  | succ left ih =>
    rcases decodeLoop_turn s left pos out cur depth with ⟨w, h', hw⟩ | ⟨u, -, -, h'⟩ | ⟨v, -, -, h'⟩
    · rw [h'] at h
      subst h
      simp only [reduceCtorEq, Walk.raised.injEq, false_or] at hw
      rcases hw with hw | hw | hw <;> simp [hw.2.1]
    · exact ih _ _ _ _ (h' ▸ h)
    · exact ih _ _ _ _ (h' ▸ h)

/-- What DECODE can do: it returns, raises or records a model fault, and the cursor ends between the offset
and the end of the stream. -/
theorem execDecode_cases (s : State) :
    ∃ pos, s.arg0.toNat ≤ pos ∧ pos ≤ s.arg0.toNat + (s.bitLength - s.arg0.toNat) ∧
      ((∃ out, execDecode s =
          .next ({ s with rdPos := BitVec.ofNat 64 pos, resText := out }.complete (word64 out.length))) ∨
       (∃ e info, (e = .malformedTree ∨ e = .malformedStream ∨ e = .capacityExceeded) ∧ execDecode s =
          .next ({ s with rdPos := BitVec.ofNat 64 pos, resText := [] }.raise e (word64 info))) ∨
       execDecode s = .next ({ s with rdPos := BitVec.ofNat 64 pos }.recordFault .uninitRead)) := by
  have hoff : s.offOperand.toNat = s.arg0.toNat := by
    simp only [State.offOperand, BitVec.toNat_setWidth]; have := s.arg0.isLt; omega
  rw [execDecode, hoff]
  by_cases hn : s.nodeCount = 0
  · exact ⟨_, le_rfl, by omega, .inr (.inl ⟨.malformedTree, 0, .inl rfl, by simp [decodeWalk, hn]⟩)⟩
  · have hp := decodeLoop_cursor s (s.bitLength - s.arg0.toNat) s.arg0.toNat [] 0 0
    have he := fun p e info => decodeLoop_errors s (s.bitLength - s.arg0.toNat) s.arg0.toNat [] 0 0
      (p := p) (e := e) (info := info)
    simp only [decodeWalk, hn, if_false]
    cases hw : decodeLoop s (s.bitLength - s.arg0.toNat) s.arg0.toNat [] 0 0 with
    | returned p out => rw [hw] at hp; exact ⟨p, hp.1, hp.2, .inl ⟨out, rfl⟩⟩
    | raised p e info => rw [hw] at hp; exact ⟨p, hp.1, hp.2, .inr (.inl ⟨e, info, he p e info hw, rfl⟩)⟩
    | uninit p => rw [hw] at hp; exact ⟨p, hp.1, hp.2, .inr (.inr rfl)⟩

end Sys2Proof.Machine
end

