-- ==== Sys2Proof/Laws/Table.lean ====
section
/-! SUPPORT. The laws of tables and of memory: a read after a write, and that every write keeps the
canonical form and the bound on indices. -/

namespace Sys2Proof.Machine

open Sys2Proof

variable {α β : Type}

@[simp] theorem tableGet_nil (i : Nat) : tableGet ([] : Table α) i = none := rfl

theorem tableGet_cons (e : Nat × α) (t : Table α) (i : Nat) :
    tableGet (e :: t) i = if e.1 = i then some e.2 else tableGet t i := rfl

theorem tableGet_tableSet (t : Table α) (i j : Nat) (v : α) :
    tableGet (tableSet t i v) j = if i = j then some v else tableGet t j := by
  induction t with
  | nil => simp [tableSet, tableGet_cons]
  | cons e t ih =>
    simp only [tableSet]
    split
    · simp [tableGet_cons]
    · split
      next h => subst h; by_cases hj : e.1 = j <;> simp [tableGet_cons, hj]
      next h1 h2 =>
        simp only [tableGet_cons, ih]
        by_cases hj : i = j
        · subst hj; simp [h2]
        · simp [hj]

@[simp] theorem tableGet_tableSet_self (t : Table α) (i : Nat) (v : α) :
    tableGet (tableSet t i v) i = some v := by
  simp [tableGet_tableSet]

theorem tableGet_tableSet_ne (t : Table α) {i j : Nat} (v : α) (h : i ≠ j) :
    tableGet (tableSet t i v) j = tableGet t j := by
  simp [tableGet_tableSet, h]

theorem mem_tableSet {t : Table α} {i : Nat} {v : α} {e : Nat × α} (h : e ∈ tableSet t i v) :
    e = (i, v) ∨ e ∈ t := by
  induction t with
  | nil => simpa [tableSet] using h
  | cons x t ih =>
    simp only [tableSet] at h
    split at h
    · simpa using h
    · split at h
      · rcases List.mem_cons.1 h with h | h
        · exact .inl h
        · exact .inr (List.mem_cons_of_mem _ h)
      · rcases List.mem_cons.1 h with h | h
        · exact .inr (by simp [h])
        · exact (ih h).imp id (List.mem_cons_of_mem _)

theorem mem_tableSet_self (t : Table α) (i : Nat) (v : α) : (i, v) ∈ tableSet t i v := by
  induction t with
  | nil => simp [tableSet]
  | cons x t ih =>
    simp only [tableSet]
    split
    · simp
    · split
      · simp
      · exact List.mem_cons_of_mem _ ih

theorem rising_cons {e : Nat × α} {t : Table α} :
    Rising (e :: t) ↔ (∀ x ∈ t, e.1 < x.1) ∧ Rising t := by
  simp only [Rising, List.map_cons, List.pairwise_cons, List.mem_map, forall_exists_index, and_imp,
    forall_apply_eq_imp_iff₂]

theorem rising_tableSet {t : Table α} (i : Nat) (v : α) (h : Rising t) : Rising (tableSet t i v) := by
  induction t with
  | nil => simp [tableSet, Rising]
  | cons x t ih =>
    obtain ⟨hx, ht⟩ := rising_cons.1 h
    simp only [tableSet]
    split
    next hi =>
      refine rising_cons.2 ⟨fun y hy => ?_, h⟩
      rcases List.mem_cons.1 hy with rfl | hy
      · exact hi
      · exact hi.trans (hx y hy)
    next hi =>
      split
      next hk => exact rising_cons.2 ⟨fun y hy => hk ▸ hx y hy, ht⟩
      next hk =>
        refine rising_cons.2 ⟨fun y hy => ?_, ih ht⟩
        rcases mem_tableSet hy with rfl | hy
        · simp only; omega
        · exact hx y hy

theorem below_tableSet {t : Table α} {n i : Nat} (v : α) (h : Below n t) (hi : i < n) :
    Below n (tableSet t i v) := by
  intro e he
  rcases mem_tableSet he with rfl | he
  · exact hi
  · exact h e he

theorem tableGet_eq_none {t : Table α} {i : Nat} : tableGet t i = none ↔ ∀ e ∈ t, e.1 ≠ i := by
  induction t with
  | nil => simp
  | cons x t ih =>
    by_cases hx : x.1 = i <;> simp [tableGet_cons, hx, ih]

theorem mem_of_tableGet {t : Table α} {i : Nat} {v : α} (h : tableGet t i = some v) : (i, v) ∈ t := by
  induction t with
  | nil => simp at h
  | cons x t ih =>
    by_cases hx : x.1 = i
    · subst hx; simp only [tableGet_cons, if_pos, Option.some.injEq] at h; subst h; simp
    · simp only [tableGet_cons, if_neg hx] at h; exact List.mem_cons_of_mem _ (ih h)

theorem tableGet_of_mem {t : Table α} (hr : Rising t) {e : Nat × α} (h : e ∈ t) :
    tableGet t e.1 = some e.2 := by
  induction t with
  | nil => simp at h
  | cons x t ih =>
    obtain ⟨hx, ht⟩ := rising_cons.1 hr
    rcases List.mem_cons.1 h with rfl | h
    · simp [tableGet_cons]
    · have := hx e h
      simp [tableGet_cons, ih ht h, show x.1 ≠ e.1 by omega]

/-- A table in canonical form is determined by what it reads as. -/
theorem table_ext {t u : Table α} (ht : Rising t) (hu : Rising u)
    (h : ∀ i, tableGet t i = tableGet u i) : t = u := by
  induction t generalizing u with
  | nil =>
    cases u with
    | nil => rfl
    | cons y u => simpa [tableGet_cons] using h y.1
  | cons x t ih =>
    cases u with
    | nil => simpa [tableGet_cons] using h x.1
    | cons y u =>
      obtain ⟨hx, ht'⟩ := rising_cons.1 ht
      obtain ⟨hy, hu'⟩ := rising_cons.1 hu
      have hxm := mem_of_tableGet ((h x.1).symm.trans (tableGet_of_mem ht (List.mem_cons_self ..)))
      have hym := mem_of_tableGet ((h y.1).trans (tableGet_of_mem hu (List.mem_cons_self ..)))
      have hxy : x = y := by
        rcases List.mem_cons.1 hxm with hxm | hxm
        · exact hxm
        · rcases List.mem_cons.1 hym with hym | hym
          · exact hym.symm
          · have h1 := hy _ hxm
            have h2 := hx _ hym
            simp only at h1 h2; omega
      subst hxy
      congr 1
      refine ih ht' hu' fun i => ?_
      have := h i
      by_cases hi : x.1 = i
      · have h1 : tableGet t i = none := tableGet_eq_none.2 fun e he => by have := hx e he; omega
        have h2 : tableGet u i = none := tableGet_eq_none.2 fun e he => by have := hy e he; omega
        rw [h1, h2]
      · simpa [tableGet_cons, hi] using this

theorem tableGet_map (f : α → β) (t : Table α) (i : Nat) :
    tableGet (t.map fun e => (e.1, f e.2)) i = (tableGet t i).map f := by
  induction t with
  | nil => rfl
  | cons x t ih => by_cases hx : x.1 = i <;> simp [tableGet_cons, hx, ih]

theorem rising_map {f : α → β} {t : Table α} (h : Rising t) : Rising (t.map fun e => (e.1, f e.2)) := by
  simpa [Rising, Function.comp_def] using h

/-- Records written one after another: reads inside give them, reads outside are as before. -/
theorem tableGet_writeRecords (tm : Table NodeRecord) (base : Nat) (rs : List NodeRecord) (i : Nat) :
    tableGet (writeRecords tm base rs) i =
      if base ≤ i ∧ i < base + rs.length then rs[i - base]? else tableGet tm i := by
  induction rs generalizing tm base with
  | nil => simp only [writeRecords, List.length_nil]; rw [if_neg (by omega)]
  | cons r rs ih =>
    simp only [writeRecords, ih, List.length_cons, tableGet_tableSet]
    by_cases h1 : base = i
    · subst h1; simp
    · by_cases h2 : base + 1 ≤ i ∧ i < base + 1 + rs.length
      · rw [if_pos h2, if_pos (by omega), show i - base = (i - (base + 1)) + 1 by omega, List.getElem?_cons_succ]
      · rw [if_neg h2, if_neg h1, if_neg (by omega)]

theorem rising_writeRecords {tm : Table NodeRecord} (base : Nat) (rs : List NodeRecord) (h : Rising tm) :
    Rising (writeRecords tm base rs) := by
  induction rs generalizing tm base with
  | nil => exact h
  | cons r rs ih => exact ih (base + 1) (rising_tableSet _ _ h)

theorem below_writeRecords {tm : Table NodeRecord} {n base : Nat} {rs : List NodeRecord} (h : Below n tm)
    (hb : base + rs.length ≤ n) : Below n (writeRecords tm base rs) := by
  induction rs generalizing tm base with
  | nil => exact h
  | cons r rs ih =>
    simp only [List.length_cons] at hb
    exact ih (below_tableSet _ h (by omega)) (by omega)

/-- Every write of data memory keeps its canonical form. -/
theorem Memory.wf_write {m : Memory} (j : Nat) (b : Byte) (h : m.wf) : (m.write j b).wf :=
  rising_tableSet (t := m) j b h

@[simp] theorem Memory.read_write_self (m : Memory) (j : Nat) (b : Byte) : (m.write j b).read j = some b :=
  tableGet_tableSet_self m j b

theorem Memory.read_write_ne (m : Memory) {j k : Nat} (b : Byte) (h : j ≠ k) :
    (m.write j b).read k = m.read k :=
  tableGet_tableSet_ne m b h

/-- Memory after reset is in its canonical form. -/
theorem Memory.wf_reset : State.reset.dm.wf := List.Pairwise.nil

end Sys2Proof.Machine
end

