-- ==== Sys2Proof/Laws/Build.lean ====
section
/-! SUPPORT. The laws of the frequency count, of the priority structure, of the merge and of flattening. -/

namespace Sys2Proof.Machine

open Sys2Proof

/-! Counting (43_huffman_build.md R181). -/

theorem tableGet_bump (tmp : Table Nat) (u : CodeUnit) (i : Nat) :
    (tableGet (bump tmp u) i).getD 0 = (tableGet tmp i).getD 0 + (if u.toNat = i then 1 else 0) := by
  rw [bump, tableGet_tableSet]
  by_cases h : u.toNat = i
  · subst h; simp
  · simp [h]

theorem tableGet_foldl_bump (t : Text) (tmp : Table Nat) (u : CodeUnit) :
    (tableGet (t.foldl bump tmp) u.toNat).getD 0 = (tableGet tmp u.toNat).getD 0 + t.count u := by
  induction t generalizing tmp with
  | nil => simp
  | cons x t ih =>
    rw [List.foldl_cons, ih, tableGet_bump, List.count_cons]
    have : (x.toNat = u.toNat) ↔ (x == u) = true := by
      rw [beq_iff_eq]; exact ⟨fun h => BitVec.eq_of_toNat_eq h, fun h => h ▸ rfl⟩
    by_cases hx : x.toNat = u.toNat
    · simp only [if_pos hx, if_pos (this.1 hx)]; omega
    · simp only [if_neg hx, if_neg (fun h => hx (this.2 h))]; omega

/-- What FREQ_ADD counts for each unit, before it checks the counters' width. -/
theorem tableGet_countText (freq : Table Word32) (t : Text) (u : CodeUnit) :
    (tableGet (countText freq t) u.toNat).getD 0 =
      ((tableGet freq u.toNat).getD 0).toNat + t.count u + (if u = terminator then 1 else 0) := by
  rw [countText, tableGet_bump, tableGet_foldl_bump, tableGet_map (fun w : Word32 => w.toNat)]
  have h1 : (terminator.toNat = u.toNat) ↔ u = terminator :=
    ⟨fun h => (BitVec.eq_of_toNat_eq h).symm, fun h => h ▸ rfl⟩
  have h2 : ((tableGet freq u.toNat).map fun w : Word32 => w.toNat).getD 0 =
      ((tableGet freq u.toNat).getD 0).toNat := by
    cases tableGet freq u.toNat <;> rfl
  simp only [h1, h2]

theorem rising_foldl_bump {t : Text} {tmp : Table Nat} (h : Rising tmp) : Rising (t.foldl bump tmp) := by
  induction t generalizing tmp with
  | nil => exact h
  | cons x t ih => exact ih (rising_tableSet _ _ h)

theorem rising_countText {freq : Table Word32} (t : Text) (h : Rising freq) : Rising (countText freq t) :=
  rising_tableSet _ _ (rising_foldl_bump (rising_map h))

/-- A property of every listed counter that a bump gives its counter holds of every counter counted. -/
theorem forall_mem_countText {P : Nat × Nat → Prop} (freq : Table Word32) (t : Text)
    (h0 : ∀ e ∈ freq, P (e.1, e.2.toNat)) (h1 : ∀ (u : CodeUnit) n, P (u.toNat, n + 1)) :
    ∀ e ∈ countText freq t, P e := by
  have hb : ∀ (tmp : Table Nat) (u : CodeUnit), (∀ e ∈ tmp, P e) → ∀ e ∈ bump tmp u, P e := by
    intro tmp u h e he
    rcases mem_tableSet he with rfl | he
    · exact h1 u _
    · exact h e he
  have hf : ∀ (t : Text) (tmp : Table Nat), (∀ e ∈ tmp, P e) → ∀ e ∈ t.foldl bump tmp, P e := by
    intro t
    induction t with
    | nil => exact fun _ h => h
    | cons x t ih => exact fun tmp h => ih _ (hb tmp x h)
  refine hb _ _ (hf t _ fun e he => ?_)
  obtain ⟨x, hx, rfl⟩ := List.mem_map.1 he
  exact h0 x hx

/-! The priority structure (43_huffman_build.md R185). -/

theorem before_iff (a b : Item) :
    a.before b = true ↔ a.weight < b.weight ∨ (a.weight = b.weight ∧ a.seq < b.seq) := by
  simp [Item.before]

theorem before_trans {a b c : Item} (h1 : a.before b = true) (h2 : b.before c = true) : a.before c = true := by
  rw [before_iff] at *; omega

theorem before_total {a b : Item} (h : a.seq ≠ b.seq) (hn : a.before b = false) : b.before a = true := by
  have : ¬ a.before b = true := by simp [hn]
  rw [before_iff] at *; omega

theorem insertItem_perm (i : Item) (l : List Item) : (insertItem i l).Perm (i :: l) := by
  induction l with
  | nil => exact List.Perm.refl _
  | cons x l ih =>
    rw [insertItem]
    split
    · exact List.Perm.refl _
    · exact (List.Perm.cons x ih).trans (List.Perm.swap i x l)

theorem enqueue_perm (i : Item) (l : List Item) :
    ((enqueue i l).least :: (enqueue i l).rest).Perm (i :: l) := by
  cases l with
  | nil => exact List.Perm.refl _
  | cons x l =>
    rw [enqueue]
    split
    · exact List.Perm.refl _
    · exact (List.Perm.cons x (insertItem_perm i l)).trans (List.Perm.swap i x l)

/-- Insertion keeps rising order, when the new item's sequence number is its own. -/
theorem insertItem_sorted {i : Item} {l : List Item} (h : l.Pairwise fun a b => a.before b = true)
    (hi : ∀ x ∈ l, i.seq ≠ x.seq) : (insertItem i l).Pairwise fun a b => a.before b = true := by
  induction l with
  | nil => simp [insertItem]
  | cons x l ih =>
    obtain ⟨hx, hl⟩ := List.pairwise_cons.1 h
    rw [insertItem]
    split
    next hb =>
      refine List.pairwise_cons.2 ⟨fun y hy => ?_, h⟩
      rcases List.mem_cons.1 hy with rfl | hy
      · exact hb
      · exact before_trans hb (hx y hy)
    next hb =>
      refine List.pairwise_cons.2 ⟨fun y hy => ?_, ih hl fun y hy => hi y (List.mem_cons_of_mem _ hy)⟩
      rcases List.mem_cons.1 ((insertItem_perm i l).mem_iff.1 hy) with rfl | hy
      · exact before_total (hi x (List.mem_cons_self ..)) (by simpa using hb)
      · exact hx y hy

theorem enqueue_sorted {i : Item} {l : List Item} (h : l.Pairwise fun a b => a.before b = true)
    (hi : ∀ x ∈ l, i.seq ≠ x.seq) :
    ((enqueue i l).least :: (enqueue i l).rest).Pairwise fun a b => a.before b = true := by
  have : (enqueue i l).least :: (enqueue i l).rest = insertItem i l := by
    cases l with
    | nil => rfl
    | cons x l => rw [enqueue, insertItem]; split <;> rfl
  rw [this]; exact insertItem_sorted h hi

/-! Trees. -/

/-- The units at the leaves of a tree, from left to right. -/
def HTree.leaves : HTree → List CodeUnit
  | .leaf u => [u]
  | .node l r => l.leaves ++ r.leaves

theorem length_leaves (t : HTree) : t.leaves.length = t.nodes + 1 := by
  induction t with
  | leaf => rfl
  | node l r ihl ihr => simp only [HTree.leaves, HTree.nodes, List.length_append]; omega

@[simp] theorem length_flattenRecords (t : HTree) (my : Nat) : (flattenRecords t my).length = t.nodes := by
  induction t generalizing my with
  | leaf => rfl
  | node l r ihl ihr => simp only [flattenRecords, HTree.nodes, List.length_cons, List.length_append, ihl, ihr]; omega

theorem map_fst_flattenCodes (t : HTree) (path : Bits) : (flattenCodes t path).map Prod.fst = t.leaves := by
  induction t generalizing path with
  | leaf => rfl
  | node l r ihl ihr => simp [flattenCodes, HTree.leaves, ihl, ihr]

/-- Every code extends the path it starts from by at most the tree's internal items. -/
theorem mem_flattenCodes {t : HTree} {path : Bits} {e : CodeUnit × Bits} (h : e ∈ flattenCodes t path) :
    ∃ c, e.2 = path ++ c ∧ c.length ≤ t.nodes := by
  induction t generalizing path with
  | leaf u => simp only [flattenCodes, List.mem_singleton] at h; subst h; exact ⟨[], by simp⟩
  | node l r ihl ihr =>
    simp only [flattenCodes, List.mem_append] at h
    rcases h with h | h
    · obtain ⟨c, hc, hl⟩ := ihl h
      exact ⟨false :: c, by simp [hc], by simp only [List.length_cons, HTree.nodes]; omega⟩
    · obtain ⟨c, hc, hl⟩ := ihr h
      exact ⟨true :: c, by simp [hc], by simp only [List.length_cons, HTree.nodes]; omega⟩

/-- No unit of a tree with two leaves or more has an empty code. -/
theorem flattenCodes_node_ne_nil {l r : HTree} {e : CodeUnit × Bits} (h : e ∈ flattenCodes (.node l r) []) :
    e.2 ≠ [] := by
  simp only [flattenCodes, List.mem_append] at h
  rcases h with h | h <;> obtain ⟨c, hc, -⟩ := mem_flattenCodes h <;> simp [hc]

/-! The merge (43_huffman_build.md R188). -/

/-- The leaves of the merged tree are those of the items merged. -/
theorem mergeLoop_leaves (turns next : Nat) (q : Queue) (h : q.rest.length = turns) :
    (mergeLoop turns next q).tree.leaves.Perm ((q.least :: q.rest).flatMap fun i => i.tree.leaves) := by
  induction turns generalizing next q with
  | zero =>
    have : q.rest = [] := List.length_eq_zero_iff.1 h
    simp [mergeLoop, this]
  | succ turns ih =>
    obtain ⟨a, rest⟩ := q
    cases rest with
    | nil => simp at h
    | cons b others =>
      have hp := enqueue_perm (joinItems a b next) others
      have hl : (enqueue (joinItems a b next) others).rest.length = turns := by
        have := hp.length_eq; simp only [List.length_cons] at this h; omega
      refine (ih (next + 1) _ hl).trans ((hp.flatMap_right _).trans ?_)
      simp [joinItems, HTree.leaves, List.append_assoc]

/-- One merge at least makes an internal item. -/
theorem mergeLoop_isNode (turns next : Nat) (q : Queue) (h : q.rest.length = turns)
    (hn : turns ≠ 0 ∨ ∃ l r, q.least.tree = .node l r) : ∃ l r, (mergeLoop turns next q).tree = .node l r := by
  have hl := mergeLoop_leaves turns next q h
  cases ht : (mergeLoop turns next q).tree with
  | node l r => exact ⟨l, r, rfl⟩
  | leaf u =>
    exfalso
    rw [ht] at hl
    have hlen := hl.length_eq
    have hpos : ∀ l : List Item, l.length ≤ (l.flatMap fun i => i.tree.leaves).length := by
      intro l
      induction l with
      | nil => simp
      | cons x l ih =>
        have := length_leaves x.tree
        simp only [List.flatMap_cons, List.length_append, List.length_cons]; omega
    have h1 := hpos q.rest
    have h2 := length_leaves q.least.tree
    simp only [HTree.leaves, List.length_singleton, List.flatMap_cons, List.length_append] at hlen
    rcases hn with hn | ⟨l, r, hn⟩
    · omega
    · have : 1 ≤ q.least.tree.nodes := by rw [hn, HTree.nodes]; omega
      omega

theorem leafItems_leaves (j : Nat) (l : List (CodeUnit × Nat)) :
    ((leafItems j l).flatMap fun i => i.tree.leaves) = l.map Prod.fst := by
  induction l generalizing j with
  | nil => rfl
  | cons e l ih => simp [leafItems, ih, HTree.leaves]

theorem foldr_insertItem_perm (l : List Item) : (l.foldr insertItem []).Perm l := by
  induction l with
  | nil => exact List.Perm.refl _
  | cons x l ih => exact (insertItem_perm x _).trans (List.Perm.cons x ih)

theorem length_leafItems (j : Nat) (l : List (CodeUnit × Nat)) : (leafItems j l).length = l.length := by
  induction l generalizing j with
  | nil => rfl
  | cons e l ih => simp [leafItems, ih]

theorem length_mergeQueue (i : Item) (j : Nat) (others : List (CodeUnit × Nat)) :
    (enqueue i ((leafItems j others).foldr insertItem [])).rest.length = others.length := by
  have h1 := (enqueue_perm i ((leafItems j others).foldr insertItem [])).length_eq
  have h2 := (foldr_insertItem_perm (leafItems j others)).length_eq
  have h3 := length_leafItems j others
  simp only [List.length_cons] at h1; omega

/-- The leaves of the merged tree are the symbols (43_huffman_build.md R195). -/
theorem mergeSymbols_leaves (first : CodeUnit × Nat) (others : List (CodeUnit × Nat)) :
    (mergeSymbols first others).leaves.Perm ((first :: others).map Prod.fst) := by
  refine (mergeLoop_leaves _ _ _ (length_mergeQueue _ _ _)).trans
    (((enqueue_perm _ _).flatMap_right _).trans ?_)
  rw [List.flatMap_cons, List.map_cons, ← leafItems_leaves 1 others]
  exact List.Perm.cons _ ((foldr_insertItem_perm _).flatMap_right _)

/-- The merge makes one internal item for each symbol but one (43_huffman_build.md R188). -/
theorem mergeSymbols_nodes (first : CodeUnit × Nat) (others : List (CodeUnit × Nat)) :
    (mergeSymbols first others).nodes = others.length := by
  have h1 := (mergeSymbols_leaves first others).length_eq
  have h2 := length_leaves (mergeSymbols first others)
  simp only [List.map_cons, List.length_cons, List.length_map] at h1; omega

theorem mergeSymbols_isNode (first second : CodeUnit × Nat) (others : List (CodeUnit × Nat)) :
    ∃ l r, mergeSymbols first (second :: others) = .node l r :=
  mergeLoop_isNode _ _ _ (length_mergeQueue _ _ _) (.inl (by simp))

/-- The records built are as many as the rule says (43_huffman_build.md R190). -/
theorem length_buildTree_recs (first : CodeUnit × Nat) (others : List (CodeUnit × Nat)) :
    (buildTree first others).recs.length = recordsNeeded (others.length + 1) := by
  cases others with
  | nil => rfl
  | cons second others =>
    simp only [buildTree, length_flattenRecords, mergeSymbols_nodes, recordsNeeded, List.length_cons]; omega

theorem buildTree_codes_leaves (first : CodeUnit × Nat) (others : List (CodeUnit × Nat)) :
    ((buildTree first others).codes.map Prod.fst).Perm ((first :: others).map Prod.fst) := by
  cases others with
  | nil => exact List.Perm.refl _
  | cons second others =>
    simp only [buildTree, map_fst_flattenCodes]
    exact mergeSymbols_leaves first (second :: others)

theorem buildTree_codes_nonempty {first : CodeUnit × Nat} {others : List (CodeUnit × Nat)} {e : CodeUnit × Bits}
    (h : e ∈ (buildTree first others).codes) : e.2 ≠ [] := by
  cases others with
  | nil => simp only [buildTree, List.mem_singleton] at h; simp [h]
  | cons second others =>
    obtain ⟨l, r, ht⟩ := mergeSymbols_isNode first second others
    simp only [buildTree, ht] at h
    exact flattenCodes_node_ne_nil h

/-! The code table (43_huffman_build.md R193). -/

theorem rising_codeTable (codes : List (CodeUnit × Bits)) : Rising (codeTable codes) := by
  have : ∀ (ct : Table Bits), Rising ct →
      Rising (codes.foldl (fun ct e => tableSet ct e.1.toNat e.2) ct) := by
    induction codes with
    | nil => exact fun _ h => h
    | cons e codes ih => exact fun ct h => ih _ (rising_tableSet _ _ h)
  exact this [] List.Pairwise.nil

theorem mem_codeTable {codes : List (CodeUnit × Bits)} {x : Nat × Bits} (h : x ∈ codeTable codes) :
    ∃ e ∈ codes, x = (e.1.toNat, e.2) := by
  have : ∀ (ct : Table Bits), x ∈ codes.foldl (fun ct e => tableSet ct e.1.toNat e.2) ct →
      x ∈ ct ∨ ∃ e ∈ codes, x = (e.1.toNat, e.2) := by
    clear h
    induction codes with
    | nil => exact fun _ h => .inl h
    | cons e codes ih =>
      intro ct h
      rcases ih _ h with h | ⟨e', he', hx⟩
      · rcases mem_tableSet h with h | h
        · exact .inr ⟨e, List.mem_cons_self .., h⟩
        · exact .inl h
      · exact .inr ⟨e', List.mem_cons_of_mem _ he', hx⟩
  simpa using this [] h

/-- With no unit listed twice, a unit's code is the one listed for it, and `none` for every other unit. -/
theorem tableGet_codeTable {codes : List (CodeUnit × Bits)} (hn : (codes.map Prod.fst).Nodup) (u : CodeUnit)
    (c : Bits) : tableGet (codeTable codes) u.toNat = some c ↔ (u, c) ∈ codes := by
  have key : ∀ (ct : Table Bits), (codes.map Prod.fst).Nodup →
      (tableGet (codes.foldl (fun ct e => tableSet ct e.1.toNat e.2) ct) u.toNat = some c ↔
        (u, c) ∈ codes ∨ (u ∉ codes.map Prod.fst ∧ tableGet ct u.toNat = some c)) := by
    clear hn
    induction codes with
    | nil => simp
    | cons e codes ih =>
      intro ct hn
      rw [List.map_cons, List.nodup_cons] at hn
      rw [List.foldl_cons, ih _ hn.2, tableGet_tableSet]
      by_cases he : e.1 = u
      · subst he
        have : (e.1, c) ∉ codes := fun h => hn.1 (List.mem_map.2 ⟨_, h, rfl⟩)
        simp only [this, false_or, hn.1, not_false_eq_true, true_and, if_true, Option.some.injEq, List.mem_cons,
          or_false, List.map_cons, not_true, false_and]
        exact ⟨fun h => by rw [← h], fun h => (congrArg Prod.snd h).symm⟩
      · have hne : ¬ e.1.toNat = u.toNat := fun h => he (BitVec.eq_of_toNat_eq h)
        have hne' : ¬ (u, c) = e := fun h => he (by rw [← h])
        simp only [if_neg hne, List.mem_cons, hne', false_or, List.map_cons, Ne.symm he]
  simpa [codeTable] using key [] hn

end Sys2Proof.Machine
end

