-- ==== Sys2Proof/Laws/State.lean ====
section
/-! SUPPORT. What each named update of the state does to each field: one lemma per field and update. -/

namespace Sys2Proof.Machine

open Sys2Proof

variable (s : State)

@[simp] theorem State.complete_cfg (r : Word64) : (s.complete r).cfg = s.cfg := rfl
@[simp] theorem State.complete_busy (r : Word64) : (s.complete r).busy = false := rfl
@[simp] theorem State.complete_errCode (r : Word64) : (s.complete r).errCode = .ok := rfl
@[simp] theorem State.complete_ctValid (r : Word64) : (s.complete r).ctValid = s.ctValid := rfl
@[simp] theorem State.complete_errInfo (r : Word64) : (s.complete r).errInfo = 0 := rfl
@[simp] theorem State.complete_arg0 (r : Word64) : (s.complete r).arg0 = s.arg0 := rfl
@[simp] theorem State.complete_result (r : Word64) : (s.complete r).result = r := rfl
@[simp] theorem State.complete_nodeCount (r : Word64) : (s.complete r).nodeCount = s.nodeCount := rfl
@[simp] theorem State.complete_dataLen (r : Word64) : (s.complete r).dataLen = s.dataLen := rfl
@[simp] theorem State.complete_rdPos (r : Word64) : (s.complete r).rdPos = s.rdPos := rfl
@[simp] theorem State.complete_wb (r : Word64) : (s.complete r).wb = s.wb := rfl
@[simp] theorem State.complete_freq (r : Word64) : (s.complete r).freq = s.freq := rfl
@[simp] theorem State.complete_ct (r : Word64) : (s.complete r).ct = s.ct := rfl
@[simp] theorem State.complete_tm (r : Word64) : (s.complete r).tm = s.tm := rfl
@[simp] theorem State.complete_dm (r : Word64) : (s.complete r).dm = s.dm := rfl
@[simp] theorem State.complete_resText (r : Word64) : (s.complete r).resText = s.resText := rfl
@[simp] theorem State.complete_resBytes (r : Word64) : (s.complete r).resBytes = s.resBytes := rfl
@[simp] theorem State.complete_textIn (r : Word64) : (s.complete r).textIn = s.textIn := rfl
@[simp] theorem State.complete_pending (r : Word64) : (s.complete r).pending = s.pending := rfl
@[simp] theorem State.complete_mfault (r : Word64) : (s.complete r).mfault = s.mfault := rfl
@[simp] theorem State.complete_agenda (r : Word64) : (s.complete r).agenda = s.agenda := rfl
@[simp] theorem State.complete_hostData (r : Word64) : (s.complete r).hostData = s.hostData := rfl

@[simp] theorem State.raise_cfg (e : ErrCode) (info : Word64) : (s.raise e info).cfg = s.cfg := rfl
@[simp] theorem State.raise_busy (e : ErrCode) (info : Word64) : (s.raise e info).busy = false := rfl
@[simp] theorem State.raise_errCode (e : ErrCode) (info : Word64) : (s.raise e info).errCode = e := rfl
@[simp] theorem State.raise_ctValid (e : ErrCode) (info : Word64) : (s.raise e info).ctValid = s.ctValid := rfl
@[simp] theorem State.raise_errInfo (e : ErrCode) (info : Word64) : (s.raise e info).errInfo = info := rfl
@[simp] theorem State.raise_arg0 (e : ErrCode) (info : Word64) : (s.raise e info).arg0 = s.arg0 := rfl
@[simp] theorem State.raise_result (e : ErrCode) (info : Word64) : (s.raise e info).result = 0 := rfl
@[simp] theorem State.raise_nodeCount (e : ErrCode) (info : Word64) : (s.raise e info).nodeCount = s.nodeCount := rfl
@[simp] theorem State.raise_dataLen (e : ErrCode) (info : Word64) : (s.raise e info).dataLen = s.dataLen := rfl
@[simp] theorem State.raise_rdPos (e : ErrCode) (info : Word64) : (s.raise e info).rdPos = s.rdPos := rfl
@[simp] theorem State.raise_wb (e : ErrCode) (info : Word64) : (s.raise e info).wb = s.wb := rfl
@[simp] theorem State.raise_freq (e : ErrCode) (info : Word64) : (s.raise e info).freq = s.freq := rfl
@[simp] theorem State.raise_ct (e : ErrCode) (info : Word64) : (s.raise e info).ct = s.ct := rfl
@[simp] theorem State.raise_tm (e : ErrCode) (info : Word64) : (s.raise e info).tm = s.tm := rfl
@[simp] theorem State.raise_dm (e : ErrCode) (info : Word64) : (s.raise e info).dm = s.dm := rfl
@[simp] theorem State.raise_resText (e : ErrCode) (info : Word64) : (s.raise e info).resText = s.resText := rfl
@[simp] theorem State.raise_resBytes (e : ErrCode) (info : Word64) : (s.raise e info).resBytes = s.resBytes := rfl
@[simp] theorem State.raise_textIn (e : ErrCode) (info : Word64) : (s.raise e info).textIn = s.textIn := rfl
@[simp] theorem State.raise_pending (e : ErrCode) (info : Word64) : (s.raise e info).pending = s.pending := rfl
@[simp] theorem State.raise_mfault (e : ErrCode) (info : Word64) : (s.raise e info).mfault = s.mfault := rfl
@[simp] theorem State.raise_agenda (e : ErrCode) (info : Word64) : (s.raise e info).agenda = s.agenda := rfl
@[simp] theorem State.raise_hostData (e : ErrCode) (info : Word64) : (s.raise e info).hostData = s.hostData := rfl

@[simp] theorem State.recordFault_cfg (f : ModelFault) : (s.recordFault f).cfg = s.cfg := rfl
@[simp] theorem State.recordFault_busy (f : ModelFault) : (s.recordFault f).busy = s.busy := rfl
@[simp] theorem State.recordFault_errCode (f : ModelFault) : (s.recordFault f).errCode = s.errCode := rfl
@[simp] theorem State.recordFault_ctValid (f : ModelFault) : (s.recordFault f).ctValid = s.ctValid := rfl
@[simp] theorem State.recordFault_errInfo (f : ModelFault) : (s.recordFault f).errInfo = s.errInfo := rfl
@[simp] theorem State.recordFault_arg0 (f : ModelFault) : (s.recordFault f).arg0 = s.arg0 := rfl
@[simp] theorem State.recordFault_result (f : ModelFault) : (s.recordFault f).result = s.result := rfl
@[simp] theorem State.recordFault_nodeCount (f : ModelFault) : (s.recordFault f).nodeCount = s.nodeCount := rfl
@[simp] theorem State.recordFault_dataLen (f : ModelFault) : (s.recordFault f).dataLen = s.dataLen := rfl
@[simp] theorem State.recordFault_rdPos (f : ModelFault) : (s.recordFault f).rdPos = s.rdPos := rfl
@[simp] theorem State.recordFault_wb (f : ModelFault) : (s.recordFault f).wb = s.wb := rfl
@[simp] theorem State.recordFault_freq (f : ModelFault) : (s.recordFault f).freq = s.freq := rfl
@[simp] theorem State.recordFault_ct (f : ModelFault) : (s.recordFault f).ct = s.ct := rfl
@[simp] theorem State.recordFault_tm (f : ModelFault) : (s.recordFault f).tm = s.tm := rfl
@[simp] theorem State.recordFault_dm (f : ModelFault) : (s.recordFault f).dm = s.dm := rfl
@[simp] theorem State.recordFault_resText (f : ModelFault) : (s.recordFault f).resText = s.resText := rfl
@[simp] theorem State.recordFault_resBytes (f : ModelFault) : (s.recordFault f).resBytes = s.resBytes := rfl
@[simp] theorem State.recordFault_textIn (f : ModelFault) : (s.recordFault f).textIn = s.textIn := rfl
@[simp] theorem State.recordFault_pending (f : ModelFault) : (s.recordFault f).pending = s.pending := rfl
@[simp] theorem State.recordFault_mfault (f : ModelFault) : (s.recordFault f).mfault = s.mfault.add f := rfl
@[simp] theorem State.recordFault_agenda (f : ModelFault) : (s.recordFault f).agenda = s.agenda := rfl
@[simp] theorem State.recordFault_hostData (f : ModelFault) : (s.recordFault f).hostData = s.hostData := rfl

@[simp] theorem State.issue_cfg (w : Word32) : (s.issue w).cfg = s.cfg := rfl
@[simp] theorem State.issue_busy (w : Word32) : (s.issue w).busy = true := rfl
@[simp] theorem State.issue_errCode (w : Word32) : (s.issue w).errCode = s.errCode := rfl
@[simp] theorem State.issue_ctValid (w : Word32) : (s.issue w).ctValid = s.ctValid := rfl
@[simp] theorem State.issue_errInfo (w : Word32) : (s.issue w).errInfo = s.errInfo := rfl
@[simp] theorem State.issue_arg0 (w : Word32) : (s.issue w).arg0 = s.arg0 := rfl
@[simp] theorem State.issue_result (w : Word32) : (s.issue w).result = s.result := rfl
@[simp] theorem State.issue_nodeCount (w : Word32) : (s.issue w).nodeCount = s.nodeCount := rfl
@[simp] theorem State.issue_dataLen (w : Word32) : (s.issue w).dataLen = s.dataLen := rfl
@[simp] theorem State.issue_rdPos (w : Word32) : (s.issue w).rdPos = s.rdPos := rfl
@[simp] theorem State.issue_wb (w : Word32) : (s.issue w).wb = s.wb := rfl
@[simp] theorem State.issue_freq (w : Word32) : (s.issue w).freq = s.freq := rfl
@[simp] theorem State.issue_ct (w : Word32) : (s.issue w).ct = s.ct := rfl
@[simp] theorem State.issue_tm (w : Word32) : (s.issue w).tm = s.tm := rfl
@[simp] theorem State.issue_dm (w : Word32) : (s.issue w).dm = s.dm := rfl
@[simp] theorem State.issue_resText (w : Word32) : (s.issue w).resText = s.resText := rfl
@[simp] theorem State.issue_resBytes (w : Word32) : (s.issue w).resBytes = s.resBytes := rfl
@[simp] theorem State.issue_textIn (w : Word32) : (s.issue w).textIn = s.textIn := rfl
@[simp] theorem State.issue_pending (w : Word32) : (s.issue w).pending = some ⟨w, s.textIn⟩ := rfl
@[simp] theorem State.issue_mfault (w : Word32) : (s.issue w).mfault = s.mfault := rfl
@[simp] theorem State.issue_agenda (w : Word32) : (s.issue w).agenda = s.agenda := rfl
@[simp] theorem State.issue_hostData (w : Word32) : (s.issue w).hostData = s.hostData := rfl

@[simp] theorem State.clearCtValid_cfg : s.clearCtValid.cfg = s.cfg := rfl
@[simp] theorem State.clearCtValid_busy : s.clearCtValid.busy = s.busy := rfl
@[simp] theorem State.clearCtValid_errCode : s.clearCtValid.errCode = s.errCode := rfl
@[simp] theorem State.clearCtValid_ctValid : s.clearCtValid.ctValid = false := rfl
@[simp] theorem State.clearCtValid_errInfo : s.clearCtValid.errInfo = s.errInfo := rfl
@[simp] theorem State.clearCtValid_arg0 : s.clearCtValid.arg0 = s.arg0 := rfl
@[simp] theorem State.clearCtValid_result : s.clearCtValid.result = s.result := rfl
@[simp] theorem State.clearCtValid_nodeCount : s.clearCtValid.nodeCount = s.nodeCount := rfl
@[simp] theorem State.clearCtValid_dataLen : s.clearCtValid.dataLen = s.dataLen := rfl
@[simp] theorem State.clearCtValid_rdPos : s.clearCtValid.rdPos = s.rdPos := rfl
@[simp] theorem State.clearCtValid_wb : s.clearCtValid.wb = s.wb := rfl
@[simp] theorem State.clearCtValid_freq : s.clearCtValid.freq = s.freq := rfl
@[simp] theorem State.clearCtValid_ct : s.clearCtValid.ct = s.ct := rfl
@[simp] theorem State.clearCtValid_tm : s.clearCtValid.tm = s.tm := rfl
@[simp] theorem State.clearCtValid_dm : s.clearCtValid.dm = s.dm := rfl
@[simp] theorem State.clearCtValid_resText : s.clearCtValid.resText = s.resText := rfl
@[simp] theorem State.clearCtValid_resBytes : s.clearCtValid.resBytes = s.resBytes := rfl
@[simp] theorem State.clearCtValid_textIn : s.clearCtValid.textIn = s.textIn := rfl
@[simp] theorem State.clearCtValid_pending : s.clearCtValid.pending = s.pending := rfl
@[simp] theorem State.clearCtValid_mfault : s.clearCtValid.mfault = s.mfault := rfl
@[simp] theorem State.clearCtValid_agenda : s.clearCtValid.agenda = s.agenda := rfl
@[simp] theorem State.clearCtValid_hostData : s.clearCtValid.hostData = s.hostData := rfl

@[simp] theorem State.answer_cfg (v : HostValue) : (s.answer v).cfg = s.cfg := rfl
@[simp] theorem State.answer_busy (v : HostValue) : (s.answer v).busy = s.busy := rfl
@[simp] theorem State.answer_errCode (v : HostValue) : (s.answer v).errCode = s.errCode := rfl
@[simp] theorem State.answer_ctValid (v : HostValue) : (s.answer v).ctValid = s.ctValid := rfl
@[simp] theorem State.answer_errInfo (v : HostValue) : (s.answer v).errInfo = s.errInfo := rfl
@[simp] theorem State.answer_arg0 (v : HostValue) : (s.answer v).arg0 = s.arg0 := rfl
@[simp] theorem State.answer_result (v : HostValue) : (s.answer v).result = s.result := rfl
@[simp] theorem State.answer_nodeCount (v : HostValue) : (s.answer v).nodeCount = s.nodeCount := rfl
@[simp] theorem State.answer_dataLen (v : HostValue) : (s.answer v).dataLen = s.dataLen := rfl
@[simp] theorem State.answer_rdPos (v : HostValue) : (s.answer v).rdPos = s.rdPos := rfl
@[simp] theorem State.answer_wb (v : HostValue) : (s.answer v).wb = s.wb := rfl
@[simp] theorem State.answer_freq (v : HostValue) : (s.answer v).freq = s.freq := rfl
@[simp] theorem State.answer_ct (v : HostValue) : (s.answer v).ct = s.ct := rfl
@[simp] theorem State.answer_tm (v : HostValue) : (s.answer v).tm = s.tm := rfl
@[simp] theorem State.answer_dm (v : HostValue) : (s.answer v).dm = s.dm := rfl
@[simp] theorem State.answer_resText (v : HostValue) : (s.answer v).resText = s.resText := rfl
@[simp] theorem State.answer_resBytes (v : HostValue) : (s.answer v).resBytes = s.resBytes := rfl
@[simp] theorem State.answer_textIn (v : HostValue) : (s.answer v).textIn = s.textIn := rfl
@[simp] theorem State.answer_pending (v : HostValue) : (s.answer v).pending = s.pending := rfl
@[simp] theorem State.answer_mfault (v : HostValue) : (s.answer v).mfault = s.mfault := rfl
@[simp] theorem State.answer_agenda (v : HostValue) : (s.answer v).agenda = s.agenda := rfl
@[simp] theorem State.answer_hostData (v : HostValue) : (s.answer v).hostData = v := rfl

end Sys2Proof.Machine
end

