-- ==== Sys2Proof/Laws/Exec.lean ====
section
/-! SUPPORT. What each command, each host access and each step can do, once: the lemmas later proofs cite
instead of unfolding a meaning. -/

namespace Sys2Proof.Machine

open Sys2Proof

/-- RD_BIT raises OutOfRange, reads a bit below 8·D, or records UninitRead. -/
theorem execRdBit_cases (s : State) :
    (s.bitLength ≤ s.rdPos.toNat ∧ execRdBit s = .next (s.raise .outOfRange s.rdPos)) ∨
    (s.rdPos.toNat < s.bitLength ∧ ∃ b, bitAt s s.rdPos.toNat = some b ∧
      execRdBit s = .next ({ s with rdPos := s.rdPos + 1 }.complete ((BitVec.ofBool b).setWidth 64))) ∨
    (s.rdPos.toNat < s.bitLength ∧ bitAt s s.rdPos.toNat = none ∧
      execRdBit s = .next (s.recordFault .uninitRead)) := by
  rw [execRdBit]
  by_cases h : s.bitLength ≤ s.rdPos.toNat
  · exact .inl ⟨h, by rw [if_pos h]⟩
  · rw [if_neg h]
    cases hb : bitAt s s.rdPos.toNat with
    | none => exact .inr (.inr ⟨by omega, rfl, rfl⟩)
    | some b => exact .inr (.inl ⟨by omega, b, rfl, rfl⟩)

/-- WR_BIT raises CapacityExceeded or appends its bit. -/
theorem execWrBit_cases (b : Bool) (s : State) :
    (s.cfg.wbufCapBits ≤ s.wb.length ∧
      execWrBit b s = .next (s.raise .capacityExceeded (word64 s.wb.length))) ∨
    (s.wb.length < s.cfg.wbufCapBits ∧ execWrBit b s = .next ({ s with wb := s.wb ++ [b] }.complete 0)) := by
  rw [execWrBit]
  by_cases h : s.cfg.wbufCapBits ≤ s.wb.length
  · exact .inl ⟨h, by rw [if_pos h]⟩
  · exact .inr ⟨by omega, by rw [if_neg h]⟩

/-- FREQ_ADD raises IllegalOperand or CapacityExceeded, or stores counts that fit their counters. -/
theorem execFreqAdd_cases (s : State) :
    (∃ i, execFreqAdd s = .next (s.raise .illegalOperand (word64 i))) ∨
    (∃ i, execFreqAdd s = .next (s.raise .capacityExceeded (word64 i))) ∨
    ((∀ e ∈ countText s.freq s.textOperand, e.2 ≤ 2 ^ 32 - 1) ∧ execFreqAdd s =
      .next ({ s with freq := storeCounts (countText s.freq s.textOperand) }.complete 0)) := by
  rw [execFreqAdd]
  cases s.textOperand.findIdx? (· == terminator) with
  | some i => exact .inl ⟨i, rfl⟩
  | none =>
    dsimp only
    cases hf : (countText s.freq s.textOperand).find? (fun e => decide (2 ^ 32 - 1 < e.2)) with
    | some e => exact .inr (.inl ⟨e.1, rfl⟩)
    | none =>
      refine .inr (.inr ⟨fun e he => ?_, rfl⟩)
      have := List.find?_eq_none.1 hf e he
      simpa using this

/-- TREE_BUILD raises EmptySymbolSet or CapacityExceeded, or writes the tree built. -/
theorem execTreeBuild_cases (s : State) :
    (symbols s = [] ∧ execTreeBuild s = .next (s.raise .emptySymbolSet 0)) ∨
    (∃ first others, symbols s = first :: others ∧
      ((s.cfg.nodeCap < recordsNeeded (others.length + 1) ∧
        execTreeBuild s = .next (s.raise .capacityExceeded (word64 (recordsNeeded (others.length + 1))))) ∨
       (recordsNeeded (others.length + 1) ≤ s.cfg.nodeCap ∧
        execTreeBuild s = .next ({ s with
          tm := writeRecords s.tm 0 (buildTree first others).recs
          nodeCount := BitVec.ofNat 32 (recordsNeeded (others.length + 1))
          ct := codeTable (buildTree first others).codes
          ctValid := true }.complete (word64 (recordsNeeded (others.length + 1))))))) := by
  rw [execTreeBuild]
  cases hs : symbols s with
  | nil => exact .inl ⟨rfl, rfl⟩
  | cons first others =>
    refine .inr ⟨first, others, rfl, ?_⟩
    dsimp only
    by_cases h : s.cfg.nodeCap < recordsNeeded (others.length + 1)
    · exact .inl ⟨h, by rw [if_pos h]⟩
    · exact .inr ⟨by omega, by rw [if_neg h]⟩

/-- ENCODE raises one of its errors, appends the code string where it fits, or stops where R220 leaves the
code string undefined. -/
theorem execEncode_cases (s : State) :
    (∃ e i, e ∈ errorsOf .encode ∧ execEncode s = .next (s.raise e i)) ∨
    (s.ctValid = true ∧ firstBadUnit s 0 s.textOperand = none ∧ ∃ bits, codeString s s.textOperand = some bits ∧
      s.wb.length ≤ 2 ^ 32 - 1 ∧ s.wb.length + bits.length ≤ s.cfg.wbufCapBits ∧
      execEncode s = .next ({ s with wb := s.wb ++ bits }.complete (word64 s.wb.length))) ∨
    (s.ctValid = true ∧ firstBadUnit s 0 s.textOperand = none ∧ codeString s s.textOperand = none ∧
      execEncode s = .fault .undefinedCodeString) := by
  have hbad : ∀ (t : Text) i e k, firstBadUnit s i t = some (e, k) → e = .illegalOperand ∨ e = .unknownSymbol := by
    intro t
    induction t with
    | nil => simp [firstBadUnit]
    | cons u t ih =>
      intro i e k h
      rw [firstBadUnit] at h
      split at h
      · simp_all
      · split at h
        · simp_all
        · exact ih _ _ _ h
  rw [execEncode]
  by_cases hv : s.ctValid = false
  · exact .inl ⟨.noCodeTable, 0, by simp [errorsOf], by rw [if_pos hv]⟩
  · rw [if_neg hv]
    have hv' : s.ctValid = true := by simpa using hv
    cases hb : firstBadUnit s 0 s.textOperand with
    | some p =>
      refine .inl ⟨p.1, word64 p.2, ?_, rfl⟩
      rcases hbad _ _ p.1 p.2 hb with h | h <;> simp [errorsOf, h]
    | none =>
      dsimp only
      cases hc : codeString s s.textOperand with
      | none => exact .inr (.inr ⟨hv', rfl, rfl, rfl⟩)
      | some bits =>
        dsimp only
        by_cases h1 : 2 ^ 32 - 1 < s.wb.length
        · exact .inl ⟨.capacityExceeded, _, by simp [errorsOf], by rw [if_pos h1]⟩
        · rw [if_neg h1]
          by_cases h2 : s.cfg.wbufCapBits < s.wb.length + bits.length
          · exact .inl ⟨.capacityExceeded, _, by simp [errorsOf], by rw [if_pos h2]⟩
          · exact .inr (.inl ⟨hv', rfl, bits, rfl, by omega, by omega, by rw [if_neg h2]⟩)

/-- What one access of the host can do: record a model fault, answer a read, issue a command, or write a
register, a record, a byte or the text port. -/
theorem hostAccess_cases (s : State) (a : HostAccess) :
    (∃ f, hostAccess s a = s.recordFault f) ∨ (∃ v, hostAccess s a = s.answer v) ∨
    (s.busy = false ∧
      ((∃ w, hostAccess s a = s.issue w) ∨ (∃ v, hostAccess s a = { s with arg0 := v }) ∨
       (∃ v : Word32, v.toNat ≤ s.cfg.nodeCap ∧ hostAccess s a = { s with nodeCount := v, ctValid := false }) ∨
       (∃ v : Word32, v.toNat ≤ s.cfg.dataCap ∧ hostAccess s a = { s with dataLen := v }) ∨
       (∃ i r, i < s.cfg.nodeCap ∧ hostAccess s a = { s with tm := tableSet s.tm i r, ctValid := false }) ∨
       (∃ j b, j < s.cfg.dataCap ∧ hostAccess s a = { s with dm := s.dm.write j b }) ∨
       (∃ t, hostAccess s a = { s with textIn := t }))) := by
  rw [hostAccess]
  by_cases hb : s.busy = true ∧ a ≠ .readStatus
  · exact .inl ⟨.hostHazard, by rw [if_pos hb]⟩
  · rw [if_neg hb]
    cases a with
    | readReg width offset =>
      simp only [idleAccess, accessReadReg]
      split
      · split
        · exact .inr (.inl ⟨_, rfl⟩)
        · exact .inl ⟨_, rfl⟩
      · exact .inl ⟨_, rfl⟩
    | writeReg width offset v =>
      have hbusy : s.busy = false := by simpa using hb
      simp only [idleAccess, accessWriteReg]
      split
      · split
        next r _ =>
          cases r <;> simp only [writeReg, writeNodeCount, writeDataLen]
          case cmd => exact .inr (.inr ⟨hbusy, .inl ⟨v, rfl⟩⟩)
          case arg0 => exact .inr (.inr ⟨hbusy, .inr (.inl ⟨v, rfl⟩)⟩)
          case nodeCount =>
            split
            · exact .inl ⟨_, rfl⟩
            next h => exact .inr (.inr ⟨hbusy, .inr (.inr (.inl ⟨v, by omega, rfl⟩))⟩)
          case dataLen =>
            split
            · exact .inl ⟨_, rfl⟩
            next h => exact .inr (.inr ⟨hbusy, .inr (.inr (.inr (.inl ⟨v, by omega, rfl⟩)))⟩)
          all_goals exact .inl ⟨_, rfl⟩
        · exact .inl ⟨_, rfl⟩
      · exact .inl ⟨_, rfl⟩
    | readNode i =>
      simp only [idleAccess, accessReadNode]
      split
      · cases s.nodeAt i with
        | none => exact .inl ⟨_, rfl⟩
        | some r => exact .inr (.inl ⟨_, rfl⟩)
      · exact .inl ⟨_, rfl⟩
    | writeNode i r =>
      have hbusy : s.busy = false := by simpa using hb
      simp only [idleAccess, accessWriteNode]
      split
      next h => exact .inr (.inr ⟨hbusy, .inr (.inr (.inr (.inr (.inl ⟨i, r, h, rfl⟩))))⟩)
      · exact .inl ⟨_, rfl⟩
    | readData j =>
      simp only [idleAccess, accessReadData]
      split
      · cases s.byteAt j with
        | none => exact .inl ⟨_, rfl⟩
        | some b => exact .inr (.inl ⟨_, rfl⟩)
      · exact .inl ⟨_, rfl⟩
    | writeData j b =>
      have hbusy : s.busy = false := by simpa using hb
      simp only [idleAccess, accessWriteData]
      split
      next h => exact .inr (.inr ⟨hbusy, .inr (.inr (.inr (.inr (.inr (.inl ⟨j, b, h, rfl⟩)))))⟩)
      · exact .inl ⟨_, rfl⟩
    | writeText t =>
      have hbusy : s.busy = false := by simpa using hb
      exact .inr (.inr ⟨hbusy, .inr (.inr (.inr (.inr (.inr (.inr ⟨t, rfl⟩)))))⟩)
    | readResText => exact .inr (.inl ⟨_, rfl⟩)
    | readResBytes => exact .inr (.inl ⟨_, rfl⟩)

/-- What a turn of the engine that answers a next state did. -/
theorem engineTurn_cases {s t : State} (h : engineTurn s = .next t) :
    t = s ∨ (∃ w, s.busy = true ∧ t = s.raise .illegalCommand w) ∨ (∃ i, s.busy = true ∧ exec i s = .next t) := by
  rw [engineTurn] at h
  split at h
  next hb =>
    split at h
    · rw [performWord] at h
      split at h
      next i _ => exact .inr (.inr ⟨i, hb, h⟩)
      · cases h; exact .inr (.inl ⟨_, hb, rfl⟩)
    · cases h; exact .inl rfl
  · cases h; exact .inl rfl

/-- What a step that answers a next state did: no model fault was recorded, and the next turn of the agenda
was taken, the engine's if none was waiting. -/
theorem step_cases {s t : State} (h : step s = .next t) :
    s.mfault.isEmpty = true ∧
    ((s.agenda = [] ∧ engineTurn s = .next t) ∨
     (∃ rest, s.agenda = .engine :: rest ∧ engineTurn { s with agenda := rest } = .next t) ∨
     (∃ a rest, s.agenda = .host a :: rest ∧ t = hostAccess { s with agenda := rest } a)) := by
  have take : ∀ (u : Turn) (x : State), takeTurn u x = .next t → x.mfault.isEmpty = true ∧
      ((u = .engine ∧ engineTurn x = .next t) ∨ ∃ a, u = .host a ∧ t = hostAccess x a) := by
    intro u x hx
    by_cases hm : x.mfault.isEmpty = true
    · refine ⟨hm, ?_⟩
      cases u with
      | host a => simp only [takeTurn, if_pos hm, Host.Outcome.next.injEq] at hx; exact .inr ⟨a, rfl, hx.symm⟩
      | engine => simp only [takeTurn, if_pos hm] at hx; exact .inl ⟨rfl, hx⟩
    · unfold takeTurn at hx; rw [if_neg hm] at hx; simp at hx
  rw [step, nextTurn] at h
  split at h
  next ha =>
    obtain ⟨hm, ⟨-, h'⟩ | ⟨a, h', -⟩⟩ := take _ _ h
    · exact ⟨hm, .inl ⟨ha, h'⟩⟩
    · simp at h'
  next u rest ha =>
    obtain ⟨hm, ⟨rfl, h'⟩ | ⟨a, rfl, h'⟩⟩ := take _ _ h
    · exact ⟨hm, .inr (.inl ⟨rest, ha, h'⟩)⟩
    · exact ⟨hm, .inr (.inr ⟨a, rest, ha, h'⟩)⟩

/-- The symbols TREE_BUILD builds from are S of 43_huffman_build.md R182, in the same order. -/
theorem symbols_eq_symbolSet {s : State} (h : s.Wf) : (symbols s).map Prod.fst = s.symbolSet := by
  have key : ∀ (size : Nat) (l : List (Nat × Word32)), size ≤ 2 ^ 16 → Rising l → Below size l →
      ((l.filter fun e => decide (0 < e.2.toNat)).map fun e => (BitVec.ofNat 16 e.1 : CodeUnit)) =
        ((List.range size).map (BitVec.ofNat 16)).filter fun u : CodeUnit =>
          decide (0 < ((tableGet l u.toNat).getD 0).toNat) := by
    intro size l hsize hr hb
    have hcomp : (((List.range size).map (BitVec.ofNat 16)).filter fun u : CodeUnit =>
        decide (0 < ((tableGet l u.toNat).getD 0).toNat)) =
        ((List.range size).filter fun n => decide (0 < ((tableGet l n).getD 0).toNat)).map (BitVec.ofNat 16) := by
      rw [List.filter_map]
      congr 1
      refine List.filter_congr fun n hn => ?_
      have : n < 2 ^ 16 := (List.mem_range.1 hn).trans_le hsize
      simp only [Function.comp_apply, BitVec.toNat_ofNat, Nat.mod_eq_of_lt this]
    rw [hcomp, show (fun e : Nat × Word32 => (BitVec.ofNat 16 e.1 : CodeUnit)) = BitVec.ofNat 16 ∘ Prod.fst from rfl,
      ← List.map_map]
    congr 1
    have hs1 : ((l.filter fun e => decide (0 < e.2.toNat)).map Prod.fst).Pairwise (· < ·) :=
      List.Pairwise.sublist (List.filter_sublist.map _) hr
    have hs2 : ((List.range size).filter fun n => decide (0 < ((tableGet l n).getD 0).toNat)).Pairwise (· < ·) :=
      List.Pairwise.sublist List.filter_sublist List.pairwise_lt_range
    refine List.Perm.eq_of_pairwise (le := (· < ·)) ?_ hs1 hs2 ?_
    · intro a b _ _ hab hba; omega
    · refine (List.perm_ext_iff_of_nodup (hs1.imp fun h => Nat.ne_of_lt h) (hs2.imp fun h => Nat.ne_of_lt h)).2
        fun n => ?_
      simp only [List.mem_map, List.mem_filter, List.mem_range, decide_eq_true_eq]
      constructor
      · rintro ⟨e, ⟨he, hpos⟩, rfl⟩
        exact ⟨hb e he, by rw [tableGet_of_mem hr he]; exact hpos⟩
      · rintro ⟨-, hpos⟩
        cases hg : tableGet l n with
        | none => rw [hg] at hpos; simp at hpos
        | some v => exact ⟨(n, v), ⟨mem_of_tableGet hg, by rw [hg] at hpos; exact hpos⟩, rfl⟩
  rw [symbols, List.map_map]
  exact key _ s.freq le_rfl h.freqRising h.freqBelow

theorem length_symbols {s : State} (h : s.Wf) : (symbols s).length = s.symbolSet.length := by
  rw [← symbols_eq_symbolSet h, List.length_map]

end Sys2Proof.Machine
end

