-- ==== Sys2Proof/Laws/Host.lean ====
section
/-! SUPPORT. The laws of the host's programs: running turns and lines one after another, and what a command line
does. -/

namespace Sys2Proof.Machine

open Sys2Proof

variable {α β : Type}

@[simp] theorem andThen_next (a : α) (f : α → Host.Outcome β Fault Refusal) : andThen (.next a) f = f a := rfl

/-- A run that answers a next state did so at every stage. -/
theorem andThen_eq_next {r : Host.Outcome α Fault Refusal} {f : α → Host.Outcome β Fault Refusal} {b : β} :
    andThen r f = .next b ↔ ∃ a, r = .next a ∧ f a = .next b := by
  cases r <;> simp [andThen]

theorem takeTurns_append (ts us : List Turn) (s : State) :
    takeTurns (ts ++ us) s = andThen (takeTurns ts s) (takeTurns us) := by
  induction ts generalizing s with
  | nil => rfl
  | cons t ts ih =>
    simp only [List.cons_append, takeTurns]
    cases takeTurn t s with
    | next s' => exact ih s'
    | fault f => rfl
    | refused r => rfl

theorem runLines_append (ls ms : List (List Turn)) (err : Option ErrCode) (s : State) :
    runLines (ls ++ ms) err s = andThen (runLines ls err s) fun r => runLines ms r.2 r.1 := by
  induction ls generalizing err s with
  | nil => rfl
  | cons l ls ih =>
    simp only [List.cons_append, runLines]
    cases takeTurns l s with
    | next s' => exact ih _ s'
    | fault f => rfl
    | refused r => rfl

/-- A host turn, while no model fault is recorded, is its access. -/
theorem takeTurn_host {s : State} (a : HostAccess) (h : s.mfault.isEmpty = true) :
    takeTurn (.host a) s = .next (hostAccess s a) := by
  rw [takeTurn, if_pos h]

/-- The poll at the end of a command line: STATUS is read, or a model fault the command met stops the run. -/
def pollStatus (s : State) : Host.Outcome State Fault Refusal :=
  if s.mfault.isEmpty then .next (s.answer (.word s.statusWord)) else .fault (.modelFault s.mfault)

theorem takeTurns_poll (s : State) : takeTurns [.host .readStatus] s = pollStatus s := by
  by_cases h : s.mfault.isEmpty = true
  · simp [takeTurns, takeTurn, pollStatus, h, andThen, hostAccess, HostAccess.readStatus, idleAccess, accessReadReg,
      regAt, readReg]
  · simp [takeTurns, takeTurn, pollStatus, h, andThen]

/-- Polls of STATUS, however many and whether or not the engine has moved, change only what the host has read:
the number of them that `commandLine` fixes (log entry 19) changes no state of the block. -/
theorem takeTurns_polls (n : Nat) {s : State} (h : s.mfault.isEmpty = true) :
    takeTurns (List.replicate (n + 1) (.host .readStatus)) s = .next (s.answer (.word s.statusWord)) := by
  induction n generalizing s with
  | zero => exact (takeTurns_poll s).trans (if_pos h)
  | succ n ih =>
    rw [List.replicate_succ, ← List.singleton_append, takeTurns_append, takeTurns_poll, pollStatus, if_pos h,
      andThen_next]
    exact ih (s := s.answer (.word s.statusWord)) h

/-- What a command line does in an idle state: the command is issued, performed and polled (30_encoding.md
R97). -/
theorem takeTurns_commandLine {s : State} {i : Instr} (hd : decode (encode i) = .ok i)
    (hm : s.mfault.isEmpty = true) (hb : s.busy = false) :
    takeTurns (commandLine i) s = andThen (exec i (s.issue (encode i))) pollStatus := by
  have h1 : takeTurn (.host (.writeReg 4 0x00 (encode i))) s = .next (s.issue (encode i)) := by
    rw [takeTurn_host _ hm]
    simp [hostAccess, hb, idleAccess, accessWriteReg, regAt, writeReg]
  have h2 : takeTurn .engine (s.issue (encode i)) = exec i (s.issue (encode i)) := by
    simp [takeTurn, hm, engineTurn, performWord, hd]
  rw [commandLine, takeTurns, h1, andThen_next, takeTurns, h2]
  cases exec i (s.issue (encode i)) with
  | next t => exact takeTurns_poll t
  | fault f => rfl
  | refused r => rfl

/-- An offset line is its command line with ARG0 written. -/
theorem takeTurns_offsetLine {s : State} (i : Instr) (off : Word32) (hm : s.mfault.isEmpty = true)
    (hb : s.busy = false) : takeTurns (offsetLine i off) s = takeTurns (commandLine i) { s with arg0 := off } := by
  rw [offsetLine, takeTurns, takeTurn_host _ hm, andThen_next]
  simp [hostAccess, hb, idleAccess, accessWriteReg, regAt, writeReg]

/-- A text line is its command line with TEXT_IN loaded. -/
theorem takeTurns_textLine {s : State} (i : Instr) (t : Text) (hm : s.mfault.isEmpty = true)
    (hb : s.busy = false) : takeTurns (textLine i t) s = takeTurns (commandLine i) { s with textIn := t } := by
  rw [textLine, takeTurns, takeTurn_host _ hm, andThen_next]
  simp [hostAccess, hb, idleAccess]

end Sys2Proof.Machine
end

