-- ==== Sys2Proof/Laws/PerInstr.lean ====
section
/-! SUPPORT. Statements made per instruction: the fields of each instruction's command word
(30_encoding.md R90, R92). -/

namespace Sys2Proof.Laws.EncodedFields

open Sys2Proof

/-- The word of an instruction holds its opcode in OP, its bit operand in B and 0 in RES, and its row of the
opcode table matches it. -/
def Statement (i : Instr) : Prop :=
  opField (encode i) = i.opcode ∧ bField (encode i) = i.operandBit ∧ resField (encode i) = 0 ∧
    i.matchesRow (encode i)

theorem rdInit : Statement .rdInit := ⟨by decide, by decide, by decide, by decide⟩
theorem rdBit : Statement .rdBit := ⟨by decide, by decide, by decide, by decide⟩
theorem wrClear : Statement .wrClear := ⟨by decide, by decide, by decide, by decide⟩
theorem wrBit (b : Bool) : Statement (.wrBit b) := by cases b <;> exact ⟨by decide, by decide, by decide, by decide⟩
theorem wrPos : Statement .wrPos := ⟨by decide, by decide, by decide, by decide⟩
theorem wrFinish : Statement .wrFinish := ⟨by decide, by decide, by decide, by decide⟩
theorem freqClear : Statement .freqClear := ⟨by decide, by decide, by decide, by decide⟩
theorem freqAdd : Statement .freqAdd := ⟨by decide, by decide, by decide, by decide⟩
theorem treeBuild : Statement .treeBuild := ⟨by decide, by decide, by decide, by decide⟩
theorem decode : Statement .decode := ⟨by decide, by decide, by decide, by decide⟩
theorem encode : Statement .encode := ⟨by decide, by decide, by decide, by decide⟩

end Sys2Proof.Laws.EncodedFields
end

