-- ==== Sys2Proof/Tests/Slice0.lean ====
section
/-! SUPPORT. The model's own tests. The expected results are those of the vectors of 95_test_vectors.md that each
comment names. The witnesses at the end show, for each statement with hypotheses, a state and operands that meet
them together, at the bounds of their ranges where they have bounds. -/

namespace Sys2Proof.Tests

open Sys2Proof Sys2Proof.Machine

/-! Ill-formed words and parameters are refused. -/

theorem smoke_reserved_bit_refused : ¬ WellFormedWord 0x00000204 := by decide
theorem smoke_operand_bit_refused : ¬ WellFormedWord 0x00000101 := by decide
theorem smoke_unassigned_opcode_refused : ¬ WellFormedWord 0x00000007 := by decide
theorem smoke_both_wr_bit_words_accepted : WellFormedWord 0x00000004 ∧ WellFormedWord 0x00000104 := by decide
theorem smoke_default_parameters_legal : Config.default.Legal := by decide
theorem smoke_no_node_refused : ¬ { Config.default with nodeCap := 0 }.Legal := by decide
theorem smoke_too_many_nodes_refused : ¬ { Config.default with nodeCap := 2 ^ 31 + 1 }.Legal := by decide
theorem smoke_too_much_data_refused : ¬ { Config.default with dataCap := 2 ^ 32 }.Legal := by decide
theorem smoke_too_long_writer_refused : ¬ { Config.default with wbufCapBits := 8 * (2 ^ 32 - 1) + 1 }.Legal := by decide

/-! Each command's word, written out as RES, B, OP (30_encoding.md R90, R92), decodes to it (E1 to E12). -/

theorem word_rd_init : decode (0b00000000000000000000000#23 ++ 0b0#1 ++ 0b00000001#8) = .ok .rdInit := by decide
theorem word_rd_bit : decode (0b00000000000000000000000#23 ++ 0b0#1 ++ 0b00000010#8) = .ok .rdBit := by decide
theorem word_wr_clear : decode (0b00000000000000000000000#23 ++ 0b0#1 ++ 0b00000011#8) = .ok .wrClear := by decide
theorem word_wr_bit_zero : decode (0b00000000000000000000000#23 ++ 0b0#1 ++ 0b00000100#8) = .ok (.wrBit false) := by decide
theorem word_wr_bit_one : decode (0b00000000000000000000000#23 ++ 0b1#1 ++ 0b00000100#8) = .ok (.wrBit true) := by decide
theorem word_wr_pos : decode (0b00000000000000000000000#23 ++ 0b0#1 ++ 0b00000101#8) = .ok .wrPos := by decide
theorem word_wr_finish : decode (0b00000000000000000000000#23 ++ 0b0#1 ++ 0b00000110#8) = .ok .wrFinish := by decide
theorem word_freq_clear : decode (0b00000000000000000000000#23 ++ 0b0#1 ++ 0b00010000#8) = .ok .freqClear := by decide
theorem word_freq_add : decode (0b00000000000000000000000#23 ++ 0b0#1 ++ 0b00010001#8) = .ok .freqAdd := by decide
theorem word_tree_build : decode (0b00000000000000000000000#23 ++ 0b0#1 ++ 0b00010010#8) = .ok .treeBuild := by decide
theorem word_decode : decode (0b00000000000000000000000#23 ++ 0b0#1 ++ 0b00100000#8) = .ok .decode := by decide
theorem word_encode : decode (0b00000000000000000000000#23 ++ 0b0#1 ++ 0b00100001#8) = .ok .encode := by decide

/-- E15 to E18, and the least reserved bit. -/
theorem word_illegal : decode 0x00000101 = .error .operandBit ∧ decode 0x00000204 = .error .reservedBits ∧
    decode 0x80000020 = .error .reservedBits ∧ decode 0x00000200 = .error .reservedBits ∧
    decode 0x000000FF = .error .unassignedOpcode := by decide

/-- The opcode table's numbering: one word of 32 bits. -/
theorem test_table_word : decodeTableWord 32 0x104 = some (.wrBit true) ∧ decodeTableWord 32 0x101 = none := by decide

/-! One step on a small state. -/

/-- The state an outcome answers. -/
def after (o : Host.Outcome State Fault Refusal) : State :=
  match o with
  | .next t => t
  | .fault _ | .refused _ => State.reset

/-- The state in which a command has been issued with a text latched. -/
def issued (s : State) (t : Text) : State := { s with busy := true, pending := some ⟨0, t⟩ }

/-- The node record with two children given as integers. -/
def node (l r : Int) : NodeRecord := ⟨BitVec.ofInt 32 l, BitVec.ofInt 32 r⟩

/-- DM[0] = 0xDA, D = 1. -/
def oneByte : State := { State.reset with dm := [(0, 0xDA)], dataLen := 1 }

/-- The other bit order. -/
def msbFirst (s : State) : State := { s with cfg := { s.cfg with bitOrder := .msbFirst } }

/-- FREQ after BUILD "AB", "A" has counted. -/
def countedAB : State := { State.reset with freq := [(0, 2), (0x41, 2), (0x42, 1)] }

/-- Tree AB of 95_test_vectors.md 2.4, over the byte 0xDA. -/
def treeAB : State := { oneByte with tm := [(0, node (-66) 1), (1, node (-67) (-1))], nodeCount := 2 }

/-- The state after BUILD "AB", "A" (B1). -/
def builtAB : State :=
  { countedAB with
    tm := [(0, node (-66) 1), (1, node (-67) (-1))], nodeCount := 2, ctValid := true, result := 2
    ct := [(0, [true, true]), (0x41, [false]), (0x42, [true, false])] }

/-- B-2. -/
theorem test_rd_init : (after (exec .rdInit { oneByte with arg0 := 5 })).rdPos = 5 := by decide

/-- B-3, and B-5's OutOfRange. -/
theorem test_rd_bit : (after (exec .rdBit { oneByte with rdPos := 1 })).result = 1 ∧
    (after (exec .rdBit { oneByte with rdPos := 8 })).errInfo = 8 := by decide

/-- M1's bits 2 and 3 under MSB_FIRST are 0 and 1. -/
theorem test_rd_bit_msb : (after (exec .rdBit (msbFirst { oneByte with rdPos := 2 }))).result = 0 ∧
    (after (exec .rdBit (msbFirst { oneByte with rdPos := 3 }))).result = 1 := by decide

/-- B-11. -/
theorem test_wr_clear : (after (exec .wrClear { State.reset with wb := [true, false, true, true, true] })).wb = [] := by
  decide

/-- The example of 41_bitio.md R124, and B-14. -/
theorem test_wr_bit : (after (exec (.wrBit true) { State.reset with wb := [true, false] })).wb = [true, false, true] ∧
    (after (exec (.wrBit false) { State.reset with
      wb := [true, false], cfg := { Config.default with wbufCapBits := 2 } })).errInfo = 2 := by decide

/-- B-8's WR_POS. -/
theorem test_wr_pos : (after (exec .wrPos { State.reset with wb := [true, false, true, true] })).result = 4 := by decide

/-- B-9 and M2 under both orders. -/
theorem test_wr_finish : (after (exec .wrFinish { State.reset with wb := [true, false, true, true] })).resBytes = [0x0D] ∧
    (after (exec .wrFinish (msbFirst { State.reset with wb := [true, false, true, true] }))).resBytes = [0xB0] := by
  decide

/-- M5 under MSB_FIRST: the ninth bit opens a second byte. -/
theorem test_wr_finish_second_byte : (after (exec .wrFinish (msbFirst { State.reset with
    wb := [false, false, false, false, false, false, false, false, true] }))).resBytes = [0x00, 0x80] := by decide

/-- The example of 43_huffman_build.md R180. -/
theorem test_freq_clear : (after (exec .freqClear { State.reset with freq := [(0, 1), (0x41, 1)] })).freqOf 0x41 = 0 := by
  decide

/-- The example of 43_huffman_build.md R181. -/
theorem test_freq_add : (after (exec .freqAdd (issued State.reset [0x41, 0x42]))).freq =
    [(0, 1), (0x41, 1), (0x42, 1)] := by decide

/-- B14, and B15. -/
theorem test_freq_add_errors : (after (exec .freqAdd (issued State.reset [0x41, 0]))).errInfo = 1 ∧
    (after (exec .freqAdd (issued { State.reset with freq := [(0x41, 0xFFFFFFFF)] } [0x41]))).errInfo = 0x41 := by decide

/-- B6, where a leaf ties with a merged item: {-67, 1}, {-1, -66}. -/
theorem test_tree_build_tie : (after (exec .treeBuild { State.reset with
    freq := [(0, 1), (0x41, 1), (0x42, 2)] })).tm = [(0, node (-67) 1), (1, node (-1) (-66))] := by decide

/-- B9: the codes of "abracadabra". -/
theorem test_tree_build_codes : (after (exec .treeBuild { State.reset with
    freq := [(0, 1), (97, 5), (98, 2), (99, 1), (100, 1), (114, 2)] })).ct =
    [(0, [true, true, true, false]), (97, [false]), (98, [true, false, true]), (99, [true, true, true, true]),
     (100, [true, false, false]), (114, [true, true, false])] := by decide

/-- D2: DECODE 5 gives "A", and the cursor stands at 8. -/
theorem test_decode : (after (exec .decode { treeAB with arg0 := 5 })).resText = [0x41] ∧
    (after (exec .decode { treeAB with arg0 := 5 })).rdPos = 8 := by decide

/-- D6: the cycle 0, 1, 0 is caught at depth 2. -/
theorem test_decode_cycle : (after (exec .decode { State.reset with
    tm := [(0, node 1 (-66)), (1, node 0 (-1))], nodeCount := 2, dm := [(0, 0)], dataLen := 1 })).errInfo = 2 := by decide

/-- N2: ENCODE "A" after `01011`. -/
theorem test_encode : (after (exec .encode (issued { builtAB with wb := [false, true, false, true, true] } [0x41]))).wb =
    [false, true, false, true, true, false, true, true] := by decide

/-- N6: the first bad index wins. -/
theorem test_encode_first_bad : (after (exec .encode (issued builtAB [0x43, 0]))).errInfo = 0 ∧
    (after (exec .encode (issued builtAB [0x43, 0]))).errCode = .unknownSymbol := by decide

/-- E13: the word 0 raises IllegalCommand, and STATUS reads 0x50. -/
theorem test_illegal_command : (after (step (State.reset.withFetchWord 32 0))).statusWord = 0x50 := by decide

/-- N8: the host's write of NODE_COUNT clears CT_VALID even where the count stays. -/
theorem test_node_count_write : (after (hostStep (.writeReg 4 0x14 2) builtAB)).ctValid = false := by decide

/-- D15: TM[3] was never written. -/
theorem test_uninit_read : (after (exec .decode { oneByte with
    dm := [(0, 0)], tm := [(0, node 3 (-1))], nodeCount := 4 })).mfault.uninitRead = true := by decide

/-- K2: the file of SERIALIZE(7, 2, [(1, "AB"), (2, "")], [(1, "A")]). -/
theorem test_serialize : (match serialize 7 2 [(1, [0x41, 0x42]), (2, [])] [(1, [0x41])] State.reset with
    | .next (_, .ok bytes) => bytes
    | _ => []) =
    [0x54, 0x6C, 0x6B, 0x00, 0x07, 0x00, 0x00, 0x00, 0x02, 0x00, 0x00, 0x00, 0x02, 0x00, 0x00, 0x00,
     0x01, 0x00, 0x00, 0x00, 0x02, 0x00, 0x00, 0x00, 0x02, 0x00, 0x00, 0x00,
     0x01, 0x00, 0x00, 0x00, 0x00, 0x00, 0x00, 0x00, 0x02, 0x00, 0x00, 0x00, 0x05, 0x00, 0x00, 0x00,
     0x01, 0x00, 0x00, 0x00, 0x06, 0x00, 0x00, 0x00,
     0xFF, 0xFF, 0xFF, 0xFF, 0x01, 0x00, 0x00, 0x00, 0xBD, 0xFF, 0xFF, 0xFF, 0xBE, 0xFF, 0xFF, 0xFF,
     0xC7, 0x00] := by decide +kernel

/-- The file of S1. -/
def fileS1 : List Byte :=
  [0x54, 0x6C, 0x6B, 0x00, 0x01, 0x00, 0x00, 0x00, 0x01, 0x00, 0x00, 0x00, 0x01, 0x00, 0x00, 0x00,
   0x00, 0x00, 0x00, 0x00, 0x01, 0x00, 0x00, 0x00, 0x01, 0x00, 0x00, 0x00,
   0x64, 0x00, 0x00, 0x00, 0x00, 0x00, 0x00, 0x00, 0xFF, 0xFF, 0xFF, 0xFF, 0xBE, 0xFF, 0xFF, 0xFF, 0x01]

/-- K1. -/
theorem test_parse : (match parse fileS1 with
    | .ok d => (d.male, d.female, d.nodes, d.data)
    | .error _ => ([], [], [], [])) = ([⟨100, 0⟩], [], [node (-1) (-66)], [0x01]) := by decide

/-- K4 to K8. -/
theorem test_parse_errors : parse (fileS1.take 3) = .error .truncatedFile ∧
    parse (fileS1.set 0 0x55) = .error .invalidMagic ∧ parse (fileS1.take 27) = .error .truncatedFile ∧
    parse (fileS1.take 44) = .error .truncatedFile ∧ parse (fileS1 ++ [0x00]) = .error .trailingData := by
  refine ⟨?_, ?_, ?_, ?_, ?_⟩ <;> rfl

/-! States for the witnesses, and the invariant in them. -/

/-- FREQ after BUILD "A" has counted. -/
def countedA : State := { State.reset with freq := [(0, 1), (0x41, 1)] }

/-- FREQ after BUILD "" has counted. -/
def countedEmpty : State := { State.reset with freq := [(0, 1)] }

/-- The state after BUILD "A" (B2). -/
def builtA : State :=
  { countedA with
    tm := [(0, node (-1) (-66))], nodeCount := 1, ctValid := true, result := 1
    ct := [(0, [false]), (0x41, [true])] }

/-- One node record, over the one byte `b`. -/
def oneNode (l r : Int) (b : Byte) : State :=
  { State.reset with tm := [(0, node l r)], nodeCount := 1, dm := [(0, b)], dataLen := 1 }

theorem wf_reset : State.reset.Wf := by
  constructor <;> decide

theorem wf_countedAB : countedAB.Wf := by
  constructor <;> decide

theorem wf_countedA : countedA.Wf := by
  constructor <;> decide

theorem wf_countedEmpty : countedEmpty.Wf := by
  constructor <;> decide

theorem wf_builtA : builtA.Wf := by
  constructor <;> decide

theorem codes_reset : State.reset.CodesMatch := by
  refine ⟨?_, ?_, ?_, ?_, ?_⟩ <;> intro h <;> exact absurd h (by decide)

theorem inv_reset : State.reset.Inv := ⟨wf_reset, codes_reset⟩

theorem codeOf_builtA {u : CodeUnit} {c : Bits} (h : builtA.codeOf u = some c) :
    (u = 0 ∧ c = [false]) ∨ (u = 0x41 ∧ c = [true]) := by
  have h' : (if 0 = u.toNat then some [false] else if 0x41 = u.toNat then some [true] else none) = some c := h
  split at h'
  next hu => exact .inl ⟨BitVec.eq_of_toNat_eq hu.symm, by simpa using h'.symm⟩
  next =>
    split at h'
    next hu => exact .inr ⟨BitVec.eq_of_toNat_eq hu.symm, by simpa using h'.symm⟩
    next => simp at h'

theorem codes_builtA : builtA.CodesMatch := by
  refine ⟨fun _ => ⟨by decide, fun i hi => ?_⟩, fun _ u => ⟨?_, fun h => ?_⟩, fun _ u c h => ?_, fun _ u c h => ?_,
    fun _ => by decide⟩
  · obtain rfl : i = 0 := Nat.lt_one_iff.1 hi
    exact ⟨node (-1) (-66), rfl, .inl ⟨0, by decide⟩, .inl ⟨0x41, by decide⟩⟩
  · rintro ⟨i, rec, b, hi, hr, hb⟩
    obtain rfl : i = 0 := Nat.lt_one_iff.1 hi
    obtain rfl : node (-1) (-66) = rec := Option.some.inj hr
    cases b with
    | false =>
      obtain rfl : 0 = u := leafValue_inj (show leafValue 0 = leafValue u from hb)
      decide
    | true =>
      obtain rfl : 0x41 = u := leafValue_inj (show leafValue 0x41 = leafValue u from hb)
      decide
  · obtain ⟨c, hc⟩ := Option.ne_none_iff_exists'.1 h
    rcases codeOf_builtA hc with ⟨rfl, -⟩ | ⟨rfl, -⟩
    · exact ⟨0, node (-1) (-66), false, by decide, rfl, by decide⟩
    · exact ⟨0, node (-1) (-66), true, by decide, rfl, by decide⟩
  · rcases codeOf_builtA h with ⟨rfl, rfl⟩ | ⟨rfl, rfl⟩ <;> decide
  · rcases codeOf_builtA h with ⟨rfl, rfl⟩ | ⟨rfl, rfl⟩ <;> decide

theorem inv_builtA : builtA.Inv := ⟨wf_builtA, codes_builtA⟩

theorem symbolSet_countedAB : countedAB.symbolSet = [0, 0x41, 0x42] := by
  rw [← symbols_eq_symbolSet wf_countedAB]; decide

theorem symbolSet_countedA : countedA.symbolSet = [0, 0x41] := by
  rw [← symbols_eq_symbolSet wf_countedA]; decide

theorem symbolSet_countedEmpty : countedEmpty.symbolSet = [0] := by
  rw [← symbols_eq_symbolSet wf_countedEmpty]; decide

theorem symbolSet_reset : State.reset.symbolSet = [] := by
  rw [← symbols_eq_symbolSet wf_reset]; decide

theorem decode_ne_ok {w : Word32} {e : Illegal} (h : decode w = .error e) : ∀ i, decode w ≠ .ok i := by
  intro i; rw [h]; simp

/-- The state in which the engine has the word to perform, with a text. -/
def running (s : State) (w : Word32) (t : Text) : State := { s with busy := true, pending := some ⟨w, t⟩ }

/-- The engine's turn comes first in a non-empty agenda. -/
def engineFirst (s : State) : State := { s with agenda := [.engine] }

/-! The witnesses. -/

theorem witness_IllegalWordRaisesIllegalCommand :
    (running State.reset 0x07 []).Running ⟨0x07, []⟩ ∧ (running State.reset 0x101 []).Running ⟨0x101, []⟩ ∧
    (running State.reset 0x204 []).Running ⟨0x204, []⟩ ∧ (running State.reset 0x07 []).agenda = [] ∧
    (engineFirst (running State.reset 0x07 [])).Running ⟨0x07, []⟩ ∧
    (engineFirst (running State.reset 0x07 [])).agenda = [.engine] ∧
    (∀ i, decode 0x07 ≠ .ok i) ∧ (∀ i, decode 0x101 ≠ .ok i) ∧ (∀ i, decode 0x204 ≠ .ok i) :=
  ⟨⟨rfl, rfl, rfl⟩, ⟨rfl, rfl, rfl⟩, ⟨rfl, rfl, rfl⟩, rfl, ⟨rfl, rfl, rfl⟩, rfl, decode_ne_ok (e := .unassignedOpcode) (by decide),
   decode_ne_ok (e := .operandBit) (by decide), decode_ne_ok (e := .reservedBits) (by decide)⟩

theorem witness_DecodeIsInverseOfEncode : decode 0x104 = .ok (.wrBit true) ∧ encode (.wrBit true) = 0x104 := by decide

theorem witness_DecodeMatchesTableRows : Instr.wrBit false ∈ instrRows := by decide

theorem witness_StepPerformsLatchedCommand :
    (running oneByte 0x02 []).Running ⟨0x02, []⟩ ∧ decode 0x02 = .ok .rdBit ∧ (running oneByte 0x02 []).agenda = [] ∧
    (engineFirst (running oneByte 0x02 [])).Running ⟨0x02, []⟩ ∧ (engineFirst (running oneByte 0x02 [])).agenda = [.engine] ∧
    State.reset.mfault.isEmpty = true :=
  ⟨⟨rfl, rfl, rfl⟩, by decide, rfl, ⟨rfl, rfl, rfl⟩, rfl, rfl⟩

theorem witness_RdBitReadsBitAtCursor :
    8 * oneByte.dataLen.toNat ≤ ({ oneByte with rdPos := 8 } : State).rdPos.toNat ∧
    ({ oneByte with rdPos := 7 } : State).rdPos.toNat < 8 * oneByte.dataLen.toNat ∧
    ({ oneByte with rdPos := 7 } : State).byteAt (7 / 8) = some 0xDA ∧
    ({ oneByte with dm := [], rdPos := 7 } : State).byteAt (7 / 8) = none := by decide

theorem witness_ReaderReturnsStreamInOrder :
    (∀ j, j < oneByte.dataLen.toNat → oneByte.byteAt j ≠ none) ∧
    ({ oneByte with arg0 := 3 } : State).arg0.toNat + 4 < oneByte.bitLength ∧ bitAt oneByte (3 + 4) = some true ∧
    oneByte.bitLength ≤ ({ oneByte with arg0 := 3 } : State).arg0.toNat + 5 ∧
    oneByte.bitLength ≤ ({ oneByte with arg0 := 100 } : State).arg0.toNat + 0 := by
  refine ⟨fun j hj => ?_, by decide, by decide, by decide, by decide⟩
  obtain rfl : j = 0 := Nat.lt_one_iff.1 hj
  decide

theorem witness_WrBitAppendsBit :
    ({ Config.default with wbufCapBits := 2 } : Config).wbufCapBits ≤ [true, false].length ∧
    [true].length < ({ Config.default with wbufCapBits := 2 } : Config).wbufCapBits := by decide

theorem witness_ReaderReadsWhatWriterPacked :
    ({ oneByte with dm := [(0, 0x0D)] } : State).dataLen.toNat = (pack .lsbFirst [true, false, true, true]).length ∧
    (∀ j, j < (pack .lsbFirst [true, false, true, true]).length →
      ({ oneByte with dm := [(0, 0x0D)] } : State).byteAt j = (pack .lsbFirst [true, false, true, true])[j]?) ∧
    3 < [true, false, true, true].length ∧ [true, false, true, true].length ≤ 4 ∧ 7 < 8 * oneByte.dataLen.toNat := by
  refine ⟨by decide, fun j hj => ?_, by decide, by decide, by decide⟩
  obtain rfl : j = 0 := Nat.lt_one_iff.1 hj
  decide

theorem witness_WriterCollectsBits :
    [true, false].length ≤ ({ Config.default with wbufCapBits := 2 } : Config).wbufCapBits := by decide

theorem witness_FreqAddCountsText_illegal :
    Rising State.reset.freq ∧ (issued State.reset [0x41, 0]).textOperand[1]? = some terminator ∧
    ∀ j, j < 1 → (issued State.reset [0x41, 0]).textOperand[j]? ≠ some terminator := by
  refine ⟨by decide, by decide, fun j hj => ?_⟩
  obtain rfl : j = 0 := Nat.lt_one_iff.1 hj
  decide

/-- The counter of 'A' is full: the units below it are counted at most once. -/
theorem witness_FreqAddCountsText_full :
    Rising ({ State.reset with freq := [(0x41, 0xFFFFFFFF)] } : State).freq ∧ terminator ∉ ([0x41] : Text) ∧
    2 ^ 32 - 1 < (({ State.reset with freq := [(0x41, 0xFFFFFFFF)] } : State).freqOf 0x41).toNat +
      ([0x41] : Text).count 0x41 + (if (0x41 : CodeUnit) = terminator then 1 else 0) ∧
    ∀ v : CodeUnit, v.toNat < (0x41 : CodeUnit).toNat →
      (({ State.reset with freq := [(0x41, 0xFFFFFFFF)] } : State).freqOf v).toNat + ([0x41] : Text).count v +
        (if v = terminator then 1 else 0) ≤ 2 ^ 32 - 1 := by
  refine ⟨by decide, by decide, by decide, fun v hv => ?_⟩
  have hne : (0x41 : Nat) ≠ v.toNat := Nat.ne_of_gt hv
  have h1 : ({ State.reset with freq := [(0x41, 0xFFFFFFFF)] } : State).freqOf v = 0 := by
    simp [State.freqOf, tableGet, hne]
  have h2 : ([0x41] : Text).count v ≤ 1 := List.count_le_length
  have h3 : (0 : Word32).toNat = 0 := rfl
  rw [h1, h3]
  split <;> omega

/-- The counter of 'A' has room for one more, and no other counter holds anything. -/
theorem witness_FreqAddCountsText_counts :
    terminator ∉ ([0x41] : Text) ∧
    ∀ u : CodeUnit, (({ State.reset with freq := [(0x41, 0xFFFFFFFE)] } : State).freqOf u).toNat +
      ([0x41] : Text).count u + (if u = terminator then 1 else 0) ≤ 2 ^ 32 - 1 := by
  refine ⟨by decide, fun u => ?_⟩
  by_cases hu : u = 0x41
  · subst hu; decide
  · have hne : ¬ (0x41 : Nat) = u.toNat := fun h => hu (BitVec.eq_of_toNat_eq h.symm)
    have h1 : ({ State.reset with freq := [(0x41, 0xFFFFFFFE)] } : State).freqOf u = 0 := by
      simp [State.freqOf, tableGet, hne]
    have h2 : ([0x41] : Text).count u ≤ 1 := List.count_le_length
    have h3 : (0 : Word32).toNat = 0 := rfl
    rw [h1, h3]
    split <;> omega

theorem witness_FreqAddsCommute : ∃ s1 s2 s12 s21 : State, Rising State.reset.freq ∧
    execWithText .freqAdd [0x41] State.reset = .next s1 ∧ s1.errCode = .ok ∧
    execWithText .freqAdd [0x42] s1 = .next s12 ∧ s12.errCode = .ok ∧
    execWithText .freqAdd [0x42] State.reset = .next s2 ∧ s2.errCode = .ok ∧
    execWithText .freqAdd [0x41] s2 = .next s21 :=
  ⟨after (execWithText .freqAdd [0x41] State.reset), after (execWithText .freqAdd [0x42] State.reset),
   after (execWithText .freqAdd [0x42] (after (execWithText .freqAdd [0x41] State.reset))),
   after (execWithText .freqAdd [0x41] (after (execWithText .freqAdd [0x42] State.reset))),
   by decide, rfl, rfl, rfl, rfl, rfl, rfl, rfl⟩

theorem witness_TreeBuildWritesTree :
    (State.reset.Wf ∧ State.reset.symbolSet = []) ∧
    (countedAB.symbolSet ≠ [] ∧ 1 < max 1 (countedAB.symbolSet.length - 1)) ∧
    (countedAB.Wf ∧ max 1 (countedAB.symbolSet.length - 1) ≤ countedAB.cfg.nodeCap) ∧
    (countedEmpty.Wf ∧ countedEmpty.symbolSet ≠ [] ∧ max 1 (countedEmpty.symbolSet.length - 1) ≤ 1) := by
  rw [symbolSet_reset, symbolSet_countedAB, symbolSet_countedEmpty]
  exact ⟨⟨wf_reset, rfl⟩, by decide, ⟨wf_countedAB, by decide⟩, wf_countedEmpty, by decide, by decide⟩

/-- With room for one record, three symbols are too many: B13's state is well-formed. -/
theorem witness_TreeBuildWritesTree_full : ({ countedAB with cfg := { Config.default with nodeCap := 1 } } : State).Wf := by
  constructor <;> decide

theorem witness_SingleSymbolBuildsDegenerateTree : countedEmpty.Wf ∧ countedEmpty.symbolSet = [0] :=
  ⟨wf_countedEmpty, symbolSet_countedEmpty⟩

/-- It serves BuiltTreeIsGreedyMerge, BuiltTreeIsValid and CodeLengthsAreBounded; the least case is two symbols. -/
theorem witness_BuiltTreeIsGreedyMerge :
    (∃ t, countedAB.Wf ∧ 2 ≤ countedAB.symbolSet.length ∧ exec .treeBuild countedAB = .next t ∧ t.errCode = .ok) ∧
    (∃ t, countedA.Wf ∧ 2 ≤ countedA.symbolSet.length ∧ exec .treeBuild countedA = .next t ∧ t.errCode = .ok) := by
  rw [symbolSet_countedAB, symbolSet_countedA]
  exact ⟨⟨after (exec .treeBuild countedAB), wf_countedAB, by decide, rfl, rfl⟩,
    ⟨after (exec .treeBuild countedA), wf_countedA, by decide, rfl, rfl⟩⟩

theorem witness_BuiltTreeIsValid :
    ∃ t, countedAB.Wf ∧ 2 ≤ countedAB.symbolSet.length ∧ exec .treeBuild countedAB = .next t ∧ t.errCode = .ok :=
  witness_BuiltTreeIsGreedyMerge.1

theorem witness_CodeLengthsAreBounded :
    (∃ t, countedA.Wf ∧ exec .treeBuild countedA = .next t ∧ t.errCode = .ok ∧ 2 ≤ countedA.symbolSet.length) ∧
    (∃ t, countedEmpty.Wf ∧ exec .treeBuild countedEmpty = .next t ∧ t.errCode = .ok ∧
      countedEmpty.symbolSet.length = 1) := by
  rw [symbolSet_countedA, symbolSet_countedEmpty]
  exact ⟨⟨after (exec .treeBuild countedA), wf_countedA, rfl, rfl, by decide⟩,
    ⟨after (exec .treeBuild countedEmpty), wf_countedEmpty, rfl, rfl, by decide⟩⟩

theorem witness_BuildDependsOnFreqAlone :
    ∃ t t', ({ treeAB with freq := countedAB.freq } : State).freq = countedAB.freq ∧
      exec .treeBuild countedAB = .next t ∧ t.errCode = .ok ∧
      exec .treeBuild { treeAB with freq := countedAB.freq } = .next t' ∧ t'.errCode = .ok :=
  ⟨after (exec .treeBuild countedAB), after (exec .treeBuild { treeAB with freq := countedAB.freq }),
   rfl, rfl, rfl, rfl, rfl⟩

/-- No root; the stream exhausted at its end (D13); a byte of the segment never written. -/
theorem witness_DecodeFollowsPseudocode_stream :
    State.reset.nodeCount = 0 ∧
    (({ oneNode (-1) (-66) 2 with arg0 := 8 } : State).nodeCount ≠ 0 ∧
      DecodeReaches { oneNode (-1) (-66) 2 with arg0 := 8 } 8 8 [] 0 0 ∧
      ({ oneNode (-1) (-66) 2 with arg0 := 8 } : State).bitLength ≤ 8) ∧
    (DecodeReaches { oneNode (-1) (-66) 2 with arg0 := 8, dataLen := 2 } 8 8 [] 0 0 ∧
      8 < ({ oneNode (-1) (-66) 2 with arg0 := 8, dataLen := 2 } : State).bitLength ∧
      bitAt { oneNode (-1) (-66) 2 with arg0 := 8, dataLen := 2 } 8 = none) :=
  ⟨by decide, ⟨by decide, .start, by decide⟩, .start, by decide, by decide⟩

/-- The walk of D15 reaches a record never written. -/
theorem witness_DecodeFollowsPseudocode_record :
    ({ oneNode 3 (-1) 0 with nodeCount := 4 } : State).nodeCount ≠ 0 ∧
    DecodeReaches { oneNode 3 (-1) 0 with nodeCount := 4 } 0 1 [] 3 1 ∧
    1 < ({ oneNode 3 (-1) 0 with nodeCount := 4 } : State).bitLength ∧
    bitAt { oneNode 3 (-1) 0 with nodeCount := 4 } 1 = some false ∧
    ({ oneNode 3 (-1) 0 with nodeCount := 4 } : State).nodeAt 3 = none :=
  ⟨by decide, .descend 0 0 0 [] false (node 3 (-1)) .start (by decide) (by decide) rfl (by decide) (by decide)
    (by decide), by decide, by decide, by decide⟩

/-- A leaf: just below the range (D8), the terminator after one unit, and the two ends of the range with no
room. -/
theorem witness_DecodeFollowsPseudocode_leaf :
    (bitAt (oneNode (-65537) (-1) 0) 0 = some false ∧ (oneNode (-65537) (-1) 0).nodeAt 0 = some (node (-65537) (-1)) ∧
      ((node (-65537) (-1)).child false).toInt < -65536) ∧
    (DecodeReaches (oneNode (-1) (-66) 1) 0 1 [0x41] 0 0 ∧ bitAt (oneNode (-1) (-66) 1) 1 = some false ∧
      (node (-1) (-66)).child false = -1) ∧
    (({ Config.default with outCap := 0 } : Config).outCap ≤ ([] : Text).length ∧
      -65536 ≤ ((node (-65536) (-2)).child false).toInt ∧ ((node (-65536) (-2)).child false).toInt < -1 ∧
      -65536 ≤ ((node (-65536) (-2)).child true).toInt ∧ ((node (-65536) (-2)).child true).toInt < -1) :=
  ⟨by decide, ⟨.emit 0 0 0 [] true (node (-1) (-66)) 0x41 .start (by decide) (by decide) rfl (by decide) (by decide)
    (by decide) (by decide), by decide, by decide⟩, by decide⟩

/-- An index: N itself, and the guard with one node (D5). -/
theorem witness_DecodeFollowsPseudocode_index :
    (0 ≤ ((node 1 (-1)).child false).toInt ∧ (oneNode 1 (-1) 0).nodeCount.toNat ≤ ((node 1 (-1)).child false).toNat ∧
      bitAt (oneNode 1 (-1) 0) 0 = some false) ∧
    (0 ≤ ((node 0 (-66)).child false).toInt ∧ ((node 0 (-66)).child false).toNat < (oneNode 0 (-66) 0).nodeCount.toNat ∧
      (oneNode 0 (-66) 0).nodeCount.toNat ≤ 0 + 1 ∧ bitAt (oneNode 0 (-66) 0) 0 = some false) := by decide

/-- D1: "AB" and the terminator stand coded in 0xDA from 0 to 5; there is room for two units and no more. -/
theorem witness_DecodeReturnsSpelledText :
    spells { treeAB with cfg := { Config.default with outCap := 2 } } 0 [0x41, 0x42] 5 ∧
    ([0x41, 0x42] : Text).length ≤ ({ Config.default with outCap := 2 } : Config).outCap := by
  refine ⟨⟨by decide, [false], ⟨by decide, by decide, by decide, ?_⟩, by decide, [true, false],
    ⟨by decide, by decide, by decide, ?_⟩, [true, true], ⟨by decide, by decide, by decide, ?_⟩, rfl⟩, by decide⟩
  all_goals decide

/-- Two nodes without a cycle, over a stream that ends within a text. -/
theorem witness_CycleGuardNeedsCycle :
    ∃ t, (∀ i rec b, i < ({ treeAB with dm := [(0, 0)] } : State).nodeCount.toNat →
        ({ treeAB with dm := [(0, 0)] } : State).nodeAt i = some rec → 0 ≤ (rec.child b).toInt →
        (rec.child b).toNat < ({ treeAB with dm := [(0, 0)] } : State).nodeCount.toNat →
        (fun n => 2 - n) (rec.child b).toNat < (fun n => 2 - n) i) ∧
      exec .decode { treeAB with dm := [(0, 0)] } = .next t ∧ t.mfault.isEmpty = true ∧ t.errCode = .malformedStream := by
  refine ⟨after (exec .decode { treeAB with dm := [(0, 0)] }), fun i rec b hi hr h0 hn => ?_, rfl, rfl, rfl⟩
  have hi' : i < 2 := hi
  have h01 : i = 0 ∨ i = 1 := by omega
  rcases h01 with rfl | rfl
  · obtain rfl : node (-66) 1 = rec := Option.some.inj hr
    cases b
    · exact absurd h0 (by decide)
    · decide
  · obtain rfl : node (-67) (-1) = rec := Option.some.inj hr
    cases b <;> exact absurd h0 (by decide)

/-- Tree AB in a state that differs where DECODE does not look. -/
def otherAB : State :=
  { builtAB with dm := [(0, 0xDA), (1, 7)], dataLen := 1, tm := treeAB.tm ++ [(9, node 0 0)], wb := [true], rdPos := 3 }

theorem witness_DecodeDependsOnItsInputs :
    ∃ t, otherAB.nodeCount = treeAB.nodeCount ∧ otherAB.dataLen = treeAB.dataLen ∧ otherAB.arg0 = treeAB.arg0 ∧
      otherAB.cfg.bitOrder = treeAB.cfg.bitOrder ∧ otherAB.cfg.outCap = treeAB.cfg.outCap ∧
      (∀ i, i < treeAB.nodeCount.toNat → otherAB.nodeAt i = treeAB.nodeAt i) ∧
      (∀ j, j < treeAB.dataLen.toNat → otherAB.byteAt j = treeAB.byteAt j) ∧
      otherAB.mfault.isEmpty = true ∧ exec .decode treeAB = .next t ∧ t.mfault.isEmpty = true := by
  refine ⟨after (exec .decode treeAB), rfl, rfl, rfl, rfl, rfl, fun i hi => ?_, fun j hj => ?_, rfl, rfl,
    rfl⟩
  · have hi' : i < 2 := hi
    have h01 : i = 0 ∨ i = 1 := by omega
    rcases h01 with rfl | rfl <;> rfl
  · obtain rfl : j = 0 := Nat.lt_one_iff.1 hj
    rfl

theorem witness_DecodedTextHasNoTerminator : ∃ t, exec .decode treeAB = .next t ∧ t.mfault.isEmpty = true :=
  ⟨after (exec .decode treeAB), rfl, rfl⟩

/-- The stream 0xFF holds eight 'A's and no terminator (D9). -/
theorem witness_BuiltTreeNeverMalformed :
    ∃ t, ({ builtA with dm := [(0, 0xFF)], dataLen := 1 } : State).CodesMatch ∧ builtA.ctValid = true ∧
      exec .decode { builtA with dm := [(0, 0xFF)], dataLen := 1 } = .next t ∧ t.mfault.isEmpty = true ∧
      t.errCode = .malformedStream := by
  refine ⟨after (exec .decode { builtA with dm := [(0, 0xFF)], dataLen := 1 }), ?_, rfl, rfl, rfl, rfl⟩
  obtain ⟨h1, h2, h3, h4, h5⟩ := codes_builtA
  refine ⟨fun h => ⟨(h1 h).1, (h1 h).2⟩, h2, fun _ u c h => ?_, h4, h5⟩
  rcases codeOf_builtA h with ⟨rfl, rfl⟩ | ⟨rfl, rfl⟩ <;> decide

theorem witness_EncodeAppendsCodeString_errors :
    State.reset.ctValid = false ∧ builtA.ctValid = true ∧
    ((issued builtA [0x41, 0]).textOperand[1]? = some terminator ∧
      ∀ j v, j < 1 → (issued builtA [0x41, 0]).textOperand[j]? = some v → v ≠ terminator ∧ builtA.codeOf v ≠ none) ∧
    ((issued builtA [0x43, 0]).textOperand[0]? = some 0x43 ∧ (0x43 : CodeUnit) ≠ terminator ∧
      builtA.codeOf 0x43 = none) := by
  refine ⟨rfl, rfl, ⟨by decide, fun j v hj hv => ?_⟩, by decide⟩
  obtain rfl : j = 0 := Nat.lt_one_iff.1 hj
  obtain rfl : (0x41 : CodeUnit) = v := by simpa [issued, State.textOperand] using hv
  decide

/-- The codes of "A" and the terminator are two bits, and the writer has room for exactly two. -/
theorem witness_EncodeAppendsCodeString_appends :
    terminator ∉ (issued builtA [0x41]).textOperand ∧
    List.Forall₂ (fun u c => builtA.codeOf u = some c) ((issued builtA [0x41]).textOperand ++ [terminator])
      [[true], [false]] ∧
    builtA.wb.length ≤ 2 ^ 32 - 1 ∧
    builtA.wb.length + ([[true], [false]] : List Bits).flatten.length ≤
      ({ Config.default with wbufCapBits := 2 } : Config).wbufCapBits ∧
    ({ Config.default with wbufCapBits := 1 } : Config).wbufCapBits <
      builtA.wb.length + ([[true], [false]] : List Bits).flatten.length ∧
    2 ^ 32 - 1 < ({ builtA with wb := List.replicate (2 ^ 32) true } : State).wb.length := by
  refine ⟨by decide, .cons rfl (.cons rfl .nil), by decide, by decide, by decide, ?_⟩
  rw [show ({ builtA with wb := List.replicate (2 ^ 32) true } : State).wb = List.replicate (2 ^ 32) true from rfl,
    List.length_replicate]
  decide

/-- "A" twice: it serves EncodingsConcatenate too. -/
theorem witness_EncodeOffsetsIncrease :
    ∃ s1 s2, builtA.Wf ∧ execWithText .encode [0x41] builtA = .next s1 ∧ s1.errCode = .ok ∧
      execWithText .encode [0x41] s1 = .next s2 ∧ s2.errCode = .ok :=
  ⟨after (execWithText .encode [0x41] builtA), after (execWithText .encode [0x41] (after (execWithText .encode [0x41] builtA))),
   wf_builtA, rfl, rfl, rfl, rfl⟩

theorem witness_EncodingsConcatenate :
    ∃ s1 s2, execWithText .encode [0x41] builtA = .next s1 ∧ s1.errCode = .ok ∧
      execWithText .encode [0x41] s1 = .next s2 ∧ s2.errCode = .ok :=
  witness_EncodeOffsetsIncrease.imp fun _ => fun ⟨s2, _, h⟩ => ⟨s2, h⟩

/-- S1's string: WB is `10`, one byte 0x01. -/
theorem witness_EncodeDecodeRoundTrip :
    ∃ s1, builtA.Inv ∧ execWithText .encode [0x41] builtA = .next s1 ∧ s1.errCode = .ok ∧
      codeString builtA [0x41] = some [true, false] ∧
      ({ s1 with dm := [(0, 0x01)], dataLen := 1 } : State).tm = s1.tm ∧
      ({ s1 with dm := [(0, 0x01)], dataLen := 1 } : State).dataLen.toNat = (pack s1.cfg.bitOrder s1.wb).length ∧
      (∀ j, j < (pack s1.cfg.bitOrder s1.wb).length →
        ({ s1 with dm := [(0, 0x01)], dataLen := 1 } : State).byteAt j = (pack s1.cfg.bitOrder s1.wb)[j]?) ∧
      ({ s1 with dm := [(0, 0x01)], dataLen := 1 } : State).arg0.setWidth 64 = s1.result ∧
      ([0x41] : Text).length ≤ s1.cfg.outCap := by
  refine ⟨after (execWithText .encode [0x41] builtA), inv_builtA, rfl, rfl, rfl, rfl, rfl, fun j hj => ?_, rfl, by decide⟩
  have hj' : j < 1 := hj
  obtain rfl : j = 0 := Nat.lt_one_iff.1 hj'
  decide

/-- It serves ErrorsAreNotSticky too. -/
theorem witness_CommandsRaiseOnlyTheirErrors :
    ∃ t, exec .rdBit State.reset = .next t ∧ t.mfault.isEmpty = true ∧ t.errCode = .outOfRange :=
  ⟨after (exec .rdBit State.reset), rfl, rfl, rfl⟩

/-- Every record and byte of tree AB's inputs is written; over 0xDA DECODE 0 records no fault. -/
theorem witness_DecodeAlwaysCompletes :
    (after (exec .decode treeAB)).mfault.isEmpty = true ∧
    (∀ i, i < treeAB.nodeCount.toNat → treeAB.nodeAt i ≠ none) ∧
    (∀ j, j < treeAB.dataLen.toNat → treeAB.byteAt j ≠ none) := by
  refine ⟨by decide, fun i hi => ?_, fun j hj => ?_⟩
  · have hi' : i < 2 := hi
    have h01 : i = 0 ∨ i = 1 := by omega
    rcases h01 with rfl | rfl <;> decide
  · obtain rfl : j = 0 := Nat.lt_one_iff.1 hj
    decide

theorem witness_ErrorsArePrecise :
    (∃ t, exec .rdBit State.reset = .next t ∧ t.mfault.isEmpty = true ∧ t.errCode ≠ .ok ∧ Instr.rdBit ≠ .decode) ∧
    (∃ t, exec .decode State.reset = .next t ∧ t.mfault.isEmpty = true ∧ t.errCode ≠ .ok) ∧
    (∃ t, exec .decode (oneNode 1 (-1) 0) = .next t ∧ t.mfault.isEmpty = true ∧ t.errCode ≠ .ok) :=
  ⟨⟨after (exec .rdBit State.reset), rfl, rfl, by decide, by decide⟩,
   ⟨after (exec .decode State.reset), rfl, rfl, by decide⟩,
   ⟨after (exec .decode (oneNode 1 (-1) 0)), rfl, rfl, by decide⟩⟩

theorem witness_ErrorsAreNotSticky : ∃ t, exec .wrPos State.reset = .next t ∧ t.mfault.isEmpty = true :=
  ⟨after (exec .wrPos State.reset), rfl, rfl⟩

theorem witness_SuccessClearsErrorAndBusy :
    ∃ t, exec (.wrBit true) State.reset = .next t ∧ t.mfault.isEmpty = true ∧ t.errCode = .ok ∧
      Instr.wrBit true ∈ ([.rdInit, .wrClear, .wrBit false, .wrBit true, .freqClear, .freqAdd] : List Instr) :=
  ⟨after (exec (.wrBit true) State.reset), rfl, rfl, rfl, by decide⟩

theorem witness_EveryCommandCompletes : State.reset.CodesMatch ∧ builtA.CodesMatch := ⟨codes_reset, codes_builtA⟩

theorem witness_CommandsWriteOnlyTheirState :
    (∃ t, exec .encode (issued builtA [0x41]) = .next t) ∧ (∃ t, exec .treeBuild countedAB = .next t) ∧
    (∃ t, exec .decode treeAB = .next t) ∧ (∃ t, exec .freqAdd (issued State.reset [0x41]) = .next t) :=
  ⟨⟨after (exec .encode (issued builtA [0x41])), rfl⟩, ⟨after (exec .treeBuild countedAB), rfl⟩,
   ⟨after (exec .decode treeAB), rfl⟩, ⟨after (exec .freqAdd (issued State.reset [0x41])), rfl⟩⟩

/-- It serves HostWritesRegisters, whose bounds are NODE_CAP and DATA_CAP themselves. -/
theorem witness_HostReadsRegisters :
    State.reset.mfault.isEmpty = true ∧ State.reset.Idle ∧ (running State.reset 1 []).mfault.isEmpty = true :=
  ⟨rfl, ⟨rfl, rfl⟩, rfl⟩

theorem witness_HostWritesRegisters :
    State.reset.Idle ∧ (65535 : Word32).toNat ≤ State.reset.cfg.nodeCap ∧
    (0xFFFFFFFF : Word32).toNat ≤ State.reset.cfg.dataCap :=
  ⟨⟨rfl, rfl⟩, by decide, by decide⟩

theorem witness_HostUsesPorts :
    treeAB.Idle ∧ 65534 < treeAB.cfg.nodeCap ∧ treeAB.nodeAt 1 = some (node (-67) (-1)) ∧ treeAB.nodeAt 65534 = none ∧
    2 ^ 32 - 2 < treeAB.cfg.dataCap ∧ treeAB.byteAt 0 = some 0xDA ∧ treeAB.byteAt (2 ^ 32 - 2) = none :=
  ⟨⟨rfl, rfl⟩, by decide, by decide, by decide, by decide, by decide, by decide⟩

/-- A wrong width; a reserved, an unaligned and a write-only offset; a read-only one; a value above each capacity;
an index at each capacity. -/
theorem witness_HostRangeIsRecorded :
    (∀ b, ({ State.reset with cfg := { Config.default with dataCap := b } } : State).Idle) ∧
    (2 ≠ 4 ∧ (0x1C : Nat) ∉ [0x04, 0x08, 0x0C, 0x10, 0x14, 0x18, 0x20, 0x24, 0x28, 0x2C, 0x30, 0x34] ∧
      (0x05 : Nat) ∉ [0x04, 0x08, 0x0C, 0x10, 0x14, 0x18, 0x20, 0x24, 0x28, 0x2C, 0x30, 0x34] ∧
      (0x00 : Nat) ∉ [0x04, 0x08, 0x0C, 0x10, 0x14, 0x18, 0x20, 0x24, 0x28, 0x2C, 0x30, 0x34]) ∧
    (0x04 : Nat) ∉ [0x00, 0x10, 0x14, 0x18] ∧ State.reset.cfg.nodeCap < (65536 : Word32).toNat ∧
    ({ Config.default with dataCap := 1 } : Config).dataCap < (2 : Word32).toNat ∧
    State.reset.cfg.nodeCap ≤ 65535 ∧ State.reset.cfg.dataCap ≤ 2 ^ 32 - 1 :=
  ⟨fun _ => ⟨rfl, rfl⟩, by decide, by decide, by decide, by decide, by decide, by decide⟩

theorem witness_BusyAccessIsHazard :
    (running State.reset 1 []).mfault.isEmpty = true ∧ (running State.reset 1 []).busy = true ∧
    HostAccess.readReg 4 0x08 ≠ .readReg 4 0x04 := by decide

theorem witness_RecordedFaultStopsMachine :
    (State.reset.recordFault .hostRange).mfault ≠ FaultSet.empty := by decide

theorem witness_HostReadsHaveNoSideEffect :
    treeAB.mfault.isEmpty = true ∧ ∃ j, HostAccess.readData 0 = .readData j := ⟨rfl, 0, rfl⟩

/-- A write of the count that is there already; a write of a count above NODE_CAP; a write of ARG0. -/
theorem witness_HostClearsCodeTableOnTreeWrites :
    (∃ t, hostStep (.writeReg 4 0x14 1) builtA = .next t ∧
      (HostAccess.writeReg 4 0x14 1).writesTree = true ∧ t.mfault.isEmpty = true) ∧
    (∃ t, hostStep (.writeReg 4 0x14 65536) builtA = .next t ∧
      ¬ ((HostAccess.writeReg 4 0x14 65536).writesTree = true ∧ t.mfault.isEmpty = true)) ∧
    (∃ t, hostStep (.writeReg 4 0x10 1) builtA = .next t ∧
      ¬ ((HostAccess.writeReg 4 0x10 1).writesTree = true ∧ t.mfault.isEmpty = true)) :=
  ⟨⟨after (hostStep (.writeReg 4 0x14 1) builtA), rfl, by decide, by decide⟩,
   ⟨after (hostStep (.writeReg 4 0x14 65536) builtA), rfl, by decide⟩,
   ⟨after (hostStep (.writeReg 4 0x10 1) builtA), rfl, by decide⟩⟩

/-- A step that builds a tree: it serves StepKeepsParametersAndFaults too. -/
theorem witness_StepKeepsWellFormed : ∃ t, (running countedAB 0x12 []).Wf ∧ step (running countedAB 0x12 []) = .next t :=
  ⟨after (step (running countedAB 0x12 [])), by constructor <;> decide, rfl⟩

theorem witness_StepKeepsCodesMatching :
    ∃ t, (running countedAB 0x12 []).Inv ∧ step (running countedAB 0x12 []) = .next t ∧ t.ctValid = true := by
  obtain ⟨-, hw, -⟩ := witness_StepKeepsWellFormed
  refine ⟨after (step (running countedAB 0x12 [])), ⟨hw, ?_⟩, rfl, rfl⟩
  refine ⟨?_, ?_, ?_, ?_, ?_⟩ <;> intro h <;> exact absurd h (by decide)

/-- The second clause: a step of the host that records a fault. -/
theorem witness_StepKeepsParametersAndFaults :
    ∃ t, hostStep (.readNode 0) State.reset = .next t ∧ t.mfault ≠ FaultSet.empty :=
  ⟨after (hostStep (.readNode 0) State.reset), rfl, by decide⟩

theorem witness_ResetState : 65534 < State.reset.cfg.nodeCap ∧ 2 ^ 32 - 2 < State.reset.cfg.dataCap := by decide

theorem witness_WrFinishPacksWriter : 7 < 8 * (pack .lsbFirst [true]).length := by decide

theorem witness_FlattenFollowsVisit : 0 < (HTree.node (.leaf 0) (.leaf 1)).nodes := by decide

theorem witness_ParseReadsEmittedDocument : UniqueIds [⟨100, 0⟩, ⟨101, 0⟩] ∧ UniqueIds [] := by decide

/-- The file of S1 with its male entry repeated (K9). -/
def fileK9 : List Byte := (fileS1.set 12 2).take 36 ++ fileS1.drop 28

theorem witness_ParseReportsFirstError :
    (fileS1.take 3).length < 4 ∧
    (4 ≤ (fileS1.set 0 0x55).length ∧ le32At (fileS1.set 0 0x55) 0 ≠ 0x006B6C54) ∧
    (le32At (fileS1.take 27) 0 = 0x006B6C54 ∧ (fileS1.take 27).length < 28) ∧
    (le32At (fileS1.take 44) 0 = 0x006B6C54 ∧ (fileS1.take 44).length < 28 + 8 * (le32At (fileS1.take 44) 12).toNat +
      8 * (le32At (fileS1.take 44) 16).toNat + 8 * (le32At (fileS1.take 44) 20).toNat +
      (le32At (fileS1.take 44) 24).toNat) ∧
    (28 + 8 * (le32At (fileS1 ++ [0]) 12).toNat + 8 * (le32At (fileS1 ++ [0]) 16).toNat +
      8 * (le32At (fileS1 ++ [0]) 20).toNat + (le32At (fileS1 ++ [0]) 24).toNat < (fileS1 ++ [0]).length) ∧
    (28 + 8 * (le32At fileK9 12).toNat + 8 * (le32At fileK9 16).toNat + 8 * (le32At fileK9 20).toNat +
      (le32At fileK9 24).toNat = fileK9.length ∧ ¬ UniqueIds (entriesAt fileK9 28 (le32At fileK9 12).toNat)) ∧
    (28 + 8 * (le32At fileS1 12).toNat + 8 * (le32At fileS1 16).toNat + 8 * (le32At fileS1 20).toNat +
      (le32At fileS1 24).toNat = fileS1.length ∧ UniqueIds (entriesAt fileS1 28 (le32At fileS1 12).toNat) ∧
      UniqueIds (entriesAt fileS1 36 (le32At fileS1 16).toNat)) := by decide

theorem witness_EntryTableInsertAndLookup :
    UniqueIds [⟨5, 0⟩] ∧ (∃ x ∈ ([⟨5, 0⟩] : List Entry), x.id = 5) ∧ (∀ x ∈ ([⟨5, 0⟩] : List Entry), x.id ≠ 6) := by decide

theorem witness_SerializeChecksFirst :
    ¬ (([(5, [1]), (5, [2])] : List (Word32 × Text)).map Prod.fst).Nodup ∧
    ((([(5, [0x41, 0])] : List (Word32 × Text)).map Prod.fst).Nodup ∧
      ∃ p ∈ ([(5, [0x41, 0])] : List (Word32 × Text)), terminator ∈ p.2) := by decide

/-- 2^32 strings, one for each id, are one too many. -/
theorem witness_SerializeChecksFirst_tooMany :
    ∃ male : List (Word32 × Text), (male.map Prod.fst).Nodup ∧ (∀ p ∈ male ++ [], terminator ∉ p.2) ∧
      2 ^ 32 - 1 < male.length := by
  refine ⟨(List.range (2 ^ 32)).map fun n => (BitVec.ofNat 32 n, []), ?_, ?_, ?_⟩
  · rw [List.map_map]
    refine List.Nodup.map_on (fun a ha b hb h => ?_) List.nodup_range
    have h' := congrArg BitVec.toNat h
    simp only [Function.comp_apply, BitVec.toNat_ofNat, Nat.mod_eq_of_lt (List.mem_range.1 ha),
      Nat.mod_eq_of_lt (List.mem_range.1 hb)] at h'
    exact h'
  · intro p hp
    rw [List.append_nil] at hp
    obtain ⟨n, -, rfl⟩ := List.mem_map.1 hp
    simp
  · rw [List.length_map, List.length_range]; decide

/-- S1's lists meet the conditions of the first part: one text "A" under a table of two codes. -/
theorem witness_SerializedFileRoundTrips_lists :
    State.reset.Inv ∧ State.reset.Idle ∧ ([((100 : Word32), ([0x41] : Text))].map Prod.fst).Nodup ∧
    (∀ p ∈ ([((100 : Word32), ([0x41] : Text))] ++ []), terminator ∉ p.2) ∧
    (∀ u, countOf [[0x41]] u ≤ 2 ^ 32 - 1) ∧ max 1 ((unitsOf [[0x41]]).length - 1) ≤ State.reset.cfg.nodeCap := by
  refine ⟨inv_reset, ⟨rfl, rfl⟩, by decide, by decide, fun u => ?_, by decide⟩
  have h : ([0x41] : Text).count u ≤ 1 := List.count_le_length
  show ([0x41] : Text).count u + (if u = terminator then 1 else 0) ≤ 2 ^ 32 - 1
  split <;> omega

/-- Two code bits are all S1 needs, and the one text starts at 0. -/
theorem witness_SerializedFileRoundTrips_room :
    ∃ b, runLines (buildLines [[0x41]] ++ [commandLine .wrClear]) none State.reset = .next (b, none) ∧
      codeBits b [[0x41]] ≤ State.reset.cfg.wbufCapBits ∧
      (∀ i, i < 1 → codeBits b (([[0x41]] : List Text).take i) ≤ 2 ^ 32 - 1) := by
  have h : (match runLines (buildLines [[0x41]] ++ [commandLine .wrClear]) none State.reset with
      | .next (b, none) => decide (codeBits b [[0x41]] = 2)
      | _ => false) = true := by decide +kernel
  split at h
  next b hb =>
    refine ⟨b, hb, ?_, fun i hi => ?_⟩
    · rw [of_decide_eq_true h]; decide
    · obtain rfl : i = 0 := Nat.lt_one_iff.1 hi
      exact Nat.zero_le _
  next => simp at h

/-- S1: the file is made, "A" fits OUT_CAP, and the one byte of data fits the data memory. -/
theorem witness_SerializedFileRoundTrips :
    ∃ s1 bytes d, State.reset.Inv ∧ State.reset.Idle ∧
      serialize 1 1 [(100, [0x41])] [] State.reset = .next (s1, .ok bytes) ∧
      (∀ p ∈ ([(100, [0x41])] : List (Word32 × Text)) ++ [], p.2.length ≤ State.reset.cfg.outCap) ∧
      parse bytes = .ok d ∧ d.data.length ≤ State.reset.cfg.dataCap := by
  have h : (match serialize 1 1 [(100, [0x41])] [] State.reset with
      | .next (_, .ok bytes) => bytes == fileS1
      | _ => false) = true := by decide +kernel
  split at h
  next s1 bytes hs =>
    obtain rfl : bytes = fileS1 := by simpa using h
    have hp : (match parse fileS1 with
        | .ok d => decide (d.data.length = 1)
        | .error _ => false) = true := by decide
    split at hp
    next d hd =>
      exact ⟨s1, fileS1, d, inv_reset, ⟨rfl, rfl⟩, hs, by decide, hd, by rw [of_decide_eq_true hp]; decide⟩
    next => simp at hp
  next => simp at h

/-- R257: a failing command stops no later one. The TREE_BUILD of three units fails with room for one record, yet
WR_FINISH is issued and the error is the first one reported. -/
theorem test_serialize_issues_all : (match serialize 1 1 [(1, [0x41, 0x42])] []
      { State.reset with cfg := { Config.default with nodeCap := 1 }, resBytes := [7], wb := [true] } with
    | .next (s, .error e) => (s.resBytes, s.wb, s.errCode, some e)
    | _ => ([9], [], .ok, none)) = ([], [], .ok, some (.arch .capacityExceeded)) := by decide +kernel

end Sys2Proof.Tests
end

section
/-! O40: every command completes. The one stop of the model, ENCODE's undefined code string, is ruled out by the code
table invariant: the check of the text finds every unit's code, and the terminator has one (44_huffman_encode.md
R221). -/

namespace Sys2Proof.Machine

open Sys2Proof

/-- The code string of a text exists exactly when every unit of it has a code (44_huffman_encode.md R220). -/
theorem textCode_ne_none_iff (s : State) (t : Text) : textCode s t ≠ none ↔ ∀ u ∈ t, s.codeOf u ≠ none := by
  induction t with
  | nil => simp [textCode]
  | cons u t ih =>
    rw [List.forall_mem_cons, ← ih, textCode]
    cases s.codeOf u <;> cases textCode s t <;> simp

/-- A text that passes ENCODE's check has a code for every unit (44_huffman_encode.md R222). -/
theorem codeOf_ne_none_of_firstBadUnit {s : State} {t : Text} {i : Nat} (h : firstBadUnit s i t = none) :
    ∀ u ∈ t, s.codeOf u ≠ none := by
  induction t generalizing i with
  | nil => simp
  | cons u t ih =>
    rw [firstBadUnit] at h
    split at h
    · simp at h
    · split at h
      · simp at h
      next c hc => exact List.forall_mem_cons.2 ⟨by simp [hc], ih h⟩

/-- A text that passes ENCODE's check has a code string, once the terminator has a code. -/
theorem codeString_ne_none {s : State} {t : Text} (hterm : s.codeOf terminator ≠ none)
    (h : firstBadUnit s 0 t = none) : codeString s t ≠ none :=
  (textCode_ne_none_iff s _).2 <| List.forall_mem_append.2
    ⟨codeOf_ne_none_of_firstBadUnit h, List.forall_mem_singleton.2 hterm⟩

/-- The outcome is that of a command, begun in `s`, that reached `return` or `raise`: a next state with BUSY = 0
and no new model fault (60_exceptions.md R283, R284). -/
def Completes (s : State) (r : Host.Outcome State Fault Refusal) : Prop :=
  ∃ t, r = .next t ∧ t.busy = false ∧ t.mfault = s.mfault

/-- The outcome is that of a command, begun in `s`, that read memory never written (60_exceptions.md R290). -/
def RecordsUninitRead (s : State) (r : Host.Outcome State Fault Refusal) : Prop :=
  ∃ t, r = .next t ∧ t.mfault = { s.mfault with uninitRead := true }

theorem completes_complete {s x : State} (result : Word64) (h : x.mfault = s.mfault) :
    Completes s (.next (x.complete result)) := ⟨_, rfl, rfl, h⟩

theorem completes_raise {s x : State} (e : ErrCode) (info : Word64) (h : x.mfault = s.mfault) :
    Completes s (.next (x.raise e info)) := ⟨_, rfl, rfl, h⟩

theorem recordsUninitRead_recordFault {s x : State} (h : x.mfault = s.mfault) :
    RecordsUninitRead s (.next (x.recordFault .uninitRead)) := ⟨_, rfl, by rw [← h]; rfl⟩

theorem execRdBit_completes_or_uninit (s : State) :
    Completes s (execRdBit s) ∨ RecordsUninitRead s (execRdBit s) := by
  obtain ⟨-, h⟩ | ⟨-, b, -, h⟩ | ⟨-, -, h⟩ := execRdBit_cases s <;> rw [h]
  · exact .inl (completes_raise _ _ rfl)
  · exact .inl (completes_complete _ rfl)
  · exact .inr (recordsUninitRead_recordFault rfl)

theorem execDecode_completes_or_uninit (s : State) :
    Completes s (execDecode s) ∨ RecordsUninitRead s (execDecode s) := by
  obtain ⟨pos, -, -, ⟨out, h⟩ | ⟨e, info, -, h⟩ | h⟩ := execDecode_cases s <;> rw [h]
  · exact .inl (completes_complete _ rfl)
  · exact .inl (completes_raise _ _ rfl)
  · exact .inr (recordsUninitRead_recordFault rfl)

theorem execWrBit_completes (b : Bool) (s : State) : Completes s (execWrBit b s) := by
  obtain ⟨-, h⟩ | ⟨-, h⟩ := execWrBit_cases b s <;> rw [h]
  · exact completes_raise _ _ rfl
  · exact completes_complete _ rfl

theorem execFreqAdd_completes (s : State) : Completes s (execFreqAdd s) := by
  obtain ⟨i, h⟩ | ⟨u, h⟩ | ⟨-, h⟩ := execFreqAdd_cases s <;> rw [h]
  · exact completes_raise _ _ rfl
  · exact completes_raise _ _ rfl
  · exact completes_complete _ rfl

theorem execTreeBuild_completes (s : State) : Completes s (execTreeBuild s) := by
  obtain ⟨-, h⟩ | ⟨first, others, -, ⟨-, h⟩ | ⟨-, h⟩⟩ := execTreeBuild_cases s <;> rw [h]
  · exact completes_raise _ _ rfl
  · exact completes_raise _ _ rfl
  · exact completes_complete _ rfl

/-- Where the code table matches the tree ENCODE does not stop: its code string is defined (44_huffman_encode.md
R221, log entry 10). -/
theorem execEncode_completes {s : State} (hcodes : s.CodesMatch) : Completes s (execEncode s) := by
  obtain ⟨e, info, -, h⟩ | ⟨-, -, bits, -, -, -, h⟩ | ⟨hvalid, hchecked, hundef, -⟩ := execEncode_cases s
  · rw [h]; exact completes_raise _ _ rfl
  · rw [h]; exact completes_complete _ rfl
  · exact absurd hundef (codeString_ne_none (hcodes.terminated hvalid) hchecked)

/-- Every command completes where the code table matches the tree, or is RD_BIT or DECODE and read memory never
written. -/
theorem exec_completes_or_uninit (i : Instr) {s : State} (hcodes : s.CodesMatch) :
    Completes s (exec i s) ∨ ((i = .rdBit ∨ i = .decode) ∧ RecordsUninitRead s (exec i s)) := by
  cases i with
  | rdInit | wrClear | wrPos | wrFinish | freqClear => exact .inl (completes_complete _ rfl)
  | rdBit => exact (execRdBit_completes_or_uninit s).imp_right (⟨.inl rfl, ·⟩)
  | wrBit b => exact .inl (execWrBit_completes b s)
  | freqAdd => exact .inl (execFreqAdd_completes s)
  | treeBuild => exact .inl (execTreeBuild_completes s)
  | decode => exact (execDecode_completes_or_uninit s).imp_right (⟨.inr rfl, ·⟩)
  | encode => exact .inl (execEncode_completes hcodes)

/-- Settles O40: each command ends by `return`, by `raise` or in UninitRead, and the code table invariant rules out
the one stop, ENCODE's undefined code string. -/
theorem everyCommandCompletes : Obligations.EveryCommandCompletes := by
  intro i s hcodes
  obtain ⟨t, ht, hbusy, hfault⟩ | ⟨hi, t, ht, hfault⟩ := exec_completes_or_uninit i hcodes
  · exact ⟨t, ht, .inl ⟨hbusy, hfault⟩⟩
  · exact ⟨t, ht, .inr ⟨hi, hfault⟩⟩

end Sys2Proof.Machine
end

section
/-! An invariant of the machine is kept by every step once the host's accesses, the raise of IllegalCommand and
the commands keep it. -/

namespace Sys2Proof.Machine

open Sys2Proof

section
variable {P : State → Prop}
  (hagenda : ∀ s rest, P s → P { s with agenda := rest })
  (hhost : ∀ s a, P s → P (hostAccess s a))
  (hraise : ∀ s w, P s → P (s.raise .illegalCommand w))
  (hexec : ∀ i s t, P s → exec i s = .next t → P t)

include hraise hexec in
theorem engineTurn_preserves {s t : State} (hs : P s) (h : engineTurn s = .next t) : P t := by
  obtain rfl | ⟨w, -, rfl⟩ | ⟨i, -, hi⟩ := engineTurn_cases h
  · exact hs
  · exact hraise s w hs
  · exact hexec i s t hs hi

include hagenda hhost hraise hexec in
/-- What every access of the host and every turn of the engine keeps, every step keeps (20_memory.md R75). -/
theorem step_preserves {s t : State} (hs : P s) (h : step s = .next t) : P t := by
  obtain ⟨-, ⟨-, he⟩ | ⟨rest, -, he⟩ | ⟨a, rest, -, rfl⟩⟩ := step_cases h
  · exact engineTurn_preserves hraise hexec hs he
  · exact engineTurn_preserves hraise hexec (hagenda s rest hs) he
  · exact hhost _ a (hagenda s rest hs)

end

end Sys2Proof.Machine
end

section
/-! O53: every step keeps the machine's data in its bounds and canonical form. -/

namespace Sys2Proof.Machine

open Sys2Proof

/-! The two ways a command completes, and the updates no bound speaks of. -/

theorem State.Wf.complete {s : State} (h : s.Wf) (r : Word64) : (s.complete r).Wf :=
  { h with busyLatched := nofun }

theorem State.Wf.raise {s : State} (h : s.Wf) (e : ErrCode) (info : Word64) : (s.raise e info).Wf :=
  { h with busyLatched := nofun }

theorem State.Wf.recordFault {s : State} (h : s.Wf) (f : ModelFault) : (s.recordFault f).Wf := { h with }

theorem State.Wf.answer {s : State} (h : s.Wf) (v : HostValue) : (s.answer v).Wf := { h with }

theorem State.Wf.issue {s : State} (h : s.Wf) (w : Word32) : (s.issue w).Wf :=
  { h with busyLatched := fun _ => rfl }

/-! The reader and the writer (41_bitio.md). -/

theorem State.Wf.setRdPos {s : State} (h : s.Wf) {p : Word64}
    (hp : p.toNat ≤ max s.arg0.toNat s.bitLength) : ({ s with rdPos := p } : State).Wf := by
  refine { h with rdPosLe := ?_ }
  have harg := s.arg0.isLt
  have hlen := h.dataLenLe
  simp only [State.bitLength] at hp
  simp only
  omega

theorem State.Wf.setWb {s : State} (h : s.Wf) {w : Bits} (hw : w.length ≤ s.cfg.wbufCapBits) :
    ({ s with wb := w } : State).Wf := { h with wbLe := hw }

theorem State.Wf.setResults {s : State} (h : s.Wf) (t : Text) (bytes : List Byte) :
    ({ s with resText := t, resBytes := bytes } : State).Wf := { h with }

theorem wf_execRdInit {s t : State} (h : s.Wf) (ht : execRdInit s = .next t) : t.Wf := by
  cases ht
  refine (h.setRdPos (le_max_of_le_left ?_)).complete 0
  simp only [State.offOperand, BitVec.toNat_setWidth]
  exact Nat.mod_le _ _

theorem wf_execRdBit {s t : State} (h : s.Wf) (ht : execRdBit s = .next t) : t.Wf := by
  obtain ⟨-, h'⟩ | ⟨hlt, b, -, h'⟩ | ⟨-, -, h'⟩ := execRdBit_cases s <;> cases h'.symm.trans ht
  · exact h.raise _ _
  · refine (h.setRdPos (le_max_of_le_right ?_)).complete _
    calc (s.rdPos + 1).toNat ≤ s.rdPos.toNat + 1 := by rw [BitVec.toNat_add]; exact Nat.mod_le _ _
      _ ≤ s.bitLength := hlt
  · exact h.recordFault _

theorem wf_execWrBit {b : Bool} {s t : State} (h : s.Wf) (ht : execWrBit b s = .next t) : t.Wf := by
  obtain ⟨-, h'⟩ | ⟨hlt, h'⟩ := execWrBit_cases b s <;> cases h'.symm.trans ht
  · exact h.raise _ _
  · exact (h.setWb (by simpa using hlt)).complete _

theorem wf_execDecode {s t : State} (h : s.Wf) (ht : execDecode s = .next t) : t.Wf := by
  obtain ⟨pos, -, hle, hcases⟩ := execDecode_cases s
  have hpos : (BitVec.ofNat 64 pos).toNat ≤ max s.arg0.toNat s.bitLength := by
    have hmod : (BitVec.ofNat 64 pos).toNat ≤ pos := Nat.mod_le _ _
    omega
  obtain ⟨out, h'⟩ | ⟨e, info, -, h'⟩ | h' := hcases <;> cases h'.symm.trans ht
  · exact ((h.setRdPos hpos).setResults out s.resBytes).complete _
  · exact ((h.setRdPos hpos).setResults [] s.resBytes).raise _ _
  · exact (h.setRdPos hpos).recordFault _

theorem wf_execEncode {s t : State} (h : s.Wf) (ht : execEncode s = .next t) : t.Wf := by
  obtain ⟨e, info, -, h'⟩ | ⟨-, -, bits, -, -, hfits, h'⟩ | ⟨-, -, -, h'⟩ := execEncode_cases s <;>
    cases h'.symm.trans ht
  · exact h.raise _ _
  · exact (h.setWb (by simpa using hfits)).complete _

/-! The counters (43_huffman_build.md R180, R181). -/

/-- Every counter FREQ_ADD counts is that of a code unit and not 0. -/
theorem countText_bounds {s : State} (h : s.Wf) (t : Text) : ∀ e ∈ countText s.freq t, e.1 < 65536 ∧ 0 < e.2 := by
  refine forall_mem_countText s.freq t (fun e he => ⟨h.freqBelow e he, ?_⟩) fun u n => ⟨u.isLt, n.succ_pos⟩
  exact Nat.pos_of_ne_zero fun h0 => h.freqNonzero e he (BitVec.eq_of_toNat_eq h0)

theorem tableGet_storeCounts (tmp : Table Nat) (i : Nat) :
    tableGet (storeCounts tmp) i = (tableGet tmp i).map (BitVec.ofNat 32) := tableGet_map _ tmp i

theorem counter_ne_zero {n : Nat} (hpos : 0 < n) (hle : n ≤ 2 ^ 32 - 1) : BitVec.ofNat 32 n ≠ 0 := by
  intro h0
  have hn : n % 2 ^ 32 = 0 := congrArg BitVec.toNat h0
  omega

/-- FREQ_ADD counts the terminator (43_huffman_build.md R181). -/
theorem exists_terminator_mem_countText (freq : Table Word32) (t : Text) :
    ∃ n, tableGet (countText freq t) terminator.toNat = some n :=
  ⟨_, tableGet_tableSet_self _ _ _⟩

theorem State.Wf.storeCounts {s : State} (h : s.Wf) {t : Text}
    (hfit : ∀ e ∈ countText s.freq t, e.2 ≤ 2 ^ 32 - 1) :
    ({ s with freq := storeCounts (countText s.freq t) } : State).Wf := by
  refine { h with
    freqRising := rising_map (rising_countText t h.freqRising)
    freqBelow := ?below
    freqNonzero := ?nonzero
    terminatorCounted := ?terminator }
  case below =>
    intro e he
    obtain ⟨x, hx, rfl⟩ := List.mem_map.1 he
    exact (countText_bounds h t x hx).1
  case nonzero =>
    intro e he
    obtain ⟨x, hx, rfl⟩ := List.mem_map.1 he
    exact counter_ne_zero (countText_bounds h t x hx).2 (hfit x hx)
  case terminator =>
    intro _
    obtain ⟨n, hn⟩ := exists_terminator_mem_countText s.freq t
    have hmem := mem_of_tableGet hn
    rw [State.freqOf, tableGet_storeCounts, hn]
    exact counter_ne_zero (countText_bounds h t _ hmem).2 (hfit _ hmem)

theorem State.Wf.clearFreq {s : State} (h : s.Wf) : ({ s with freq := [] } : State).Wf :=
  { h with
    freqRising := List.Pairwise.nil
    freqBelow := fun _ he => absurd he List.not_mem_nil
    freqNonzero := fun _ he => absurd he List.not_mem_nil
    terminatorCounted := fun hne => absurd rfl hne }

theorem wf_execFreqAdd {s t : State} (h : s.Wf) (ht : execFreqAdd s = .next t) : t.Wf := by
  obtain ⟨i, h'⟩ | ⟨u, h'⟩ | ⟨hfit, h'⟩ := execFreqAdd_cases s <;> cases h'.symm.trans ht
  · exact h.raise _ _
  · exact h.raise _ _
  · exact (h.storeCounts hfit).complete 0

/-! The tree and the codes (43_huffman_build.md R182). -/

theorem State.Wf.setCodes {s : State} (h : s.Wf) {codes : List (CodeUnit × Bits)} (hne : ∀ e ∈ codes, e.2 ≠ [])
    (v : Bool) : ({ s with ct := codeTable codes, ctValid := v } : State).Wf := by
  refine { h with ctRising := rising_codeTable codes, ctBelow := ?below, ctNonempty := ?nonempty }
  case below =>
    intro x hx
    obtain ⟨e, -, rfl⟩ := mem_codeTable hx
    exact e.1.isLt
  case nonempty =>
    intro x hx
    obtain ⟨e, he, rfl⟩ := mem_codeTable hx
    exact hne e he

theorem State.Wf.setNodeCount {s : State} (h : s.Wf) {n : Word32} (hn : n.toNat ≤ s.cfg.nodeCap) (v : Bool) :
    ({ s with nodeCount := n, ctValid := v } : State).Wf := { h with nodeCountLe := hn }

theorem State.Wf.writeRecords {s : State} (h : s.Wf) {base : Nat} {rs : List NodeRecord}
    (hle : base + rs.length ≤ s.cfg.nodeCap) : ({ s with tm := writeRecords s.tm base rs } : State).Wf :=
  { h with tmRising := rising_writeRecords base rs h.tmRising, tmBelow := below_writeRecords h.tmBelow hle }

theorem wf_execTreeBuild {s t : State} (h : s.Wf) (ht : execTreeBuild s = .next t) : t.Wf := by
  obtain ⟨-, h'⟩ | ⟨first, others, -, ⟨-, h'⟩ | ⟨hroom, h'⟩⟩ := execTreeBuild_cases s <;> cases h'.symm.trans ht
  · exact h.raise _ _
  · exact h.raise _ _
  · have hrecs : 0 + (buildTree first others).recs.length ≤ s.cfg.nodeCap := by
      rw [length_buildTree_recs]; omega
    have hcount : (BitVec.ofNat 32 (recordsNeeded (others.length + 1))).toNat ≤ s.cfg.nodeCap :=
      (Nat.mod_le _ _).trans hroom
    exact (((h.writeRecords hrecs).setNodeCount hcount true).setCodes
      (fun _ => buildTree_codes_nonempty) true).complete _

/-! Every command, every access, every step. -/

theorem wf_exec {i : Instr} {s t : State} (h : s.Wf) (ht : exec i s = .next t) : t.Wf := by
  cases i with
  | rdInit => exact wf_execRdInit h ht
  | rdBit => exact wf_execRdBit h ht
  | wrClear => cases ht; exact (h.setWb (Nat.zero_le _)).complete 0
  | wrBit b => exact wf_execWrBit h ht
  | wrPos => cases ht; exact h.complete _
  | wrFinish => cases ht; exact (h.setResults s.resText _).complete _
  | freqClear => cases ht; exact h.clearFreq.complete 0
  | freqAdd => exact wf_execFreqAdd h ht
  | treeBuild => exact wf_execTreeBuild h ht
  | decode => exact wf_execDecode h ht
  | encode => exact wf_execEncode h ht

theorem wf_hostAccess {s : State} (h : s.Wf) (a : HostAccess) : (hostAccess s a).Wf := by
  obtain ⟨f, e⟩ | ⟨v, e⟩ | ⟨-, ⟨w, e⟩ | ⟨v, e⟩ | ⟨v, hv, e⟩ | ⟨v, hv, e⟩ | ⟨i, r, hi, e⟩ | ⟨j, b, hj, e⟩ | ⟨t, e⟩⟩ :=
    hostAccess_cases s a <;> rw [e]
  · exact h.recordFault f
  · exact h.answer v
  · exact h.issue w
  · exact { h with }
  · exact h.setNodeCount hv false
  · exact { h with dataLenLe := hv }
  · exact { h with tmRising := rising_tableSet i r h.tmRising, tmBelow := below_tableSet r h.tmBelow hi }
  · exact { h with dmWf := Memory.wf_write j b h.dmWf, dmBelow := below_tableSet b h.dmBelow hj }
  · exact { h with }

theorem wf_step {s t : State} (h : s.Wf) (ht : step s = .next t) : t.Wf :=
  step_preserves (P := State.Wf) (fun _ _ h => { h with }) (fun _ a h => wf_hostAccess h a) (fun _ w h => h.raise _ w)
    (fun _ _ _ => wf_exec) h ht

/-- Settles O53: each update of a command and of a host access keeps the bounds and the canonical form. -/
theorem stepKeepsWellFormed : Obligations.StepKeepsWellFormed := fun _ _ => wf_step

end Sys2Proof.Machine
end

section
/-! O41: the frame of the commands, from what each command can do (10_state.md R27 to R46). -/

namespace Sys2Proof.Machine

open Sys2Proof

/-- Settles O41: each command's updates, as its `_cases` lemma lists them, touch only the fields the rules let it
write. -/
theorem commandsWriteOnlyTheirState : Obligations.CommandsWriteOnlyTheirState := by
  intro i s t h
  cases i with
  | rdInit | wrClear | wrPos | wrFinish | freqClear => cases h; simp [State.byteAt]
  | rdBit =>
    obtain ⟨-, h'⟩ | ⟨-, b, -, h'⟩ | ⟨-, -, h'⟩ := execRdBit_cases s <;> cases h'.symm.trans h <;> simp [State.byteAt]
  | wrBit b =>
    obtain ⟨-, h'⟩ | ⟨-, h'⟩ := execWrBit_cases b s <;> cases h'.symm.trans h <;> simp [State.byteAt]
  | freqAdd =>
    obtain ⟨i, h'⟩ | ⟨u, h'⟩ | ⟨-, h'⟩ := execFreqAdd_cases s <;> cases h'.symm.trans h <;> simp [State.byteAt]
  | treeBuild =>
    obtain ⟨-, h'⟩ | ⟨first, others, -, ⟨-, h'⟩ | ⟨-, h'⟩⟩ := execTreeBuild_cases s <;> cases h'.symm.trans h <;>
      simp [State.byteAt]
  | decode =>
    obtain ⟨pos, -, -, ⟨out, h'⟩ | ⟨e, info, -, h'⟩ | h'⟩ := execDecode_cases s <;> cases h'.symm.trans h <;>
      simp [State.byteAt]
  | encode =>
    obtain ⟨e, info, -, h'⟩ | ⟨-, -, bits, -, -, -, h'⟩ | ⟨-, -, -, h'⟩ := execEncode_cases s <;>
      cases h'.symm.trans h <;> simp [State.byteAt]

end Sys2Proof.Machine
end

section
/-! O54: every step keeps the code table matching the tree. Only TREE_BUILD sets CT_VALID, and the tree it writes is
stored record by record where its codes lead. -/

namespace Sys2Proof.Machine

open Sys2Proof

/-! The match of codes and tree speaks of TM, N, CT and CT_VALID alone (10_state.md R39). -/

theorem State.CodesMatch.of_ctValid_false {s : State} (h : s.ctValid = false) : s.CodesMatch := by
  constructor <;> intro hv <;> exact absurd hv (by simp [h])

theorem follow_congr {s t : State} (htm : t.tm = s.tm) (hn : t.nodeCount = s.nodeCount) (cur : Nat) (c : Bits) :
    follow t cur c = follow s cur c := by
  induction c generalizing cur with
  | nil => rfl
  | cons b c ih => simp only [follow, State.nodeAt, htm, hn, ih]

theorem State.SoundTree.congr {s t : State} (h : s.SoundTree) (htm : t.tm = s.tm) (hn : t.nodeCount = s.nodeCount) :
    t.SoundTree := by
  obtain ⟨hroot, hsound⟩ := h
  constructor
  · rwa [hn]
  · simpa only [State.soundChild, State.nodeAt, htm, hn] using hsound

theorem State.CodesMatch.congr {s t : State} (h : s.CodesMatch) (htm : t.tm = s.tm) (hn : t.nodeCount = s.nodeCount)
    (hct : t.ct = s.ct) (hv : t.ctValid = s.ctValid) : t.CodesMatch := by
  obtain ⟨htree, hleaves, hreach, hlengths, hterm⟩ := h
  constructor
  · exact fun hv' => (htree (hv ▸ hv')).congr htm hn
  · simpa only [State.hasLeaf, State.nodeAt, State.codeOf, htm, hn, hct, hv] using hleaves
  · simpa only [State.codeOf, follow_congr htm hn, hct, hv] using hreach
  · simpa only [State.codeOf, hn, hct, hv] using hlengths
  · simpa only [State.codeOf, hct, hv] using hterm

/-! The symbols of a well-formed state (43_huffman_build.md R182, R186). -/

theorem nodup_symbolSet (s : State) : s.symbolSet.Nodup := by
  refine List.Nodup.filter _ (List.Nodup.map_on (fun a ha b hb hab => ?_) List.nodup_range)
  have h := congrArg BitVec.toNat hab
  simpa only [BitVec.toNat_ofNat, Nat.mod_eq_of_lt (List.mem_range.1 ha), Nat.mod_eq_of_lt (List.mem_range.1 hb)]
    using h

theorem mem_symbolSet {s : State} {u : CodeUnit} : u ∈ s.symbolSet ↔ s.freqOf u ≠ 0 := by
  have hrange : u ∈ (List.range 65536).map (BitVec.ofNat 16) :=
    List.mem_map.2 ⟨u.toNat, List.mem_range.2 u.isLt, by simp⟩
  have hpos : 0 < (s.freqOf u).toNat ↔ s.freqOf u ≠ 0 := by
    rw [Nat.pos_iff_ne_zero, ne_eq, ne_eq, BitVec.toNat_eq]; rfl
  simp [State.symbolSet, hrange, hpos]

/-- Once there is a symbol the terminator is one (43_huffman_build.md R186). -/
theorem terminator_mem_symbols {s : State} (h : s.Wf) (hne : symbols s ≠ []) :
    terminator ∈ (symbols s).map Prod.fst := by
  rw [symbols_eq_symbolSet h]
  refine mem_symbolSet.2 (h.terminatorCounted fun hnil => hne ?_)
  simp [symbols, hnil]

theorem nodup_symbols {s : State} (h : s.Wf) : ((symbols s).map Prod.fst).Nodup :=
  symbols_eq_symbolSet h ▸ nodup_symbolSet s

/-! Following a path (10_state.md R39). -/

/-- Where a path leads once the child `v` is taken: a leaf ends it, an index below N goes on. -/
def followChild (s : State) (v : Word32) (c : Bits) : Option CodeUnit :=
  if v.toInt < 0 then
    match c with
    | [] => leafUnit v
    | _ :: _ => none
  else if s.nodeCount.toNat ≤ v.toNat then none
  else follow s v.toNat c

theorem follow_cons {s : State} {cur : Nat} {rec : NodeRecord} (h : s.nodeAt cur = some rec) (b : Bool) (c : Bits) :
    follow s cur (b :: c) = followChild s (rec.child b) c := by
  rw [follow, h]; rfl

theorem followChild_leafValue (s : State) (u : CodeUnit) : followChild s (leafValue u) [] = some u := by
  unfold followChild; rw [if_pos (leafValue_neg u)]; exact leafUnit_leafValue u

theorem toNat_ofNat_index {n : Nat} (h : n < 2 ^ 31) : (BitVec.ofNat 32 n).toNat = n :=
  Nat.mod_eq_of_lt (by omega)

/-- A number below 2^31 as a child is an index (42_huffman_decode.md R150). -/
theorem toInt_ofNat_index {n : Nat} (h : n < 2 ^ 31) : (BitVec.ofNat 32 n).toInt = n := by
  rw [BitVec.toInt_eq_toNat_of_lt (by rw [toNat_ofNat_index h]; omega), toNat_ofNat_index h]

theorem followChild_index {s : State} {i : Nat} (hi : i < s.nodeCount.toNat) (hi' : i < 2 ^ 31) (c : Bits) :
    followChild s (BitVec.ofNat 32 i) c = follow s i c := by
  unfold followChild
  rw [toInt_ofNat_index hi', toNat_ofNat_index hi', if_neg (by omega), if_neg (by omega)]

/-- A path from a record below N that leads to a unit ends at a leaf of the tree. -/
theorem hasLeaf_of_follow {s : State} {cur : Nat} {c : Bits} {u : CodeUnit} (hcur : cur < s.nodeCount.toNat)
    (h : follow s cur c = some u) : s.hasLeaf u := by
  induction c generalizing cur with
  | nil => simp [follow] at h
  | cons b c ih =>
    cases hrec : s.nodeAt cur with
    | none => simp [follow, hrec] at h
    | some rec =>
      rw [follow_cons hrec] at h
      unfold followChild at h
      split at h
      next hneg =>
        cases c with
        | nil => exact ⟨cur, rec, b, hcur, hrec, eq_leafValue_of_leafUnit hneg h⟩
        | cons b' c => simp at h
      · split at h
        · simp at h
        next hlt => exact ih (by omega) h

/-! A tree stored in tree memory (43_huffman_build.md R191). -/

/-- The records of the tree, numbered from `my` in pre-order, stand in tree memory. -/
def Stored (s : State) : HTree → (my : Nat) → Prop
  | .leaf _, _ => True
  | .node l r, my =>
    s.nodeAt my = some ⟨childField l (my + 1), childField r (my + 1 + l.nodes)⟩ ∧
      Stored s l (my + 1) ∧ Stored s r (my + 1 + l.nodes)

theorem stored_of_flattenRecords {s : State} {t : HTree} {my : Nat}
    (h : ∀ i, i < t.nodes → s.nodeAt (my + i) = (flattenRecords t my)[i]?) : Stored s t my := by
  induction t generalizing my with
  | leaf u => trivial
  | node l r ihl ihr =>
    simp only [HTree.nodes, flattenRecords] at h
    refine ⟨h 0 (by omega), ihl fun i hi => ?_, ihr fun i hi => ?_⟩
    · rw [show my + 1 + i = my + (i + 1) by omega, h (i + 1) (by omega), List.getElem?_cons_succ,
        List.getElem?_append_left (by simpa using hi)]
    · rw [show my + 1 + l.nodes + i = my + (l.nodes + i + 1) by omega, h _ (by omega), List.getElem?_cons_succ,
        List.getElem?_append_right (by simp), length_flattenRecords, Nat.add_sub_cancel_left]

/-- The value `v` of a child of record `i` names a subtree whose leaves are among `units` and whose records are
numbered above `i` and below `stop`. -/
def NamesSubtree (units : List CodeUnit) (i stop : Nat) (v : Word32) : Prop :=
  ∃ (t : HTree) (idx : Nat), v = childField t idx ∧ i < idx ∧ idx + t.nodes ≤ stop ∧ t.leaves ⊆ units

theorem NamesSubtree.widen {units units' : List CodeUnit} {i stop stop' : Nat} {v : Word32}
    (h : NamesSubtree units i stop v) (hu : units ⊆ units') (hs : stop ≤ stop') : NamesSubtree units' i stop' v := by
  obtain ⟨t, idx, hv, hi, hstop, hl⟩ := h
  exact ⟨t, idx, hv, hi, hstop.trans hs, List.Subset.trans hl hu⟩

/-- Each number of a stored tree has a record, whose children name subtrees numbered above it. -/
theorem Stored.record {s : State} {t : HTree} {my i : Nat} (h : Stored s t my) (hi : my ≤ i)
    (hi' : i < my + t.nodes) :
    ∃ rec, s.nodeAt i = some rec ∧ ∀ b, NamesSubtree t.leaves i (my + t.nodes) (rec.child b) := by
  induction t generalizing my with
  | leaf u => simp only [HTree.nodes] at hi'; omega
  | node l r ihl ihr =>
    obtain ⟨hrec, hl, hr⟩ := h
    simp only [HTree.nodes, HTree.leaves] at hi' ⊢
    have hleft : l.leaves ⊆ l.leaves ++ r.leaves := List.subset_append_left ..
    have hright : r.leaves ⊆ l.leaves ++ r.leaves := List.subset_append_right ..
    rcases (by omega : i = my ∨ (my + 1 ≤ i ∧ i < my + 1 + l.nodes) ∨
      (my + 1 + l.nodes ≤ i ∧ i < my + 1 + l.nodes + r.nodes)) with rfl | ⟨h1, h2⟩ | ⟨h1, h2⟩
    · refine ⟨_, hrec, fun b => ?_⟩
      cases b with
      | false => exact ⟨l, _, rfl, by omega, by omega, hleft⟩
      | true => exact ⟨r, _, rfl, by omega, by omega, hright⟩
    · obtain ⟨rec, hrec', hsub⟩ := ihl hl h1 h2
      exact ⟨rec, hrec', fun b => (hsub b).widen hleft (by omega)⟩
    · obtain ⟨rec, hrec', hsub⟩ := ihr hr h1 h2
      exact ⟨rec, hrec', fun b => (hsub b).widen hright (by omega)⟩

/-- A subtree's name is a leaf's value or an index above its parent's and below N (43_huffman_build.md R195). -/
theorem NamesSubtree.soundChild {s : State} {units : List CodeUnit} {i : Nat} {v : Word32}
    (h : NamesSubtree units i s.nodeCount.toNat v) (hn : s.nodeCount.toNat ≤ 2 ^ 31) : s.soundChild i v := by
  obtain ⟨t, idx, rfl, hi, hstop, -⟩ := h
  cases t with
  | leaf u => exact .inl ⟨u, rfl⟩
  | node l r =>
    simp only [HTree.nodes] at hstop
    have hidx : idx < 2 ^ 31 := by omega
    refine .inr ⟨?_, ?_, ?_⟩
    · rw [childField, toInt_ofNat_index hidx]; omega
    · rw [childField, toNat_ofNat_index hidx]; exact hi
    · rw [childField, toNat_ofNat_index hidx]; omega

/-- A subtree whose name is a leaf's value is that leaf. -/
theorem NamesSubtree.mem_of_leafValue {units : List CodeUnit} {i stop : Nat} {u : CodeUnit}
    (h : NamesSubtree units i stop (leafValue u)) (hstop : stop ≤ 2 ^ 31) : u ∈ units := by
  obtain ⟨t, idx, hv, hi, hle, hsub⟩ := h
  cases t with
  | leaf w => exact hsub (by simpa [HTree.leaves] using leafValue_inj hv)
  | node l r =>
    simp only [HTree.nodes] at hle
    have hneg := leafValue_neg u
    rw [hv, childField, toInt_ofNat_index (by omega)] at hneg
    omega

/-- In a stored tree the rest of a leaf's code leads from its subtree's name to its unit (43_huffman_build.md
R191). -/
theorem Stored.followChild_code {s : State} {t : HTree} {idx : Nat} {path : Bits} {e : CodeUnit × Bits}
    (h : Stored s t idx) (hstop : idx + t.nodes ≤ s.nodeCount.toNat) (hn : s.nodeCount.toNat ≤ 2 ^ 31)
    (he : e ∈ flattenCodes t path) :
    ∃ c, e.2 = path ++ c ∧ followChild s (childField t idx) c = some e.1 := by
  induction t generalizing idx path with
  | leaf u =>
    obtain rfl := List.mem_singleton.1 he
    exact ⟨[], (List.append_nil path).symm, followChild_leafValue s u⟩
  | node l r ihl ihr =>
    obtain ⟨hrec, hl, hr⟩ := h
    simp only [HTree.nodes] at hstop
    have hdown (b : Bool) (c : Bits) : followChild s (childField (.node l r) idx) (b :: c) =
        followChild s (NodeRecord.child ⟨childField l (idx + 1), childField r (idx + 1 + l.nodes)⟩ b) c := by
      rw [childField, followChild_index (by omega) (by omega), follow_cons hrec]
    rcases List.mem_append.1 he with he | he
    · obtain ⟨c, hc, hf⟩ := ihl hl (by omega) he
      exact ⟨false :: c, by simp [hc], (hdown false c).trans hf⟩
    · obtain ⟨c, hc, hf⟩ := ihr hr (by omega) he
      exact ⟨true :: c, by simp [hc], (hdown true c).trans hf⟩

/-! What TREE_BUILD writes matches (43_huffman_build.md R195, R196). -/

/-- The records built stand in TM[0..N), and CT is the table of the codes built. -/
structure State.Holds (s : State) (built : Built) : Prop where
  records : ∀ i, i < built.recs.length → s.nodeAt i = built.recs[i]?
  count   : s.nodeCount.toNat = built.recs.length
  countLe : s.nodeCount.toNat ≤ 2 ^ 31
  table   : s.ct = codeTable built.codes

/-- The codes lead to their units, which are the units of the leaves, in a sound tree. -/
structure CodesLead (s : State) (codes : List (CodeUnit × Bits)) : Prop where
  tree    : s.SoundTree
  leaves  : ∀ u, s.hasLeaf u → u ∈ codes.map Prod.fst
  reach   : ∀ e ∈ codes, follow s 0 e.2 = some e.1
  lengths : ∀ e ∈ codes, 1 ≤ e.2.length ∧ e.2.length ≤ s.nodeCount.toNat

/-- A code table made of such codes matches the tree (10_state.md R39). -/
theorem CodesLead.codesMatch {s : State} {codes : List (CodeUnit × Bits)} (h : CodesLead s codes)
    (hct : s.ct = codeTable codes) (hnodup : (codes.map Prod.fst).Nodup)
    (hterm : terminator ∈ codes.map Prod.fst) : s.CodesMatch := by
  have hcode (u : CodeUnit) (c : Bits) : s.codeOf u = some c ↔ (u, c) ∈ codes := by
    rw [State.codeOf, hct, tableGet_codeTable hnodup]
  have hcoded (u : CodeUnit) : s.codeOf u ≠ none ↔ u ∈ codes.map Prod.fst := by
    simp only [Option.ne_none_iff_exists', hcode, List.mem_map, Prod.exists, exists_and_right, exists_eq_right]
  constructor
  case tree => exact fun _ => h.tree
  case leaves =>
    refine fun _ u => ⟨fun hu => (hcoded u).2 (h.leaves u hu), fun hu => ?_⟩
    obtain ⟨c, hc⟩ := Option.ne_none_iff_exists'.1 hu
    exact hasLeaf_of_follow h.tree.rootExists (h.reach _ ((hcode u c).1 hc))
  case reach => exact fun _ u c hc => h.reach _ ((hcode u c).1 hc)
  case lengths => exact fun _ u c hc => h.lengths _ ((hcode u c).1 hc)
  case terminated => exact fun _ => (hcoded terminator).2 hterm

/-- The degenerate tree: one record with the unit's leaf on both sides, its code `0` (43_huffman_build.md R189). -/
theorem codesLead_single {s : State} {u : CodeUnit} (hrec : s.nodeAt 0 = some ⟨leafValue u, leafValue u⟩)
    (hn : s.nodeCount.toNat = 1) : CodesLead s [(u, [false])] := by
  have hzero {i : Nat} (hi : i < s.nodeCount.toNat) : i = 0 := by omega
  constructor
  case tree =>
    refine ⟨by omega, fun i hi => ?_⟩
    obtain rfl := hzero hi
    exact ⟨_, hrec, .inl ⟨u, rfl⟩, .inl ⟨u, rfl⟩⟩
  case leaves =>
    rintro v ⟨i, rec, b, hi, hr, hb⟩
    obtain rfl := hzero hi
    obtain rfl := Option.some.inj (hrec.symm.trans hr)
    have huv : leafValue u = leafValue v := by cases b <;> exact hb
    simp [leafValue_inj huv]
  case reach =>
    intro e he
    obtain rfl := List.mem_singleton.1 he
    rw [follow_cons hrec]; exact followChild_leafValue s u
  case lengths =>
    intro e he
    obtain rfl := List.mem_singleton.1 he
    simp [hn]

/-- A tree with two leaves or more, stored from record 0 on (43_huffman_build.md R191). -/
theorem codesLead_node {s : State} {l r : HTree} (h : Stored s (.node l r) 0)
    (hcount : s.nodeCount.toNat = (HTree.node l r).nodes) (hn : s.nodeCount.toNat ≤ 2 ^ 31) :
    CodesLead s (flattenCodes (.node l r) []) := by
  have hrecord (i : Nat) (hi : i < s.nodeCount.toNat) : ∃ rec, s.nodeAt i = some rec ∧
      ∀ b, NamesSubtree (HTree.node l r).leaves i s.nodeCount.toNat (rec.child b) := by
    have hrec := h.record (Nat.zero_le i) (by omega)
    rwa [Nat.zero_add, ← hcount] at hrec
  have hroot : 0 < s.nodeCount.toNat := by rw [hcount, HTree.nodes]; omega
  constructor
  case tree =>
    refine ⟨hroot, fun i hi => ?_⟩
    obtain ⟨rec, hrec, hsub⟩ := hrecord i hi
    exact ⟨rec, hrec, (hsub false).soundChild hn, (hsub true).soundChild hn⟩
  case leaves =>
    rintro u ⟨i, rec, b, hi, hr, hb⟩
    obtain ⟨rec', hrec, hsub⟩ := hrecord i hi
    obtain rfl := Option.some.inj (hrec.symm.trans hr)
    rw [map_fst_flattenCodes]
    exact (hb ▸ hsub b).mem_of_leafValue hn
  case reach =>
    intro e he
    obtain ⟨c, hc, hf⟩ := h.followChild_code (by omega) hn he
    rwa [childField, followChild_index hroot (by omega), ← List.nil_append c, ← hc] at hf
  case lengths =>
    intro e he
    obtain ⟨c, hc, hlen⟩ := mem_flattenCodes he
    exact ⟨List.length_pos_iff.2 (flattenCodes_node_ne_nil he), by rw [hc, hcount]; exact hlen⟩

theorem State.Holds.codesLead {s : State} {first : CodeUnit × Nat} {others : List (CodeUnit × Nat)}
    (h : s.Holds (buildTree first others)) : CodesLead s (buildTree first others).codes := by
  obtain ⟨hrecs, hcount, hle, -⟩ := h
  cases others with
  | nil => exact codesLead_single (hrecs 0 Nat.one_pos) hcount
  | cons second others =>
    obtain ⟨l, r, ht⟩ := mergeSymbols_isNode first second others
    simp only [buildTree, ht, length_flattenRecords] at hrecs hcount ⊢
    exact codesLead_node (stored_of_flattenRecords (by simpa using hrecs)) hcount hle

/-- TREE_BUILD's writes are held once there is room for the records (43_huffman_build.md R190). -/
theorem holds_built {s : State} (h : s.Wf) {first : CodeUnit × Nat} {others : List (CodeUnit × Nat)}
    (hroom : recordsNeeded (others.length + 1) ≤ s.cfg.nodeCap) (v : Bool) :
    State.Holds { s with
      tm := writeRecords s.tm 0 (buildTree first others).recs
      nodeCount := BitVec.ofNat 32 (recordsNeeded (others.length + 1))
      ct := codeTable (buildTree first others).codes
      ctValid := v } (buildTree first others) := by
  obtain ⟨⟨-, hcap⟩, -, -⟩ := h.cfgLegal
  have hcount : (BitVec.ofNat 32 (recordsNeeded (others.length + 1))).toNat = recordsNeeded (others.length + 1) :=
    Nat.mod_eq_of_lt (by omega)
  constructor
  case records =>
    intro i hi
    rw [State.nodeAt, tableGet_writeRecords, if_pos ⟨Nat.zero_le i, by omega⟩, Nat.sub_zero]
  case count => rw [length_buildTree_recs]; exact hcount
  case countLe => exact hcount.trans_le (hroom.trans hcap)
  case table => rfl

theorem codesMatch_execTreeBuild {s t : State} (h : s.Inv) (ht : execTreeBuild s = .next t) : t.CodesMatch := by
  obtain ⟨hwf, hcodes⟩ := h
  obtain ⟨-, h'⟩ | ⟨first, others, hsym, ⟨-, h'⟩ | ⟨hroom, h'⟩⟩ := execTreeBuild_cases s <;> cases h'.symm.trans ht
  · exact hcodes.congr rfl rfl rfl rfl
  · exact hcodes.congr rfl rfl rfl rfl
  · have hbuilt := holds_built hwf (first := first) hroom true
    have hperm := buildTree_codes_leaves first others
    have hmatch := hbuilt.codesLead.codesMatch hbuilt.table (hperm.nodup_iff.2 (hsym ▸ nodup_symbols hwf))
      (hperm.mem_iff.2 (hsym ▸ terminator_mem_symbols hwf (by simp [hsym])))
    exact hmatch.congr rfl rfl rfl rfl

/-! Every command, every access, every step. -/

theorem codesMatch_exec {i : Instr} {s t : State} (h : s.Inv) (ht : exec i s = .next t) : t.CodesMatch := by
  obtain ⟨-, -, -, -, -, -, -, -, -, -, -, -, ⟨htm, hn, hct, hv⟩ | rfl, -⟩ := commandsWriteOnlyTheirState i s t ht
  · exact h.codes.congr htm hn hct hv
  · exact codesMatch_execTreeBuild h ht

/-- A host's access that leaves CT_VALID set leaves TM, N and CT as they were (20_memory.md R72). -/
theorem codesMatch_hostAccess {s : State} (h : s.CodesMatch) (a : HostAccess) : (hostAccess s a).CodesMatch := by
  obtain ⟨f, e⟩ | ⟨v, e⟩ | ⟨-, ⟨w, e⟩ | ⟨v, e⟩ | ⟨v, -, e⟩ | ⟨v, -, e⟩ | ⟨i, r, -, e⟩ | ⟨j, b, -, e⟩ | ⟨t, e⟩⟩ :=
    hostAccess_cases s a <;> rw [e]
  · exact h.congr rfl rfl rfl rfl
  · exact h.congr rfl rfl rfl rfl
  · exact h.congr rfl rfl rfl rfl
  · exact h.congr rfl rfl rfl rfl
  · exact .of_ctValid_false rfl
  · exact h.congr rfl rfl rfl rfl
  · exact .of_ctValid_false rfl
  · exact h.congr rfl rfl rfl rfl
  · exact h.congr rfl rfl rfl rfl

theorem inv_step {s t : State} (h : s.Inv) (ht : step s = .next t) : t.Inv :=
  step_preserves (P := State.Inv)
    (fun _ _ h => ⟨{ h.wf with }, h.codes.congr rfl rfl rfl rfl⟩)
    (fun _ a h => ⟨wf_hostAccess h.wf a, codesMatch_hostAccess h.codes a⟩)
    (fun _ w h => ⟨h.wf.raise _ w, h.codes.congr rfl rfl rfl rfl⟩)
    (fun _ _ _ h ht => ⟨wf_exec h.wf ht, codesMatch_exec h ht⟩) h ht

/-- Settles O54: TREE_BUILD stores the tree its codes lead through, and every other write of TM or N clears
CT_VALID. -/
theorem stepKeepsCodesMatching : Obligations.StepKeepsCodesMatching := fun _ _ h ht => (inv_step h ht).codes

end Sys2Proof.Machine
end

section
/-! O55: no step changes a parameter, and none follows a recorded model fault (10_state.md R46, 60_exceptions.md
R291). -/

namespace Sys2Proof.Machine

open Sys2Proof

theorem FaultSet.isEmpty_iff {m : FaultSet} : m.isEmpty = true ↔ m = FaultSet.empty := by
  obtain ⟨u, z, r⟩ := m
  simp [FaultSet.isEmpty, FaultSet.empty, and_assoc]

theorem hostAccess_cfg (s : State) (a : HostAccess) : (hostAccess s a).cfg = s.cfg := by
  obtain ⟨f, e⟩ | ⟨v, e⟩ | ⟨-, ⟨w, e⟩ | ⟨v, e⟩ | ⟨v, -, e⟩ | ⟨v, -, e⟩ | ⟨i, r, -, e⟩ | ⟨j, b, -, e⟩ | ⟨t, e⟩⟩ :=
    hostAccess_cases s a <;> rw [e] <;> rfl

theorem exec_cfg {i : Instr} {s t : State} (h : exec i s = .next t) : t.cfg = s.cfg :=
  (commandsWriteOnlyTheirState i s t h).1

theorem step_cfg {s t : State} (h : step s = .next t) : t.cfg = s.cfg :=
  step_preserves (P := fun x => x.cfg = s.cfg) (fun _ _ h => h) (fun x a h => (hostAccess_cfg x a).trans h)
    (fun _ _ h => h) (fun _ _ _ h ht => (exec_cfg ht).trans h) rfl h

/-- A step is taken only while no model fault is recorded (60_exceptions.md R291). -/
theorem mfault_eq_empty_of_step {s t : State} (h : step s = .next t) : s.mfault = FaultSet.empty :=
  FaultSet.isEmpty_iff.1 (step_cases h).1

/-- Settles O55: every turn keeps the parameters, and every turn first checks that MFAULT is empty. -/
theorem stepKeepsParametersAndFaults : Obligations.StepKeepsParametersAndFaults := fun _ _ h =>
  ⟨step_cfg h, mfault_eq_empty_of_step h, fun hne _ hr => hne (mfault_eq_empty_of_step hr)⟩

end Sys2Proof.Machine
end

section
/-! O52: the state after reset meets the invariant every step keeps (10_state.md R45, R39). -/

namespace Sys2Proof.Machine

open Sys2Proof

theorem below_nil {α : Type} (n : Nat) : Below n ([] : Table α) := fun _ he => absurd he List.not_mem_nil

theorem wf_reset : State.reset.Wf where
  cfgLegal := by decide
  nodeCountLe := Nat.zero_le _
  dataLenLe := Nat.zero_le _
  rdPosLe := Nat.zero_le _
  wbLe := Nat.zero_le _
  freqRising := List.Pairwise.nil
  freqBelow := below_nil _
  freqNonzero := fun _ he => absurd he List.not_mem_nil
  terminatorCounted := fun hne => absurd rfl hne
  ctRising := List.Pairwise.nil
  ctBelow := below_nil _
  ctNonempty := fun _ he => absurd he List.not_mem_nil
  tmRising := List.Pairwise.nil
  tmBelow := below_nil _
  dmWf := Memory.wf_reset
  dmBelow := below_nil _
  busyLatched := nofun

/-- Settles O52: every register is 0, every table is empty, and CT_VALID = 0. -/
theorem resetMeetsInvariant : Obligations.ResetMeetsInvariant := ⟨wf_reset, .of_ctValid_false rfl⟩

end Sys2Proof.Machine
end

section
/-! O5: a step of the engine performs the latched command (10_state.md R20, R24). -/

namespace Sys2Proof.Machine

open Sys2Proof

/-- The decoder reads back every instruction's word (30_encoding.md R92, R93). -/
theorem decode_encode (i : Instr) : decode (encode i) = .ok i := by
  cases i with
  | wrBit b => cases b <;> decide
  | rdInit | rdBit | wrClear | wrPos | wrFinish | freqClear | freqAdd | treeBuild | decode | encode => decide

theorem takeTurn_engine {s : State} {c : Command} {i : Instr} (h : s.Running c) (hi : decode c.word = .ok i) :
    takeTurn .engine s = exec i s := by
  simp only [takeTurn, h.noFault, engineTurn, h.busy, h.latched, performWord, hi, if_true]

theorem step_of_engine_waiting {s : State} {rest : List Turn} (h : s.agenda = .engine :: rest) :
    step s = takeTurn .engine { s with agenda := rest } := by
  rw [step, nextTurn, h]

theorem step_of_agenda_nil {s : State} (h : s.agenda = []) : step s = takeTurn .engine s := by
  rw [step, nextTurn, h]

theorem running_issue {s : State} (h : s.mfault.isEmpty = true) (w : Word32) :
    (s.issue w).Running ⟨w, s.textIn⟩ := ⟨h, rfl, rfl⟩

theorem withFetchWord_encode (s : State) (i : Instr) :
    s.withFetchWord 32 (encode i).toNat = placeCommand s (encode i) := by
  rw [State.withFetchWord, Nat.mod_eq_of_lt (encode i).isLt, BitVec.ofNat_toNat, BitVec.setWidth_eq]

/-- Settles O5: the engine's turn performs the word latched, and a word placed is an instruction's own. -/
theorem stepPerformsLatchedCommand : Obligations.StepPerformsLatchedCommand := by
  refine ⟨fun s c i h hi => ⟨fun ha => ?_, fun rest ha => ?_⟩, fun s i hm => ?_⟩
  · rw [step_of_agenda_nil ha, takeTurn_engine h hi]
  · rw [step_of_engine_waiting ha]
    exact takeTurn_engine { h with } hi
  · rw [withFetchWord_encode, step_of_engine_waiting (s := placeCommand s (encode i)) rfl]
    exact takeTurn_engine (running_issue hm (encode i)) (decode_encode i)

end Sys2Proof.Machine
end

section
/-! O42, O43, O44, O45 and O47: the host's accesses to the register window and the ports (10_state.md R23 to R41). -/

namespace Sys2Proof.Machine

open Sys2Proof

/-! The STATUS word (10_state.md R25). -/

/-- The word a read of STATUS returns, as a function of the three fields it holds. -/
def packStatus (ctValid : Bool) (code : BitVec 4) (busy : Bool) : Word32 :=
  (0 : BitVec 23) ++ BitVec.ofBool ctValid ++ code ++ (0 : BitVec 3) ++ BitVec.ofBool busy

theorem statusWord_eq_packStatus (s : State) : s.statusWord = packStatus s.ctValid s.errCode.code s.busy := rfl

theorem packStatus_fields : ∀ (ctValid : Bool) (code : BitVec 4) (busy : Bool),
    (packStatus ctValid code busy).getLsbD 0 = busy ∧ (packStatus ctValid code busy).extractLsb' 1 3 = 0 ∧
    (packStatus ctValid code busy).extractLsb' 4 4 = code ∧ (packStatus ctValid code busy).getLsbD 8 = ctValid ∧
    (packStatus ctValid code busy).extractLsb' 9 23 = 0 := by
  decide

/-- Settles O42: the numbers are those of `ErrCode.code`, and STATUS holds the three fields in their places. -/
theorem statusWordFields : Obligations.StatusWordFields := by
  refine ⟨rfl, rfl, rfl, rfl, rfl, rfl, rfl, rfl, rfl, rfl, fun s => ?_⟩
  rw [statusWord_eq_packStatus]
  exact packStatus_fields s.ctValid s.errCode.code s.busy

/-! One step of the host. -/

/-- A step of the host, while no model fault is recorded, is its access (20_memory.md R75). -/
theorem hostStep_eq {s : State} (h : s.mfault.isEmpty = true) (a : HostAccess) :
    hostStep a s = .next (hostAccess s a) := takeTurn_host a h

theorem hostStep_idle {s : State} (h : s.Idle) (a : HostAccess) : hostStep a s = .next (idleAccess s a) := by
  rw [hostStep_eq h.noFault, hostAccess, if_neg (by simp [h.busy])]

/-- A 4-byte read at a readable register's offset answers its word (10_state.md R23). -/
theorem idleAccess_readReg {s : State} {offset : Nat} {w : Word32} (h : (regAt offset).bind (readReg s) = some w) :
    idleAccess s (.readReg 4 offset) = s.answer (.word w) := by
  simp only [idleAccess, accessReadReg, if_true, h]

theorem hostStep_readReg {s : State} (h : s.Idle) {offset : Nat} {w : Word32}
    (hr : (regAt offset).bind (readReg s) = some w) :
    hostStep (.readReg 4 offset) s = .next { s with hostData := .word w } := by
  rw [hostStep_idle h, idleAccess_readReg hr]; rfl

theorem hostStep_readStatus {s : State} (h : s.mfault.isEmpty = true) :
    hostStep .readStatus s = .next { s with hostData := .word s.statusWord } := by
  rw [hostStep_eq h, hostAccess, if_neg (by simp), HostAccess.readStatus, idleAccess_readReg rfl]; rfl

/-- Settles O43: at each readable offset the window has a register with that word. -/
theorem hostReadsRegisters : Obligations.HostReadsRegisters := fun _ =>
  ⟨fun h => hostStep_readStatus h, fun h =>
    ⟨hostStep_readReg h rfl, hostStep_readReg h rfl, hostStep_readReg h rfl, hostStep_readReg h rfl,
      hostStep_readReg h rfl, hostStep_readReg h rfl, hostStep_readReg h rfl, hostStep_readReg h rfl,
      hostStep_readReg h rfl, hostStep_readReg h rfl, hostStep_readReg h rfl⟩⟩

theorem hostStep_writeReg {s : State} (h : s.Idle) {offset : Nat} {r : Reg} (hr : regAt offset = some r)
    (v : Word32) : hostStep (.writeReg 4 offset v) s = .next (writeReg s v r) := by
  rw [hostStep_idle h]; simp only [idleAccess, accessWriteReg, if_true, hr]

theorem writeReg_nodeCount {s : State} {v : Word32} (h : v.toNat ≤ s.cfg.nodeCap) :
    writeReg s v .nodeCount = { s with nodeCount := v, ctValid := false } := if_neg (Nat.not_lt.2 h)

theorem writeReg_dataLen {s : State} {v : Word32} (h : v.toNat ≤ s.cfg.dataCap) :
    writeReg s v .dataLen = { s with dataLen := v } := if_neg (Nat.not_lt.2 h)

/-- Settles O44: at each of the four offsets the window has a writable register. -/
theorem hostWritesRegisters : Obligations.HostWritesRegisters := by
  refine fun s v h => ⟨?cmd, ?arg0, fun hv => ?nodeCount, fun hv => ?dataLen⟩
  case cmd => exact hostStep_writeReg h (r := .cmd) rfl v
  case arg0 => exact hostStep_writeReg h (r := .arg0) rfl v
  case nodeCount => rw [hostStep_writeReg h (r := .nodeCount) rfl v, writeReg_nodeCount hv]
  case dataLen => rw [hostStep_writeReg h (r := .dataLen) rfl v, writeReg_dataLen hv]

/-! The tree port and the data port (10_state.md R34, R35). -/

theorem hostStep_writeNode {s : State} (h : s.Idle) {i : Nat} (hi : i < s.cfg.nodeCap) (r : NodeRecord) :
    hostStep (.writeNode i r) s = .next { s with tm := tableSet s.tm i r, ctValid := false } := by
  rw [hostStep_idle h, idleAccess, accessWriteNode, if_pos hi]; rfl

theorem hostStep_writeData {s : State} (h : s.Idle) {j : Nat} (hj : j < s.cfg.dataCap) (b : Byte) :
    hostStep (.writeData j b) s = .next { s with dm := s.dm.write j b } := by
  rw [hostStep_idle h, idleAccess, accessWriteData, if_pos hj]

theorem hostStep_readNode {s : State} (h : s.Idle) {i : Nat} (hi : i < s.cfg.nodeCap) :
    hostStep (.readNode i) s = .next (answerOrUninit s ((s.nodeAt i).map .node)) := by
  rw [hostStep_idle h, idleAccess, accessReadNode, if_pos hi]

theorem hostStep_readData {s : State} (h : s.Idle) {j : Nat} (hj : j < s.cfg.dataCap) :
    hostStep (.readData j) s = .next (answerOrUninit s ((s.byteAt j).map .byte)) := by
  rw [hostStep_idle h, idleAccess, accessReadData, if_pos hj]

/-- A read of a record never written records UninitRead (10_state.md R34). -/
theorem hostStep_readNode_unwritten {s : State} (h : s.Idle) {i : Nat} (hi : i < s.cfg.nodeCap)
    (hn : s.nodeAt i = none) :
    hostStep (.readNode i) s = .next { s with mfault := { s.mfault with uninitRead := true } } := by
  rw [hostStep_readNode h hi, hn]; rfl

/-- A read of a byte never written records UninitRead (10_state.md R35). -/
theorem hostStep_readData_unwritten {s : State} (h : s.Idle) {j : Nat} (hj : j < s.cfg.dataCap)
    (hn : s.byteAt j = none) :
    hostStep (.readData j) s = .next { s with mfault := { s.mfault with uninitRead := true } } := by
  rw [hostStep_readData h hj, hn]; rfl

/-- Settles O45: a port's write is a write of its table, and its reads answer what the table lists. -/
theorem hostUsesPorts : Obligations.HostUsesPorts := by
  intro s h
  refine ⟨fun i r hi => ?_, fun i r hi hr => ?_, fun i hi hn => hostStep_readNode_unwritten h hi hn,
    fun j b hj => ?_, fun j b hj hb => ?_, fun j hj hn => hostStep_readData_unwritten h hj hn,
    fun t => hostStep_idle h _, hostStep_idle h _, hostStep_idle h _⟩
  · exact ⟨_, hostStep_writeNode h hi r, tableGet_tableSet_self .., fun j hj => tableGet_tableSet_ne _ r hj.symm⟩
  · rw [hostStep_readNode h hi, hr]; rfl
  · exact ⟨_, hostStep_writeData h hj b, Memory.read_write_self .., fun k hk => Memory.read_write_ne _ b hk.symm⟩
  · rw [hostStep_readData h hj, hb]; rfl

/-- Settles O47: the check of BUSY comes before the access itself. -/
theorem busyAccessIsHazard : Obligations.BusyAccessIsHazard := fun s a hm hb ha => by
  rw [hostStep_eq hm, hostAccess, if_pos ⟨hb, ha⟩]; rfl

end Sys2Proof.Machine
end

section
/-! O51: the state after reset (10_state.md R45). -/

namespace Sys2Proof.Machine

open Sys2Proof

theorem idle_reset : State.reset.Idle := ⟨rfl, rfl⟩

/-- Settles O51: every field is the table's, and no record and no byte is written. -/
theorem resetState : Obligations.ResetState := by
  have hfields : State.reset.statusWord = 0 ∧ State.reset.wrPos = 0 := by decide
  refine ⟨hfields.1, rfl, rfl, rfl, rfl, rfl, rfl, rfl, rfl, rfl, hfields.2, rfl, fun _ => rfl, fun _ => rfl,
    fun _ => rfl, fun _ => rfl, rfl, rfl, rfl, rfl, rfl, fun i hi => ?_, fun j hj => ?_⟩
  · exact hostStep_readNode_unwritten idle_reset hi rfl
  · exact hostStep_readData_unwritten idle_reset hj rfl

end Sys2Proof.Machine
end

section
/-! O13: bit_at reads back what pack wrote (20_memory.md R66). Bit `k` is in byte `k / 8` at the place of its bit
`k % 8`, for the writer and the reader alike. -/

namespace Sys2Proof.Machine

open Sys2Proof

theorem getElem?_pack (order : BitOrder) (w : Bits) {j : Nat} (h : j < (pack order w).length) :
    (pack order w)[j]? = some (packByte order w j) := by
  rw [length_pack] at h
  rw [pack, List.getElem?_map, List.getElem?_range h, Option.map_some]

/-- With pack(w) in data memory, bit_at reads w and its padding (20_memory.md R64, R65). -/
theorem bitAt_of_pack_loaded {s : State} {w : Bits}
    (hload : ∀ j, j < (pack s.cfg.bitOrder w).length → s.byteAt j = (pack s.cfg.bitOrder w)[j]?)
    {k : Nat} (hk : k / 8 < (pack s.cfg.bitOrder w).length) : bitAt s k = some (w.getD k false) := by
  have hbyte : s.byteAt (k / 8) = some (packByte s.cfg.bitOrder w (k / 8)) :=
    (hload _ hk).trans (getElem?_pack _ _ hk)
  have hbit := getLsbD_packByte s.cfg.bitOrder w (k / 8) (Nat.mod_lt k (by decide : 0 < 8))
  rw [Nat.div_add_mod] at hbit
  rw [bitAt, hbyte]
  exact congrArg some hbit

/-- Settles O13: every bit below 8·D is in a byte of pack(w), and holds w's bit or the padding. -/
theorem readerReadsWhatWriterPacked : Obligations.ReaderReadsWhatWriterPacked := by
  intro s w hlen hload
  refine ⟨fun k hk => ?bits, fun k hk hend => ?padding⟩
  case bits =>
    rw [bitAt_of_pack_loaded hload (by rw [length_pack]; omega), List.getD_eq_getElem?_getD,
      List.getElem?_eq_getElem hk, Option.getD_some]
  case padding =>
    rw [bitAt_of_pack_loaded hload (by omega), List.getD_eq_default _ _ hk]

end Sys2Proof.Machine
end

section
/-! O29: DECODE's results are a function of its inputs (20_memory.md R79). The loop reads a bit only while bits are
left, so below 8·D, and takes only records below N. -/

namespace Sys2Proof.Machine

open Sys2Proof

/-- The two states agree on everything DECODE reads (20_memory.md R79). -/
structure SameDecodeInputs (s s' : State) : Prop where
  nodeCount : s'.nodeCount = s.nodeCount
  dataLen   : s'.dataLen = s.dataLen
  arg0      : s'.arg0 = s.arg0
  bitOrder  : s'.cfg.bitOrder = s.cfg.bitOrder
  outCap    : s'.cfg.outCap = s.cfg.outCap
  nodes     : ∀ i, i < s.nodeCount.toNat → s'.nodeAt i = s.nodeAt i
  bytes     : ∀ j, j < s.dataLen.toNat → s'.byteAt j = s.byteAt j

theorem SameDecodeInputs.bitAt_eq {s s' : State} (h : SameDecodeInputs s s') {k : Nat} (hk : k < s.bitLength) :
    bitAt s' k = bitAt s k := by
  have hj : k / 8 < s.dataLen.toNat := by rw [State.bitLength] at hk; omega
  rw [bitAt, bitAt, h.bytes _ hj, h.bitOrder]

/-- The loop looks at nothing but its inputs, from any record below N with the bits left in the stream. -/
theorem SameDecodeInputs.decodeLoop_eq {s s' : State} (h : SameDecodeInputs s s') {left pos : Nat}
    (hleft : left = s.bitLength - pos) (out : Text) {cur : Nat} (hcur : cur < s.nodeCount.toNat) (depth : Nat) :
    decodeLoop s' left pos out cur depth = decodeLoop s left pos out cur depth := by
  induction left generalizing pos out cur depth with
  | zero => rfl
  | succ left ih =>
    have hnext : left = s.bitLength - (pos + 1) := by omega
    have hroot : 0 < s.nodeCount.toNat := by omega
    rw [decodeLoop, decodeLoop, h.bitAt_eq (by omega), h.nodes cur hcur, h.nodeCount, h.outCap]
    cases bitAt s pos with
    | none => rfl
    | some b =>
      cases s.nodeAt cur with
      | none => rfl
      | some rec =>
        dsimp only
        by_cases hin : s.nodeCount.toNat ≤ (rec.child b).toNat
        · simp only [if_pos hin, ih hnext _ hroot]
        · simp only [if_neg hin, ih hnext _ hroot, ih hnext _ (Nat.lt_of_not_le hin)]

theorem SameDecodeInputs.decodeWalk_eq {s s' : State} (h : SameDecodeInputs s s') (off : Nat) :
    decodeWalk s' off = decodeWalk s off := by
  have hlen : s'.bitLength = s.bitLength := by rw [State.bitLength, State.bitLength, h.dataLen]
  rw [decodeWalk, decodeWalk, h.nodeCount, hlen]
  by_cases hn : s.nodeCount = 0
  · rw [if_pos hn, if_pos hn]
  · have hroot : 0 < s.nodeCount.toNat := Nat.pos_of_ne_zero fun h0 => hn (BitVec.eq_of_toNat_eq h0)
    rw [if_neg hn, if_neg hn, h.decodeLoop_eq rfl [] hroot 0]

@[simp] theorem FaultSet.isEmpty_add (m : FaultSet) (f : ModelFault) : (m.add f).isEmpty = false := by
  cases f <;> simp [FaultSet.add, FaultSet.isEmpty]

/-- Settles O29: the walks are the same, and how DECODE ends is a function of the walk. -/
theorem decodeDependsOnItsInputs : Obligations.DecodeDependsOnItsInputs := by
  intro s s' t hn hlen harg horder hcap hnodes hbytes hm' ht hm
  have same : SameDecodeInputs s s' := ⟨hn, hlen, harg, horder, hcap, hnodes, hbytes⟩
  have hwalk : decodeWalk s' s'.offOperand.toNat = decodeWalk s s.offOperand.toNat := by
    rw [same.decodeWalk_eq, State.offOperand, State.offOperand, harg]
  simp only [exec, execDecode] at ht ⊢
  rw [hwalk]
  cases hw : decodeWalk s s.offOperand.toNat with
  | returned pos out =>
    rw [hw] at ht; cases ht
    exact ⟨rfl, rfl, _, rfl, hm', rfl, rfl, rfl, rfl, rfl⟩
  | raised pos e info =>
    rw [hw] at ht; cases ht
    exact ⟨rfl, rfl, _, rfl, hm', rfl, rfl, rfl, rfl, rfl⟩
  | uninit pos =>
    rw [hw] at ht; cases ht
    exact absurd hm (by simp)

end Sys2Proof.Machine
end

section
/-! O34: texts encoded one after another stand one after another in the writer (20_memory.md R80). -/

namespace Sys2Proof.Machine

open Sys2Proof

theorem textCode_congr {s s' : State} (h : s'.ct = s.ct) (t : Text) : textCode s' t = textCode s t := by
  induction t with
  | nil => rfl
  | cons u t ih => rw [textCode, textCode, ih, State.codeOf, State.codeOf, h]

theorem codeString_congr {s s' : State} (h : s'.ct = s.ct) (t : Text) : codeString s' t = codeString s t :=
  textCode_congr h _

/-- An ENCODE that succeeds appends its code string, returns the length written before it, and keeps the codes
(44_huffman_encode.md R222). -/
theorem encode_succeeds {s s' : State} {t : Text} (h : execWithText .encode t s = .next s') (hok : s'.errCode = .ok) :
    ∃ c, codeString s t = some c ∧ s'.wb = s.wb ++ c ∧ s'.result = BitVec.ofNat 64 s.wb.length ∧ s'.ct = s.ct := by
  obtain ⟨e, info, he, h'⟩ | ⟨-, -, c, hc, hlen, -, h'⟩ | ⟨-, -, -, h'⟩ :=
    execEncode_cases { s with pending := some ⟨encode .encode, t⟩ } <;> cases h'.symm.trans h
  · cases (hok : e = .ok)
    exact absurd he (by decide)
  · have hsmall : s.wb.length < 2 ^ 64 := Nat.lt_of_le_of_lt hlen (by decide)
    have hcodes := codeString_congr (s := s) (s' := { s with pending := some ⟨encode .encode, t⟩ }) rfl t
    exact ⟨c, hcodes.symm.trans hc, rfl, word64_eq hsmall, rfl⟩

/-- Settles O34: the second ENCODE finds the first one's writer and the same codes. -/
theorem encodingsConcatenate : Obligations.EncodingsConcatenate := by
  intro s s1 s2 t1 t2 h1 hok1 h2 hok2
  obtain ⟨c1, hc1, hwb1, hres1, hct1⟩ := encode_succeeds h1 hok1
  obtain ⟨c2, hc2, hwb2, hres2, -⟩ := encode_succeeds h2 hok2
  refine ⟨c1, c2, hc1, (codeString_congr hct1 t2).symm.trans hc2, by rw [hwb2, hwb1], hres1, ?_⟩
  rw [hres2, hwb1, List.length_append]

end Sys2Proof.Machine
end

section
/-! O49 and O50: what the host's accesses leave as it was (20_memory.md R72, R78). -/

namespace Sys2Proof.Machine

open Sys2Proof

/-- `t` is `s` after a read: the value read is answered or a model fault is recorded (20_memory.md R72). -/
def AnswersOrFaults (s t : State) : Prop := (∃ v, t = s.answer v) ∨ ∃ f, t = s.recordFault f

/-- `t` has the CT_VALID, TM and N of `s`. -/
structure KeepsTree (s t : State) : Prop where
  ctValid   : t.ctValid = s.ctValid
  tm        : t.tm = s.tm
  nodeCount : t.nodeCount = s.nodeCount

theorem AnswersOrFaults.keepsTree {s t : State} (h : AnswersOrFaults s t) : KeepsTree s t := by
  obtain ⟨v, rfl⟩ | ⟨f, rfl⟩ := h <;> exact ⟨rfl, rfl, rfl⟩

theorem AnswersOrFaults.frame {s t : State} (h : AnswersOrFaults s t) :
    t = { s with hostData := t.hostData, mfault := t.mfault } := by
  obtain ⟨v, rfl⟩ | ⟨f, rfl⟩ := h <;> rfl

theorem answersOrFaults_answer (s : State) (v : HostValue) : AnswersOrFaults s (s.answer v) := .inl ⟨v, rfl⟩

theorem answersOrFaults_recordFault (s : State) (f : ModelFault) : AnswersOrFaults s (s.recordFault f) := .inr ⟨f, rfl⟩

theorem answersOrFaults_answerOrUninit (s : State) (v : Option HostValue) :
    AnswersOrFaults s (answerOrUninit s v) := by
  cases v with
  | none => exact answersOrFaults_recordFault s _
  | some v => exact answersOrFaults_answer s v

/-! The reads (10_state.md R23, R34, R35). -/

theorem answersOrFaults_accessReadReg (s : State) (width offset : Nat) :
    AnswersOrFaults s (accessReadReg s width offset) := by
  rw [accessReadReg]
  split
  · split
    · exact answersOrFaults_answer s _
    · exact answersOrFaults_recordFault s _
  · exact answersOrFaults_recordFault s _

theorem answersOrFaults_accessReadNode (s : State) (i : Nat) : AnswersOrFaults s (accessReadNode s i) := by
  rw [accessReadNode]
  split
  · exact answersOrFaults_answerOrUninit s _
  · exact answersOrFaults_recordFault s _

theorem answersOrFaults_accessReadData (s : State) (j : Nat) : AnswersOrFaults s (accessReadData s j) := by
  rw [accessReadData]
  split
  · exact answersOrFaults_answerOrUninit s _
  · exact answersOrFaults_recordFault s _

/-- An access records HostHazard or is the access made while BUSY = 0 (10_state.md R33). -/
theorem hostAccess_eq_hazard_or_idle (s : State) (a : HostAccess) :
    hostAccess s a = s.recordFault .hostHazard ∨ hostAccess s a = idleAccess s a := by
  rw [hostAccess]
  split
  · exact .inl rfl
  · exact .inr rfl

/-- Settles O49: every read answers or faults, BUSY or not. -/
theorem hostReadsHaveNoSideEffect : Obligations.HostReadsHaveNoSideEffect := by
  intro s a hm hread
  refine ⟨hostAccess s a, hostStep_eq hm a, AnswersOrFaults.frame ?_⟩
  obtain h | h := hostAccess_eq_hazard_or_idle s a <;> rw [h]
  · exact answersOrFaults_recordFault s _
  · obtain ⟨width, offset, rfl⟩ | ⟨i, rfl⟩ | ⟨j, rfl⟩ | rfl | rfl := hread
    · exact answersOrFaults_accessReadReg s width offset
    · exact answersOrFaults_accessReadNode s i
    · exact answersOrFaults_accessReadData s j
    · exact answersOrFaults_answer s _
    · exact answersOrFaults_answer s _

/-! The writes (10_state.md R23, R29, R34). -/

theorem regAt_eq_nodeCount {offset : Nat} (h : regAt offset = some .nodeCount) : offset = 0x14 := by
  unfold regAt at h
  split at h <;> simp at h ⊢

theorem keepsTree_writeReg (s : State) (v : Word32) {r : Reg} (hr : r ≠ .nodeCount) : KeepsTree s (writeReg s v r) := by
  cases r with
  | nodeCount => exact absurd rfl hr
  | dataLen => simp only [writeReg, writeDataLen]; split <;> exact ⟨rfl, rfl, rfl⟩
  | cmd | arg0 | status | errInfoLo | errInfoHi | resultLo | resultHi | rdPosLo | rdPosHi | wrPosLo | wrPosHi =>
    exact ⟨rfl, rfl, rfl⟩

theorem keepsTree_accessWriteReg (s : State) {width offset : Nat} (v : Word32)
    (h : (HostAccess.writeReg width offset v).writesTree = false) : KeepsTree s (accessWriteReg s width offset v) := by
  rw [accessWriteReg]
  split
  next hw =>
    split
    next r hr =>
      refine keepsTree_writeReg s v fun hn => ?_
      simp [HostAccess.writesTree, hw, regAt_eq_nodeCount (hn ▸ hr)] at h
    · exact (answersOrFaults_recordFault s _).keepsTree
  · exact (answersOrFaults_recordFault s _).keepsTree

theorem keepsTree_accessWriteData (s : State) (j : Nat) (b : Byte) : KeepsTree s (accessWriteData s j b) := by
  rw [accessWriteData]
  split <;> exact ⟨rfl, rfl, rfl⟩

theorem keepsTree_idleAccess (s : State) {a : HostAccess} (h : a.writesTree = false) :
    KeepsTree s (idleAccess s a) := by
  cases a with
  | readReg width offset => exact (answersOrFaults_accessReadReg s width offset).keepsTree
  | writeReg width offset v => exact keepsTree_accessWriteReg s v h
  | readNode i => exact (answersOrFaults_accessReadNode s i).keepsTree
  | writeNode i r => cases h
  | readData j => exact (answersOrFaults_accessReadData s j).keepsTree
  | writeData j b => exact keepsTree_accessWriteData s j b
  | writeText t => exact ⟨rfl, rfl, rfl⟩
  | readResText | readResBytes => exact ⟨rfl, rfl, rfl⟩

/-- A write of a record or of NODE_COUNT clears CT_VALID or records HostRange (10_state.md R29, R34). -/
theorem idleAccess_of_writesTree (s : State) {a : HostAccess} (h : a.writesTree = true) :
    idleAccess s a = s.recordFault .hostRange ∨
      ((idleAccess s a).ctValid = false ∧ (idleAccess s a).mfault = s.mfault) := by
  cases a with
  | writeNode i r =>
    rw [idleAccess, accessWriteNode]
    split
    · exact .inr ⟨rfl, rfl⟩
    · exact .inl rfl
  | writeReg width offset v =>
    obtain ⟨rfl, rfl⟩ : width = 4 ∧ offset = 0x14 := by simpa [HostAccess.writesTree] using h
    change writeNodeCount s v = _ ∨ (writeNodeCount s v).ctValid = _ ∧ (writeNodeCount s v).mfault = _
    rw [writeNodeCount]
    split
    · exact .inl rfl
    · exact .inr ⟨rfl, rfl⟩
  | readReg | readNode | readData | writeData | writeText | readResText | readResBytes => cases h

/-- What an access does to the tree: it faults, is a write of the tree that clears CT_VALID, or is no such write
and keeps the tree. -/
theorem hostAccess_tree_cases (s : State) (a : HostAccess) :
    (∃ f, hostAccess s a = s.recordFault f) ∨
    (a.writesTree = true ∧ (hostAccess s a).ctValid = false ∧ (hostAccess s a).mfault = s.mfault) ∨
    (a.writesTree = false ∧ KeepsTree s (hostAccess s a)) := by
  obtain h | h := hostAccess_eq_hazard_or_idle s a <;> rw [h]
  · exact .inl ⟨_, rfl⟩
  · cases hw : a.writesTree with
    | true => exact (idleAccess_of_writesTree s hw).imp (⟨_, ·⟩) fun h => .inl ⟨rfl, h⟩
    | false => exact .inr (.inr ⟨rfl, keepsTree_idleAccess s hw⟩)

theorem hostAccess_ct (s : State) (a : HostAccess) : (hostAccess s a).ct = s.ct := by
  obtain ⟨f, e⟩ | ⟨v, e⟩ | ⟨-, ⟨w, e⟩ | ⟨v, e⟩ | ⟨v, -, e⟩ | ⟨v, -, e⟩ | ⟨i, r, -, e⟩ | ⟨j, b, -, e⟩ | ⟨t, e⟩⟩ :=
    hostAccess_cases s a <;> rw [e] <;> rfl

/-- A step the host takes is its access, made while no model fault is recorded (60_exceptions.md R291). -/
theorem hostStep_eq_next {s t : State} {a : HostAccess} (h : hostStep a s = .next t) :
    s.mfault.isEmpty = true ∧ t = hostAccess s a := by
  have hm : s.mfault.isEmpty = true := (step_cases h).1
  rw [hostStep_eq hm] at h
  exact ⟨hm, (Host.Outcome.next.inj h).symm⟩

/-- Settles O50: an access that faults keeps the tree, and so does every access but the writes of TM and NODE_COUNT,
which clear CT_VALID. -/
theorem hostClearsCodeTableOnTreeWrites : Obligations.HostClearsCodeTableOnTreeWrites := by
  intro s t a h
  obtain ⟨hm, rfl⟩ := hostStep_eq_next h
  refine ⟨hostAccess_ct s a, ?_⟩
  obtain ⟨f, he⟩ | ⟨hw, hcleared, hfault⟩ | ⟨hw, hvalid, htm, hn⟩ := hostAccess_tree_cases s a
  · rw [he]
    exact ⟨fun ⟨_, hempty⟩ => absurd hempty (by simp), fun _ => ⟨rfl, rfl, rfl⟩⟩
  · exact ⟨fun _ => hcleared, fun hno => absurd ⟨hw, by rw [hfault, hm]⟩ hno⟩
  · exact ⟨fun ⟨hw', _⟩ => absurd hw' (by simp [hw]), fun _ => ⟨hvalid, htm, hn⟩⟩

end Sys2Proof.Machine
end

section
/-! O1 to O4: the decoder of command words, the encoder and the opcode table (30_encoding.md R90 to R95). -/

namespace Sys2Proof.Machine

open Sys2Proof

/-! What the fields of a command word say of it (30_encoding.md R90, R92). -/

/-- Every instruction's word has the fields R90 and R92 give it, and its row of the table matches it. -/
theorem encodedFields (i : Instr) : Laws.EncodedFields.Statement i :=
  match i with
  | .rdInit => Laws.EncodedFields.rdInit
  | .rdBit => Laws.EncodedFields.rdBit
  | .wrClear => Laws.EncodedFields.wrClear
  | .wrBit b => Laws.EncodedFields.wrBit b
  | .wrPos => Laws.EncodedFields.wrPos
  | .wrFinish => Laws.EncodedFields.wrFinish
  | .freqClear => Laws.EncodedFields.freqClear
  | .freqAdd => Laws.EncodedFields.freqAdd
  | .treeBuild => Laws.EncodedFields.treeBuild
  | .decode => Laws.EncodedFields.decode
  | .encode => Laws.EncodedFields.encode

theorem fields_append (w : Word32) : resField w ++ BitVec.ofBool (bField w) ++ opField w = w := by
  have hb : BitVec.ofBool (bField w) = w.extractLsb' 8 1 := by
    ext k hk
    simp [show k = 0 by omega]
  have hupper : resField w ++ w.extractLsb' 8 1 = w.extractLsb' 8 24 :=
    BitVec.extractLsb'_append_extractLsb'_eq_extractLsb' rfl
  rw [hb, hupper]
  exact BitVec.extractLsb'_append_extractLsb' (w := 24)

/-- An instruction's word is the one word with its fields (R90). -/
theorem encode_eq_iff {w : Word32} {i : Instr} :
    encode i = w ↔ resField w = 0 ∧ bField w = i.operandBit ∧ opField w = i.opcode := by
  constructor
  · rintro rfl
    obtain ⟨hop, hb, hres, -⟩ := encodedFields i
    exact ⟨hres, hb, hop⟩
  · rintro ⟨hres, hb, hop⟩
    rw [encode, ← hres, ← hb, ← hop, fields_append]

theorem opcode_of_instrOfOpcode {op : BitVec 8} {i : Instr} (h : instrOfOpcode op = some i) :
    i.operandBit = false ∧ op = i.opcode := by
  unfold instrOfOpcode at h
  split_ifs at h <;> cases h <;> exact ⟨rfl, ‹_›⟩

/-- A word decodes only to an instruction with its fields: the checks of `decode_cw` in their order (R93). -/
theorem fields_of_decode {w : Word32} {i : Instr} (h : decode w = .ok i) :
    resField w = 0 ∧ bField w = i.operandBit ∧ opField w = i.opcode := by
  unfold decode at h
  split_ifs at h with hres hop hb
  · cases h
    exact ⟨not_not.mp hres, rfl, hop⟩
  · split at h <;> cases h
    next hi =>
      obtain ⟨hbit, hop⟩ := opcode_of_instrOfOpcode hi
      exact ⟨not_not.mp hres, by rw [hbit, Bool.eq_false_iff]; exact hb, hop⟩

/-- Settles O2: a word that decodes has the fields of its instruction, so it is that instruction's word, and the
decoder reads every instruction's word back. -/
theorem decodeIsInverseOfEncode : Obligations.DecodeIsInverseOfEncode := by
  intro w i
  constructor
  · exact fun h => encode_eq_iff.mpr (fields_of_decode h)
  · rintro rfl
    exact decode_encode i

/-- A word decodes to the instruction whose fields it has, and to no other (R93). -/
theorem decode_eq_ok_iff {w : Word32} {i : Instr} :
    decode w = .ok i ↔ resField w = 0 ∧ bField w = i.operandBit ∧ opField w = i.opcode :=
  (decodeIsInverseOfEncode w i).trans encode_eq_iff

/-! The rows of the opcode table (R92, R93). -/

/-- A row whose mask fixes every bit matches one word alone, its instruction's. -/
theorem encode_of_matchesRow {w : Word32} {i : Instr} (hmask : i.row.1 = BitVec.allOnes 32) (h : i.matchesRow w) :
    encode i = w := by
  obtain ⟨-, -, -, hi⟩ := encodedFields i
  rw [Instr.matchesRow, hmask, BitVec.and_allOnes] at h hi
  rw [hi, h]

/-- The words that WR_BIT's row matches are those of its two operand bits: the mask leaves bit 8 free. -/
theorem encode_wrBit_of_matchesRow {w : Word32} {b : Bool} (h : (Instr.wrBit b).matchesRow w) :
    encode (.wrBit (bField w)) = w := by
  have hmasked : w &&& 0xFFFFFEFF = 0x00000004 := h
  have hbit : w &&& BitVec.twoPow 32 8 = if bField w then BitVec.twoPow 32 8 else 0 := BitVec.and_twoPow w 8
  calc encode (.wrBit (bField w))
      = 0x00000004 ||| (if bField w then BitVec.twoPow 32 8 else 0) := by cases bField w <;> decide
    _ = w &&& 0xFFFFFEFF ||| w &&& BitVec.twoPow 32 8 := by rw [hmasked, hbit]
    _ = w &&& (0xFFFFFEFF ||| BitVec.twoPow 32 8) := BitVec.and_or_distrib_left.symm
    _ = w := BitVec.and_allOnes

/-- A row matches exactly the words of its instructions (R93). -/
theorem matchesRow_iff_encode {w : Word32} {i : Instr} :
    i.matchesRow w ↔ ∃ j, encode j = w ∧ j.row = i.row := by
  constructor
  · intro h
    cases i with
    | wrBit b => exact ⟨.wrBit (bField w), encode_wrBit_of_matchesRow h, rfl⟩
    | rdInit | rdBit | wrClear | wrPos | wrFinish | freqClear | freqAdd | treeBuild | decode | encode =>
      exact ⟨_, encode_of_matchesRow rfl h, rfl⟩
  · rintro ⟨j, rfl, hrow⟩
    obtain ⟨-, -, -, hmatch⟩ := encodedFields j
    rwa [Instr.matchesRow, ← hrow]

/-- Settles O3: a row matches the words of its own instructions, and these are the words that decode to them. -/
theorem decodeMatchesTableRows : Obligations.DecodeMatchesTableRows := by
  intro w i _
  simp only [decodeIsInverseOfEncode w]
  exact matchesRow_iff_encode.symm

/-! Illegal words (R94, R95). -/

/-- OP of every row of the table, in its order (R92). -/
def assignedOpcodes : List (BitVec 8) := instrRows.map Instr.opcode

theorem opcode_mem_assignedOpcodes (i : Instr) : i.opcode ∈ assignedOpcodes := by
  cases i with
  | wrBit b => simp [assignedOpcodes, instrRows, Instr.opcode]
  | rdInit | rdBit | wrClear | wrPos | wrFinish | freqClear | freqAdd | treeBuild | decode | encode => decide

/-- Only WR_BIT has an operand bit (R90). -/
theorem operandBit_eq_false {i : Instr} (h : i.opcode ≠ 0x04) : i.operandBit = false := by
  cases i with
  | wrBit b => exact absurd rfl h
  | rdInit | rdBit | wrClear | wrPos | wrFinish | freqClear | freqAdd | treeBuild | decode | encode => rfl

/-- An opcode and an operand bit belong to an instruction when the opcode is assigned and the bit is 0 in all but
WR_BIT (R90, R92). -/
theorem exists_instr_iff {op : BitVec 8} {b : Bool} :
    (∃ i : Instr, b = i.operandBit ∧ op = i.opcode) ↔ op ∈ assignedOpcodes ∧ (b = true → op = 0x04) := by
  constructor
  · rintro ⟨i, rfl, rfl⟩
    refine ⟨opcode_mem_assignedOpcodes i, fun hb => ?_⟩
    by_contra hop
    simp [operandBit_eq_false hop] at hb
  · rintro ⟨hmem, hbit⟩
    by_cases hop : op = 0x04
    · exact ⟨.wrBit b, rfl, hop⟩
    · obtain ⟨i, -, rfl⟩ := List.mem_map.mp hmem
      refine ⟨i, ?_, rfl⟩
      rw [operandBit_eq_false hop, Bool.eq_false_iff]
      exact mt hbit hop

/-- The illegal words are those of R94's three cases. -/
theorem decode_ne_ok_iff {w : Word32} :
    (∀ i, decode w ≠ .ok i) ↔
      opField w ∉ assignedOpcodes ∨ resField w ≠ 0 ∨ (bField w = true ∧ opField w ≠ 0x04) := by
  have hlegal : (∃ i, decode w = .ok i) ↔
      resField w = 0 ∧ opField w ∈ assignedOpcodes ∧ (bField w = true → opField w = 0x04) := by
    simp only [decode_eq_ok_iff, exists_and_left, exists_instr_iff]
  rw [← not_exists, hlegal]
  tauto

theorem performWord_of_illegal {w : Word32} (h : ∀ i, decode w ≠ .ok i) (s : State) :
    performWord w s = .next (s.raise .illegalCommand (w.setWidth 64)) := by
  rw [performWord]
  split
  next i hi => exact absurd hi (h i)
  · rfl

theorem takeTurn_engine_of_illegal {s : State} {c : Command} (h : s.Running c) (hi : ∀ i, decode c.word ≠ .ok i) :
    takeTurn .engine s = .next (s.raise .illegalCommand (c.word.setWidth 64)) := by
  simp only [takeTurn, h.noFault, engineTurn, h.busy, h.latched, performWord_of_illegal hi, if_true]

/-- Settles O4: a word decodes unless R94 names it, and the engine's turn at one it names is a raise. -/
theorem illegalWordRaisesIllegalCommand : Obligations.IllegalWordRaisesIllegalCommand := by
  intro s c h
  refine ⟨decode_ne_ok_iff, fun hi => ⟨fun ha => ?_, fun rest ha => ?_⟩⟩
  · rw [step_of_agenda_nil ha]
    exact takeTurn_engine_of_illegal h hi
  · rw [step_of_engine_waiting ha]
    exact takeTurn_engine_of_illegal { h with } hi

/-! The words the spec lists. -/

/-- Settles O1: the decoder is evaluated at each of the fixed words. -/
theorem listedWordsDecode : Obligations.ListedWordsDecode := by
  unfold Obligations.ListedWordsDecode
  decide

end Sys2Proof.Machine
end

section
/-! O6, O7, O8: the bit reader (41_bitio.md R120 to R122). Each command is one transition between the states of a
reader at a cursor; a sequence of commands is then an induction on the number of RD_BITs. -/

namespace Sys2Proof.Machine

open Sys2Proof

theorem execAll_append (first rest : List Instr) (s : State) :
    execAll (first ++ rest) s = andThen (execAll first s) (execAll rest) := by
  induction first generalizing s with
  | nil => rfl
  | cons i first ih =>
    rw [List.cons_append, execAll, execAll]
    cases exec i s with
    | next t => exact ih t
    | fault f => rfl
    | refused r => rfl

theorem execAll_append_of_next {first : List Instr} {s t : State} (h : execAll first s = .next t)
    (rest : List Instr) : execAll (first ++ rest) s = execAll rest t := by
  rw [execAll_append, h, andThen_next]

theorem execAll_cons_of_next {i : Instr} {s t : State} (h : exec i s = .next t) (rest : List Instr) :
    execAll (i :: rest) s = execAll rest t := by
  rw [execAll, h]

/-- Settles O6: RD_INIT is total. -/
theorem rdInitSetsCursor : Obligations.RdInitSetsCursor := ⟨decode_encode .rdInit, fun _ => rfl⟩

theorem exec_rdBit_of_end {s : State} (h : s.bitLength ≤ s.rdPos.toNat) :
    exec .rdBit s = .next (s.raise .outOfRange s.rdPos) :=
  if_pos h

theorem exec_rdBit_of_bit {s : State} {b : Bool} (h : s.rdPos.toNat < s.bitLength)
    (hb : bitAt s s.rdPos.toNat = some b) :
    exec .rdBit s = .next ({ s with rdPos := s.rdPos + 1 }.complete ((BitVec.ofBool b).setWidth 64)) := by
  rw [exec, execRdBit, if_neg (Nat.not_le.2 h), hb]

theorem exec_rdBit_of_unwritten {s : State} (h : s.rdPos.toNat < s.bitLength)
    (hb : bitAt s s.rdPos.toNat = none) : exec .rdBit s = .next (s.recordFault .uninitRead) := by
  rw [exec, execRdBit, if_neg (Nat.not_le.2 h), hb]

/-- R63's position written out, as the statements name it. -/
theorem bitAt_of_byteAt {s : State} {k : Nat} {byte : Byte} (h : s.byteAt (k / 8) = some byte) :
    bitAt s k = some (byte.getLsbD (if s.cfg.bitOrder = .lsbFirst then k % 8 else 7 - k % 8)) := by
  rw [bitAt, h, ← bitPos_eq]

theorem bitAt_eq_none_iff {s : State} {k : Nat} : bitAt s k = none ↔ s.byteAt (k / 8) = none := by
  rw [bitAt]
  cases s.byteAt (k / 8) <;> simp

/-- Settles O7: one equation of RD_BIT for each of R121's cases. -/
theorem rdBitReadsBitAtCursor : Obligations.RdBitReadsBitAtCursor := by
  refine ⟨decode_encode .rdBit, fun s => ⟨fun hend => ?_, fun byte hin hbyte => ?_, fun hin hbyte => ?_⟩⟩
  · exact exec_rdBit_of_end hend
  · exact exec_rdBit_of_bit hin (bitAt_of_byteAt hbyte)
  · exact exec_rdBit_of_unwritten hin (bitAt_eq_none_iff.2 hbyte)

/-- The reader, begun in `s`, after a command that left the cursor at `pos` and returned `r`. -/
def State.readerAt (s : State) (pos : Nat) (r : Word64) : State :=
  { s with rdPos := BitVec.ofNat 64 pos }.complete r

theorem exec_rdInit (s : State) : exec .rdInit s = .next (s.readerAt s.arg0.toNat 0) := by
  rw [State.readerAt, BitVec.ofNat_toNat]
  rfl

theorem State.bitLength_lt (s : State) : s.bitLength < 2 ^ 64 := by
  have hlen := s.dataLen.isLt
  rw [State.bitLength]
  omega

theorem State.toNat_rdPos_readerAt (s : State) {pos : Nat} (h : pos < 2 ^ 64) (r : Word64) :
    (s.readerAt pos r).rdPos.toNat = pos :=
  Nat.mod_eq_of_lt h

/-- A bit of the stream moves the cursor past it and is returned. -/
theorem exec_rdBit_readerAt {s : State} {pos : Nat} {b : Bool} (h : pos < s.bitLength) (hb : bitAt s pos = some b)
    (r : Word64) :
    exec .rdBit (s.readerAt pos r) = .next (s.readerAt (pos + 1) ((BitVec.ofBool b).setWidth 64)) := by
  have hpos := s.toNat_rdPos_readerAt (h.trans s.bitLength_lt) r
  have hnext : (s.readerAt pos r).rdPos + 1 = BitVec.ofNat 64 (pos + 1) := (BitVec.ofNat_add ..).symm
  refine (exec_rdBit_of_bit (hpos.trans_lt h) (hpos.symm ▸ hb)).trans ?_
  rw [hnext]
  rfl

/-- With its bytes written, the stream is read on to any point of it. -/
theorem execAll_rdBits_readerAt {s : State} (hwritten : ∀ j, j < s.dataLen.toNat → s.byteAt j ≠ none)
    {k pos : Nat} (h : k ≤ s.bitLength - pos) (r : Word64) :
    ∃ r', execAll (List.replicate k .rdBit) (s.readerAt pos r) = .next (s.readerAt (pos + k) r') := by
  induction k generalizing pos r with
  | zero => exact ⟨r, rfl⟩
  | succ k ih =>
    have hin : pos < s.bitLength := by omega
    have hbyte : s.byteAt (pos / 8) ≠ none := hwritten _ (Nat.div_lt_of_lt_mul hin)
    obtain ⟨b, hb⟩ := Option.ne_none_iff_exists'.1 (mt bitAt_eq_none_iff.1 hbyte)
    obtain ⟨r', hr'⟩ := ih (pos := pos + 1) (by omega) ((BitVec.ofBool b).setWidth 64)
    refine ⟨r', ?_⟩
    rw [List.replicate_succ, execAll_cons_of_next (exec_rdBit_readerAt hin hb r), hr', Nat.add_right_comm]
    rfl

/-- A failed RD_BIT leaves the cursor, so every RD_BIT after it fails alike (R121). -/
theorem execAll_rdBits_of_end {s : State} (h : s.bitLength ≤ s.rdPos.toNat) (m : Nat) :
    execAll (List.replicate (m + 1) .rdBit) s = .next (s.raise .outOfRange s.rdPos) := by
  induction m generalizing s with
  | zero => exact execAll_cons_of_next (exec_rdBit_of_end h) []
  | succ m ih =>
    rw [List.replicate_succ, execAll_cons_of_next (exec_rdBit_of_end h)]
    exact ih (s := s.raise .outOfRange s.rdPos) h

/-- Settles O8: the bits before the last RD_BIT's are read, as far as the stream goes; then that RD_BIT returns its
bit, or the RD_BITs that are left fail. -/
theorem readerReturnsStreamInOrder : Obligations.ReaderReturnsStreamInOrder := by
  refine fun s n hwritten => ⟨fun b hin hb => ?bit, fun hend => ?fails⟩
  all_goals rw [execAll_cons_of_next (exec_rdInit s)]
  case bit =>
    obtain ⟨r, hr⟩ := execAll_rdBits_readerAt hwritten (k := n) (pos := s.arg0.toNat) (by omega) 0
    rw [List.replicate_succ', execAll_append_of_next hr, execAll_cons_of_next (exec_rdBit_readerAt hin hb r)]
    rfl
  case fails =>
    obtain ⟨r, hr⟩ := execAll_rdBits_readerAt hwritten (le_refl (s.bitLength - s.arg0.toNat)) 0
    obtain ⟨m, hm⟩ : ∃ m, n + 1 = (s.bitLength - s.arg0.toNat) + (m + 1) :=
      ⟨n - (s.bitLength - s.arg0.toNat), by omega⟩
    have hcursor : s.arg0.toNat + (s.bitLength - s.arg0.toNat) = max s.arg0.toNat s.bitLength := by omega
    have hlt : max s.arg0.toNat s.bitLength < 2 ^ 64 := max_lt (by omega) s.bitLength_lt
    rw [hcursor] at hr
    have hpast : s.bitLength ≤ (s.readerAt (max s.arg0.toNat s.bitLength) r).rdPos.toNat :=
      (le_max_right ..).trans_eq (s.toNat_rdPos_readerAt hlt r).symm
    rw [hm, List.replicate_add, execAll_append_of_next hr]
    exact execAll_rdBits_of_end hpast m

end Sys2Proof.Machine
end

section
/-! O9, O10, O11, O12, O14: the bit writer (41_bitio.md R123 to R127). -/

namespace Sys2Proof.Machine

open Sys2Proof

/-- Settles O9: WR_CLEAR is total. -/
theorem wrClearEmptiesWriter : Obligations.WrClearEmptiesWriter := ⟨decode_encode .wrClear, fun _ => rfl⟩

theorem exec_wrBit_of_full {s : State} (h : s.cfg.wbufCapBits ≤ s.wb.length) (b : Bool) :
    exec (.wrBit b) s = .next (s.raise .capacityExceeded (word64 s.wb.length)) :=
  if_pos h

theorem exec_wrBit_of_room {s : State} (h : s.wb.length < s.cfg.wbufCapBits) (b : Bool) :
    exec (.wrBit b) s = .next ({ s with wb := s.wb ++ [b] }.complete 0) :=
  if_neg (Nat.not_le.2 h)

/-- Settles O10: one equation of WR_BIT for each of R124's cases. -/
theorem wrBitAppendsBit : Obligations.WrBitAppendsBit :=
  ⟨decode_encode (.wrBit false), decode_encode (.wrBit true), fun _ b =>
    ⟨fun hfull => exec_wrBit_of_full hfull b, fun hroom => exec_wrBit_of_room hroom b⟩⟩

/-- Settles O11: WR_POS is total. -/
theorem wrPosReturnsBitOffset : Obligations.WrPosReturnsBitOffset := ⟨decode_encode .wrPos, fun _ => rfl⟩

/-- Every bit of pack(w) is w's bit or the padding, at R63's position (20_memory.md R65). -/
theorem getLsbD_pack (order : BitOrder) (w : Bits) {k : Nat} (hk : k / 8 < (pack order w).length) :
    ((pack order w).getD (k / 8) 0).getLsbD (bitPos order (k % 8)) = w.getD k false := by
  rw [List.getD_eq_getElem?_getD, getElem?_pack order w hk, Option.getD_some,
    getLsbD_packByte order w _ (Nat.mod_lt k (by decide)), Nat.div_add_mod]

/-- Settles O12: the bytes are those of pack(WB). -/
theorem wrFinishPacksWriter : Obligations.WrFinishPacksWriter := by
  refine ⟨decode_encode .wrFinish, fun s => ⟨pack s.cfg.bitOrder s.wb, rfl, length_pack .., fun k hk => ?_⟩⟩
  rw [← bitPos_eq]
  exact getLsbD_pack _ _ (Nat.div_lt_of_lt_mul hk)

/-- The writer, begun in `s`, after a command that left it holding `w` and returned nothing. -/
def State.writerHolds (s : State) (w : Bits) : State := { s with wb := w }.complete 0

/-- The bits of a string that fits are appended in order. -/
theorem execAll_wrBits_writerHolds {s : State} {w bits : Bits} (h : w.length + bits.length ≤ s.cfg.wbufCapBits) :
    execAll (bits.map .wrBit) (s.writerHolds w) = .next (s.writerHolds (w ++ bits)) := by
  induction bits generalizing w with
  | nil => rw [List.append_nil]; rfl
  | cons b bits ih =>
    rw [List.length_cons] at h
    have hstep : exec (.wrBit b) (s.writerHolds w) = .next (s.writerHolds (w ++ [b])) :=
      exec_wrBit_of_room (s := s.writerHolds w) (show w.length < s.cfg.wbufCapBits by omega) b
    rw [List.map_cons, execAll_cons_of_next hstep, ih (by rw [List.length_append, List.length_singleton]; omega),
      List.append_assoc, List.singleton_append]

/-- Settles O14: WR_CLEAR leaves the writer empty, the WR_BITs append, and WR_FINISH packs. -/
theorem writerCollectsBits : Obligations.WriterCollectsBits := by
  intro s bits h
  have hclear : exec .wrClear s = .next (s.writerHolds []) := rfl
  have hbits := execAll_wrBits_writerHolds (s := s) (w := []) (bits := bits) (by simpa using h)
  rw [execAll_cons_of_next hclear, execAll_append_of_next hbits, List.nil_append, ← length_pack s.cfg.bitOrder]
  rfl

end Sys2Proof.Machine
end

section
/-! O25 to O28, O30 and O31: the command DECODE (42_huffman_decode.md). How its walk ends is exactly what the
pseudocode's next test says at a point its loop reaches (R154); what a statement says of DECODE then follows from
what holds at every point reached. -/

namespace Sys2Proof.Machine

open Sys2Proof

/-! The bounds and the root of a walk. -/

@[simp] theorem toNat_offOperand (s : State) : s.offOperand.toNat = s.arg0.toNat := by
  rw [State.offOperand, BitVec.toNat_setWidth, Nat.mod_eq_of_lt (s.arg0.isLt.trans (by decide))]

theorem toNat_nodeCount_pos {s : State} (h : s.nodeCount ≠ 0) : 0 < s.nodeCount.toNat :=
  Nat.pos_of_ne_zero fun h0 => h (BitVec.eq_of_toNat_eq h0)

/-- The loop starts at the offset and reads no bit past the stream (42_huffman_decode.md R155). -/
theorem DecodeReaches.pos_le {s : State} {off pos cur depth : Nat} {out : Text}
    (h : DecodeReaches s off pos out cur depth) : pos ≤ max off s.bitLength := by
  cases h <;> omega

theorem DecodeReaches.pos_lt {s : State} {pos cur depth : Nat} {out : Text}
    (h : DecodeReaches s s.arg0.toNat pos out cur depth) : pos < 2 ^ 64 := by
  have hpos := h.pos_le
  have hlen := s.bitLength_lt
  have harg := s.arg0.isLt
  omega

/-- Every record the loop looks at is below N. -/
theorem DecodeReaches.cur_lt {s : State} {off pos cur depth : Nat} {out : Text}
    (h : DecodeReaches s off pos out cur depth) (hroot : s.nodeCount ≠ 0) : cur < s.nodeCount.toNat := by
  cases h with
  | start | emit => exact toNat_nodeCount_pos hroot
  | descend _ _ _ _ _ _ _ _ _ _ _ inTree => exact inTree

theorem DecodeReaches.terminator_notMem {s : State} {off pos cur depth : Nat} {out : Text}
    (h : DecodeReaches s off pos out cur depth) : terminator ∉ out := by
  induction h with
  | start => exact List.not_mem_nil
  | emit _ _ _ _ _ _ u _ _ _ _ _ _ noTerminator _ ih => simpa using ⟨ih, noTerminator.symm⟩
  | descend _ _ _ _ _ _ _ _ _ _ _ _ _ ih => exact ih

/-! Leaves (42_huffman_decode.md R150). -/

theorem leafUnit_of_low {v : Word32} (h : v.toInt < -65536) : leafUnit v = none := by rw [leafUnit, if_pos h]

/-- A negative child that is not below -65536 is the value of a leaf. -/
theorem exists_eq_leafValue {v : Word32} (hneg : v.toInt < 0) (hlow : -65536 ≤ v.toInt) : ∃ u, v = leafValue u :=
  ⟨_, eq_leafValue_of_leafUnit hneg (if_neg (by omega))⟩

theorem neg_65536_le_leafValue (u : CodeUnit) : -65536 ≤ (leafValue u).toInt := by
  have hu := u.isLt
  rw [toInt_leafValue]; omega

theorem leafValue_lt_neg_one_iff {u : CodeUnit} : (leafValue u).toInt < -1 ↔ u ≠ terminator := by
  have hzero : u = terminator ↔ u.toNat = 0 := by rw [BitVec.toNat_eq]; rfl
  rw [toInt_leafValue, ne_eq, hzero]; omega

theorem leafValue_terminator : leafValue terminator = -1 := by decide

/-! The walk and the points the pseudocode reaches (42_huffman_decode.md R154). -/

/-- What the loop does once it has read the bit at `pos` and with it taken the child `v` of the record `cur`. -/
def loopChild (s : State) (pos : Nat) (out : Text) (cur depth : Nat) (v : Word32) : Walk :=
  if v.toInt < 0 then
    match leafUnit v with
    | none => .raised (pos + 1) .malformedTree cur
    | some u =>
      if u = terminator then .returned (pos + 1) out
      else if s.cfg.outCap ≤ out.length then .raised (pos + 1) .capacityExceeded out.length
      else decodeLoop s (s.bitLength - (pos + 1)) (pos + 1) (out ++ [u]) 0 0
  else if s.nodeCount.toNat ≤ v.toNat then .raised (pos + 1) .malformedTree cur
  else if s.nodeCount.toNat ≤ depth + 1 then .raised (pos + 1) .malformedStream (pos + 1)
  else decodeLoop s (s.bitLength - (pos + 1)) (pos + 1) out v.toNat (depth + 1)

theorem bitsLeft_eq_succ {s : State} {pos : Nat} (h : pos < s.bitLength) :
    s.bitLength - pos = s.bitLength - (pos + 1) + 1 := by omega

theorem decodeLoop_of_taken {s : State} {pos cur depth : Nat} {out : Text} {b : Bool} {rec : NodeRecord}
    (hin : pos < s.bitLength) (hb : bitAt s pos = some b) (hr : s.nodeAt cur = some rec) :
    decodeLoop s (s.bitLength - pos) pos out cur depth = loopChild s pos out cur depth (rec.child b) := by
  rw [bitsLeft_eq_succ hin, decodeLoop, hb, hr]; rfl

theorem loopChild_leafValue (s : State) (pos : Nat) (out : Text) (cur depth : Nat) (u : CodeUnit) :
    loopChild s pos out cur depth (leafValue u) =
      if u = terminator then .returned (pos + 1) out
      else if s.cfg.outCap ≤ out.length then .raised (pos + 1) .capacityExceeded out.length
      else decodeLoop s (s.bitLength - (pos + 1)) (pos + 1) (out ++ [u]) 0 0 := by
  rw [loopChild, if_pos (leafValue_neg u), leafUnit_leafValue]

theorem loopChild_index {s : State} {pos cur depth : Nat} {out : Text} {v : Word32} (h : 0 ≤ v.toInt) :
    loopChild s pos out cur depth v =
      if s.nodeCount.toNat ≤ v.toNat then .raised (pos + 1) .malformedTree cur
      else if s.nodeCount.toNat ≤ depth + 1 then .raised (pos + 1) .malformedStream (pos + 1)
      else decodeLoop s (s.bitLength - (pos + 1)) (pos + 1) out v.toNat (depth + 1) := by
  rw [loopChild, if_neg (by omega)]

/-- The walk goes through every point the pseudocode reaches. -/
theorem DecodeReaches.decodeWalk_eq {s : State} {off pos cur depth : Nat} {out : Text}
    (h : DecodeReaches s off pos out cur depth) (hroot : s.nodeCount ≠ 0) :
    decodeWalk s off = decodeLoop s (s.bitLength - pos) pos out cur depth := by
  induction h with
  | start => rw [decodeWalk, if_neg hroot]
  | emit _ _ _ _ _ _ u _ inStream bit record isLeaf unit noTerminator room ih =>
    rw [ih, decodeLoop_of_taken inStream bit record, eq_leafValue_of_leafUnit isLeaf unit, loopChild_leafValue,
      if_neg noTerminator, if_neg (by omega)]
  | descend _ _ _ _ _ _ _ inStream bit record isIndex inTree shallow ih =>
    rw [ih, decodeLoop_of_taken inStream bit record, loopChild_index isIndex, if_neg (by omega), if_neg (by omega)]

theorem DecodeTakes.decodeWalk_eq {s : State} {off pos cur depth : Nat} {out : Text} {v : Word32}
    (h : DecodeTakes s off pos out cur depth v) : decodeWalk s off = loopChild s pos out cur depth v := by
  obtain ⟨hroot, hreach, hin, b, rec, hb, hr, rfl⟩ := h
  rw [hreach.decodeWalk_eq hroot, decodeLoop_of_taken hin hb hr]

/-- The ways DECODE ends by its pseudocode: the terminator, a `raise`, or a byte or a record never written. -/
inductive DecodeEnds (s : State) (off : Nat) : Walk → Prop where
  | returned {pos cur depth : Nat} {out : Text}
      (takes : DecodeTakes s off pos out cur depth (leafValue terminator)) : DecodeEnds s off (.returned (pos + 1) out)
  | raised {pos info : Nat} {e : ErrCode} (raises : DecodeRaises s off pos e info) :
      DecodeEnds s off (.raised pos e info)
  | byteUnwritten {pos cur depth : Nat} {out : Text} (rootExists : s.nodeCount ≠ 0)
      (reached : DecodeReaches s off pos out cur depth) (inStream : pos < s.bitLength)
      (unwritten : bitAt s pos = none) : DecodeEnds s off (.uninit pos)
  | recordUnwritten {pos cur depth : Nat} {out : Text} {b : Bool} (rootExists : s.nodeCount ≠ 0)
      (reached : DecodeReaches s off pos out cur depth) (inStream : pos < s.bitLength) (bit : bitAt s pos = some b)
      (unwritten : s.nodeAt cur = none) : DecodeEnds s off (.uninit (pos + 1))

theorem DecodeRaises.decodeWalk_eq {s : State} {off pos info : Nat} {e : ErrCode} (h : DecodeRaises s off pos e info) :
    decodeWalk s off = .raised pos e info := by
  cases h with
  | noRoot empty => rw [decodeWalk, if_pos empty]
  | exhausted _ _ _ _ rootExists reached past =>
    rw [reached.decodeWalk_eq rootExists, Nat.sub_eq_zero_of_le past, decodeLoop]
  | badLeaf _ _ _ _ _ takes low => rw [takes.decodeWalk_eq, loopChild, if_pos (by omega), leafUnit_of_low low]
  | full _ _ _ _ _ takes isLeaf noRoom =>
    obtain ⟨u, rfl⟩ := exists_eq_leafValue (by omega) isLeaf.1
    rw [takes.decodeWalk_eq, loopChild_leafValue, if_neg (leafValue_lt_neg_one_iff.1 isLeaf.2), if_pos noRoom]
  | badIndex _ _ _ _ _ takes isIndex high => rw [takes.decodeWalk_eq, loopChild_index isIndex, if_pos high]
  | cycle _ _ _ _ _ takes isIndex inTree deep =>
    rw [takes.decodeWalk_eq, loopChild_index isIndex, if_neg (by omega), if_pos deep]

theorem DecodeEnds.decodeWalk_eq {s : State} {off : Nat} {w : Walk} (h : DecodeEnds s off w) :
    decodeWalk s off = w := by
  cases h with
  | returned takes => rw [takes.decodeWalk_eq, loopChild_leafValue, if_pos rfl]
  | raised raises => exact raises.decodeWalk_eq
  | byteUnwritten rootExists reached inStream unwritten =>
    rw [reached.decodeWalk_eq rootExists, bitsLeft_eq_succ inStream, decodeLoop, unwritten]
  | recordUnwritten rootExists reached inStream bit unwritten =>
    rw [reached.decodeWalk_eq rootExists, bitsLeft_eq_succ inStream, decodeLoop, bit, unwritten]

/-- A child taken ends the walk, or the loop reaches a point one bit further. -/
theorem DecodeTakes.ends_or_reaches {s : State} {off pos cur depth : Nat} {out : Text} {v : Word32}
    (h : DecodeTakes s off pos out cur depth v) :
    (∃ w, DecodeEnds s off w) ∨ ∃ out' cur' depth', DecodeReaches s off (pos + 1) out' cur' depth' := by
  have ⟨_, hreach, hin, b, rec, hb, hr, hv⟩ := h
  subst hv
  by_cases hneg : (rec.child b).toInt < 0
  · by_cases hlow : (rec.child b).toInt < -65536
    · exact .inl ⟨_, .raised (.badLeaf _ _ _ _ _ h hlow)⟩
    · obtain ⟨u, hu⟩ := exists_eq_leafValue hneg (not_lt.1 hlow)
      by_cases hterm : u = terminator
      · exact .inl ⟨_, .returned (hterm ▸ hu ▸ h)⟩
      · by_cases hroom : out.length < s.cfg.outCap
        · exact .inr ⟨_, _, _, .emit _ _ _ _ b rec u hreach hin hb hr hneg (hu ▸ leafUnit_leafValue u) hterm hroom⟩
        · have hleaf : (rec.child b).toInt < -1 := hu ▸ leafValue_lt_neg_one_iff.2 hterm
          exact .inl ⟨_, .raised (.full _ _ _ _ _ h ⟨not_lt.1 hlow, hleaf⟩ (not_lt.1 hroom))⟩
  · by_cases htree : (rec.child b).toNat < s.nodeCount.toNat
    · by_cases hshallow : depth + 1 < s.nodeCount.toNat
      · exact .inr ⟨_, _, _, .descend _ _ _ _ b rec hreach hin hb hr (not_lt.1 hneg) htree hshallow⟩
      · exact .inl ⟨_, .raised (.cycle _ _ _ _ _ h (not_lt.1 hneg) htree (not_lt.1 hshallow))⟩
    · exact .inl ⟨_, .raised (.badIndex _ _ _ _ _ h (not_lt.1 hneg) (not_lt.1 htree))⟩

/-- From every point reached the pseudocode comes to an end: each turn leaves one bit fewer in the stream
(42_huffman_decode.md R155). -/
theorem DecodeReaches.exists_ends {s : State} {off pos cur depth : Nat} {out : Text} (hroot : s.nodeCount ≠ 0)
    (h : DecodeReaches s off pos out cur depth) : ∃ w, DecodeEnds s off w := by
  induction hleft : s.bitLength - pos generalizing pos out cur depth with
  | zero => exact ⟨_, .raised (.exhausted _ _ _ _ hroot h (Nat.sub_eq_zero_iff_le.1 hleft))⟩
  | succ left ih =>
    have hin : pos < s.bitLength := by omega
    cases hb : bitAt s pos with
    | none => exact ⟨_, .byteUnwritten hroot h hin hb⟩
    | some b =>
      cases hr : s.nodeAt cur with
      | none => exact ⟨_, .recordUnwritten hroot h hin hb hr⟩
      | some rec =>
        obtain hend | ⟨out', cur', depth', hnext⟩ :=
          DecodeTakes.ends_or_reaches ⟨hroot, h, hin, b, rec, hb, hr, rfl⟩
        · exact hend
        · exact ih hnext (by omega)

/-- The walk ends as the pseudocode ends. -/
theorem decodeEnds_iff {s : State} {off : Nat} {w : Walk} : DecodeEnds s off w ↔ decodeWalk s off = w := by
  refine ⟨DecodeEnds.decodeWalk_eq, ?_⟩
  rintro rfl
  have hend : ∃ w, DecodeEnds s off w := by
    by_cases hroot : s.nodeCount = 0
    · exact ⟨_, .raised (.noRoot hroot)⟩
    · exact DecodeReaches.exists_ends hroot .start
  obtain ⟨w, hw⟩ := hend
  exact hw.decodeWalk_eq ▸ hw

/-! What DECODE answers, by how the pseudocode ends. -/

theorem exec_decode_of_terminator {s : State} {pos cur depth : Nat} {out : Text}
    (h : DecodeTakes s s.arg0.toNat pos out cur depth (leafValue terminator)) : exec .decode s =
      .next ({ s with rdPos := BitVec.ofNat 64 (pos + 1), resText := out }.complete (word64 out.length)) := by
  rw [exec, execDecode, toNat_offOperand, (DecodeEnds.returned h).decodeWalk_eq]

theorem exec_decode_of_raises {s : State} {pos info : Nat} {e : ErrCode}
    (h : DecodeRaises s s.arg0.toNat pos e info) : exec .decode s =
      .next ({ s with rdPos := BitVec.ofNat 64 pos, resText := [] }.raise e (word64 info)) := by
  rw [exec, execDecode, toNat_offOperand, h.decodeWalk_eq]

theorem exec_decode_of_uninit {s : State} {pos : Nat} (h : DecodeEnds s s.arg0.toNat (.uninit pos)) :
    exec .decode s = .next ({ s with rdPos := BitVec.ofNat 64 pos }.recordFault .uninitRead) := by
  rw [exec, execDecode, toNat_offOperand, h.decodeWalk_eq]

/-- What a DECODE that answers a next state did. -/
theorem exec_decode_cases {s t : State} (h : exec .decode s = .next t) :
    (∃ pos out cur depth, DecodeTakes s s.arg0.toNat pos out cur depth (leafValue terminator) ∧
      t = { s with rdPos := BitVec.ofNat 64 (pos + 1), resText := out }.complete (word64 out.length)) ∨
    (∃ pos e info, DecodeRaises s s.arg0.toNat pos e info ∧
      t = { s with rdPos := BitVec.ofNat 64 pos, resText := [] }.raise e (word64 info)) ∨
    ∃ pos, DecodeEnds s s.arg0.toNat (.uninit pos) ∧
      t = { s with rdPos := BitVec.ofNat 64 pos }.recordFault .uninitRead := by
  have hend : DecodeEnds s s.arg0.toNat (decodeWalk s s.arg0.toNat) := decodeEnds_iff.2 rfl
  cases hw : decodeWalk s s.arg0.toNat <;> rw [hw] at hend
  case returned =>
    obtain ⟨htakes⟩ := hend
    exact .inl ⟨_, _, _, _, htakes, Host.Outcome.next.inj (h.symm.trans (exec_decode_of_terminator htakes))⟩
  case raised =>
    obtain - | hraises := hend
    exact .inr (.inl ⟨_, _, _, hraises, Host.Outcome.next.inj (h.symm.trans (exec_decode_of_raises hraises))⟩)
  case uninit =>
    exact .inr (.inr ⟨_, hend, Host.Outcome.next.inj (h.symm.trans (exec_decode_of_uninit hend))⟩)

/-- What a DECODE that recorded no model fault did: it returned or raised. -/
theorem exec_decode_completes {s t : State} (h : exec .decode s = .next t) (hm : t.mfault.isEmpty = true) :
    (∃ pos out cur depth, DecodeTakes s s.arg0.toNat pos out cur depth (leafValue terminator) ∧
      t = { s with rdPos := BitVec.ofNat 64 (pos + 1), resText := out }.complete (word64 out.length)) ∨
    ∃ pos e info, DecodeRaises s s.arg0.toNat pos e info ∧
      t = { s with rdPos := BitVec.ofNat 64 pos, resText := [] }.raise e (word64 info) := by
  obtain hreturned | hraised | ⟨pos, -, rfl⟩ := exec_decode_cases h
  · exact .inl hreturned
  · exact .inr hraised
  · exact absurd hm (by simp [State.recordFault])

/-- Settles O25: each test is a way the pseudocode ends, and the walk ends so. -/
theorem decodeFollowsPseudocode : Obligations.DecodeFollowsPseudocode := by
  refine ⟨decode_encode .decode, fun s => ⟨fun hempty => ?_, fun pos cur depth out hroot hreach => ?_⟩⟩
  · have hoff : BitVec.ofNat 64 s.arg0.toNat = s.arg0.setWidth 64 := BitVec.eq_of_toNat_eq (by simp)
    rw [exec_decode_of_raises (.noRoot hempty), hoff]; rfl
  refine ⟨fun hpast => ?_, fun hin hb => ?_, fun b hin hb => ⟨fun hr => ?_, fun rec hr => ?_⟩⟩
  · rw [exec_decode_of_raises (.exhausted _ _ _ _ hroot hreach hpast), word64_eq hreach.pos_lt]; rfl
  · exact ⟨_, exec_decode_of_uninit (.byteUnwritten hroot hreach hin hb)⟩
  · exact ⟨_, exec_decode_of_uninit (.recordUnwritten hroot hreach hin hb hr)⟩
  · have htakes : DecodeTakes s s.arg0.toNat pos out cur depth (rec.child b) :=
      ⟨hroot, hreach, hin, b, rec, hb, hr, rfl⟩
    refine ⟨fun hlow => exec_decode_of_raises (.badLeaf _ _ _ _ _ htakes hlow), fun hterm => ?_,
      fun hlow hleaf hfull => exec_decode_of_raises (.full _ _ _ _ _ htakes ⟨hlow, hleaf⟩ hfull),
      fun hindex hhigh => exec_decode_of_raises (.badIndex _ _ _ _ _ htakes hindex hhigh),
      fun hindex htree hdeep => ?_⟩
    · rw [hterm, ← leafValue_terminator] at htakes
      exact exec_decode_of_terminator htakes
    · have hnext : pos + 1 < 2 ^ 64 := Nat.lt_of_le_of_lt hin s.bitLength_lt
      rw [exec_decode_of_raises (.cycle _ _ _ _ _ htakes hindex htree hdeep), word64_eq hnext]; rfl

/-! A text that stands coded in the stream (42_huffman_decode.md R156, R160). -/

theorem streamHas_cons {s : State} {pos : Nat} {b : Bool} {c : Bits} (h : streamHas s pos (b :: c)) :
    pos < s.bitLength ∧ bitAt s pos = some b ∧ streamHas s (pos + 1) c := by
  obtain ⟨hlen, hbits⟩ := h
  rw [List.length_cons] at hlen hbits
  refine ⟨by omega, hbits 0 (by omega), by omega, fun i hi => ?_⟩
  rw [Nat.add_right_comm]
  exact hbits (i + 1) (by omega)

/-- A path in the stream that fits under the cycle guard takes the loop to its leaf. -/
theorem DecodeReaches.takes_of_follow {s : State} {off pos cur depth : Nat} {out : Text} {u : CodeUnit} {c : Bits}
    (h : DecodeReaches s off pos out cur depth) (hroot : s.nodeCount ≠ 0) (hf : follow s cur c = some u)
    (hlen : depth + c.length ≤ s.nodeCount.toNat) (hs : streamHas s pos c) :
    ∃ last cur' depth', last + 1 = pos + c.length ∧ DecodeTakes s off last out cur' depth' (leafValue u) := by
  induction c generalizing pos cur depth with
  | nil => simp [follow] at hf
  | cons b c ih =>
    obtain ⟨hin, hb, hrest⟩ := streamHas_cons hs
    cases hr : s.nodeAt cur with
    | none => simp [follow, hr] at hf
    | some rec =>
      rw [follow_cons hr] at hf
      unfold followChild at hf
      split at hf
      next hneg =>
        cases c with
        | nil => exact ⟨pos, cur, depth, rfl, hroot, h, hin, b, rec, hb, hr, eq_leafValue_of_leafUnit hneg hf⟩
        | cons b' c => simp at hf
      next hindex =>
        split at hf
        · simp at hf
        next htree =>
          have hc : c ≠ [] := by rintro rfl; simp [follow] at hf
          have hpos := List.length_pos_iff.2 hc
          rw [List.length_cons] at hlen
          have hnext := DecodeReaches.descend _ _ _ _ b rec h hin hb hr (not_lt.1 hindex) (not_le.1 htree) (by omega)
          obtain ⟨last, cur', depth', hlast, htakes⟩ := ih hnext hf (by omega) hrest
          exact ⟨last, cur', depth', by rw [List.length_cons]; omega, htakes⟩

/-- A child taken that is a unit's leaf, with room for the unit, takes the loop back to the root. -/
theorem DecodeTakes.reaches_root {s : State} {off pos cur depth : Nat} {out : Text} {u : CodeUnit}
    (h : DecodeTakes s off pos out cur depth (leafValue u)) (hu : u ≠ terminator)
    (hroom : out.length < s.cfg.outCap) : DecodeReaches s off (pos + 1) (out ++ [u]) 0 0 := by
  obtain ⟨-, hreach, hin, b, rec, hb, hr, hv⟩ := h
  exact .emit _ _ _ _ b rec u hreach hin hb hr (hv ▸ leafValue_neg u) (hv ▸ leafUnit_leafValue u) hu hroom

theorem codedAt.root_exists {s : State} {pos : Nat} {u : CodeUnit} {c : Bits} (h : codedAt s pos u c) :
    s.nodeCount ≠ 0 := by
  obtain ⟨hf, hlen, -⟩ := h
  intro hempty
  rw [hempty] at hlen
  rw [List.eq_nil_of_length_eq_zero (Nat.le_zero.1 hlen)] at hf
  simp [follow] at hf

/-- A unit coded where the loop is at the root takes the loop to its leaf with the code's last bit. -/
theorem DecodeReaches.takes_of_codedAt {s : State} {off pos : Nat} {out : Text} {u : CodeUnit} {c : Bits}
    (h : DecodeReaches s off pos out 0 0) (hc : codedAt s pos u c) :
    ∃ last cur depth, last + 1 = pos + c.length ∧ DecodeTakes s off last out cur depth (leafValue u) := by
  have hroot := hc.root_exists
  obtain ⟨hf, hlen, hs⟩ := hc
  exact h.takes_of_follow hroot hf (by rwa [Nat.zero_add]) hs

/-- A text spelled where the loop is at the root, if it fits, takes the loop to the terminator's leaf. -/
theorem DecodeReaches.takes_of_spells {s : State} {off pos stop : Nat} {out t : Text}
    (h : DecodeReaches s off pos out 0 0) (hs : spells s pos t stop) (hfits : out.length + t.length ≤ s.cfg.outCap) :
    ∃ last cur depth, last + 1 = stop ∧ DecodeTakes s off last (out ++ t) cur depth (leafValue terminator) := by
  induction t generalizing pos out with
  | nil =>
    obtain ⟨c, hc, rfl⟩ := hs
    rw [List.append_nil]
    exact h.takes_of_codedAt hc
  | cons u t ih =>
    obtain ⟨hu, c, hc, hrest⟩ := hs
    obtain ⟨last, cur, depth, hlast, htakes⟩ := h.takes_of_codedAt hc
    rw [List.length_cons] at hfits
    have hnext := htakes.reaches_root hu (by omega)
    rw [hlast] at hnext
    have hlen : (out ++ [u]).length + t.length ≤ s.cfg.outCap := by
      rw [List.length_append, List.length_singleton]; omega
    obtain ⟨last', cur', depth', hstop, hterm⟩ := ih hnext hrest hlen
    rw [List.append_assoc] at hterm
    exact ⟨last', cur', depth', hstop, hterm⟩

/-- Settles O26: the coded text takes the loop to the terminator's leaf, where DECODE returns. -/
theorem decodeReturnsSpelledText : Obligations.DecodeReturnsSpelledText := by
  intro s t stop hs hfits
  obtain ⟨last, cur, depth, rfl, htakes⟩ :=
    DecodeReaches.start.takes_of_spells hs (by rwa [List.length_nil, Nat.zero_add])
  exact exec_decode_of_terminator htakes

/-! Memory that is written (42_huffman_decode.md R155). -/

/-- A DECODE reads only records below N and bytes below D, so where these are written it finds none unwritten. -/
theorem not_decodeEnds_uninit {s : State} (hnodes : ∀ i, i < s.nodeCount.toNat → s.nodeAt i ≠ none)
    (hbytes : ∀ j, j < s.dataLen.toNat → s.byteAt j ≠ none) (off pos : Nat) : ¬ DecodeEnds s off (.uninit pos) := by
  rintro (- | - | ⟨-, -, inStream, unwritten⟩ | ⟨rootExists, reached, -, -, unwritten⟩)
  · rw [State.bitLength] at inStream
    exact hbytes (pos / 8) (by omega) (bitAt_eq_none_iff.1 unwritten)
  · exact hnodes _ (reached.cur_lt rootExists) unwritten

/-- Settles O27: how DECODE can end, with its cursor's bounds, and that no unwritten memory is read. -/
theorem decodeAlwaysCompletes : Obligations.DecodeAlwaysCompletes := by
  intro s
  obtain ⟨pos, hge, hle, hcases⟩ := execDecode_cases s
  have hlt : pos < 2 ^ 64 := by have := s.bitLength_lt; have := s.arg0.isLt; omega
  have hpos : (BitVec.ofNat 64 pos).toNat = pos := Nat.mod_eq_of_lt hlt
  obtain ⟨out, h⟩ | ⟨e, info, -, h⟩ | h := hcases
  · exact ⟨_, h, fun _ => ⟨rfl, hpos.ge.trans' hge, hpos.le.trans hle⟩, fun _ _ => rfl⟩
  · exact ⟨_, h, fun _ => ⟨rfl, hpos.ge.trans' hge, hpos.le.trans hle⟩, fun _ _ => rfl⟩
  · refine ⟨_, h, fun hm => absurd hm (by simp [State.recordFault]), fun hnodes hbytes => ?_⟩
    obtain ⟨_, _, _, _, -, ht⟩ | ⟨_, _, _, -, ht⟩ | ⟨p, hend, -⟩ := exec_decode_cases h
    · rw [ht]; rfl
    · rw [ht]; rfl
    · exact absurd hend (not_decodeEnds_uninit hnodes hbytes _ p)

/-- Settles O30: no text the loop collects holds the terminator, and on an error RES_TEXT is empty. -/
theorem decodedTextHasNoTerminator : Obligations.DecodedTextHasNoTerminator := by
  intro s t h hm
  obtain ⟨_, _, _, _, htakes, rfl⟩ | ⟨_, _, _, -, rfl⟩ := exec_decode_completes h hm
  · exact htakes.reached.terminator_notMem
  · exact List.not_mem_nil

/-! The cycle guard (42_huffman_decode.md R157). Where a rank falls along every internal child, the records on the
path to `cur` are `depth + 1` different ones, all of `cur`'s rank or above it. -/

/-- The rank falls along every internal child of the records below N. -/
def FallsAlongChildren (s : State) (rank : Nat → Nat) : Prop :=
  ∀ i rec b, i < s.nodeCount.toNat → s.nodeAt i = some rec → 0 ≤ (rec.child b).toInt →
    (rec.child b).toNat < s.nodeCount.toNat → rank (rec.child b).toNat < rank i

/-- The records below N of the rank of `cur` or above it. -/
def ranksFrom (s : State) (rank : Nat → Nat) (cur : Nat) : Finset Nat :=
  (Finset.range s.nodeCount.toNat).filter fun i => rank cur ≤ rank i

theorem card_ranksFrom_le (s : State) (rank : Nat → Nat) (cur : Nat) :
    (ranksFrom s rank cur).card ≤ s.nodeCount.toNat :=
  (Finset.card_filter_le _ _).trans_eq (Finset.card_range _)

theorem mem_ranksFrom {s : State} {rank : Nat → Nat} {cur i : Nat} :
    i ∈ ranksFrom s rank cur ↔ i < s.nodeCount.toNat ∧ rank cur ≤ rank i := by
  rw [ranksFrom, Finset.mem_filter, Finset.mem_range]

/-- A record of lower rank has one record more of its rank or above: itself. -/
theorem card_ranksFrom_lt {s : State} {rank : Nat → Nat} {cur v : Nat} (hv : v < s.nodeCount.toNat)
    (hlt : rank v < rank cur) : (ranksFrom s rank cur).card < (ranksFrom s rank v).card := by
  refine Finset.card_lt_card (Finset.ssubset_iff_of_subset (fun i hi => ?_) |>.2 ⟨v, ?_, fun hmem => ?_⟩)
  · obtain ⟨hin, hle⟩ := mem_ranksFrom.1 hi
    exact mem_ranksFrom.2 ⟨hin, hlt.le.trans hle⟩
  · exact mem_ranksFrom.2 ⟨hv, le_rfl⟩
  · exact hlt.not_ge (mem_ranksFrom.1 hmem).2

theorem FallsAlongChildren.depth_lt {s : State} {rank : Nat → Nat} (hfalls : FallsAlongChildren s rank)
    (hroot : s.nodeCount ≠ 0) {off pos cur depth : Nat} {out : Text} (h : DecodeReaches s off pos out cur depth) :
    depth < (ranksFrom s rank cur).card := by
  have hstart : 0 < (ranksFrom s rank 0).card :=
    Finset.card_pos.2 ⟨0, mem_ranksFrom.2 ⟨toNat_nodeCount_pos hroot, le_rfl⟩⟩
  induction h with
  | start | emit => exact hstart
  | descend _ _ _ _ _ _ before _ _ record isIndex inTree _ ih =>
    have hlt := hfalls _ _ _ (before.cur_lt hroot) record isIndex inTree
    exact Nat.lt_of_le_of_lt ih (card_ranksFrom_lt inTree hlt)

/-- Without a cycle MalformedStream is raised only at the end of the stream. -/
theorem FallsAlongChildren.exhausted {s : State} {rank : Nat → Nat} (hfalls : FallsAlongChildren s rank)
    {off pos info : Nat} (h : DecodeRaises s off pos .malformedStream info) : s.bitLength ≤ pos := by
  cases h with
  | exhausted _ _ _ _ _ _ past => exact past
  | cycle pos cur depth out v takes isIndex inTree deep =>
    obtain ⟨hroot, hreach, -, b, rec, -, hr, rfl⟩ := takes
    have hlt := hfalls cur rec b (hreach.cur_lt hroot) hr isIndex inTree
    have hdepth := hfalls.depth_lt hroot hreach
    have hmore := card_ranksFrom_lt inTree hlt
    have hall := card_ranksFrom_le s rank (rec.child b).toNat
    omega

theorem DecodeRaises.pos_lt {s : State} {pos info : Nat} {e : ErrCode} (h : DecodeRaises s s.arg0.toNat pos e info) :
    pos < 2 ^ 64 := by
  cases h with
  | noRoot => exact s.arg0.isLt.trans (by decide)
  | exhausted _ _ _ _ _ reached => exact reached.pos_lt
  | badLeaf _ _ _ _ _ takes | full _ _ _ _ _ takes | badIndex _ _ _ _ _ takes | cycle _ _ _ _ _ takes =>
    exact Nat.lt_of_le_of_lt takes.inStream s.bitLength_lt

/-- Settles O28: the records on a path without a cycle are fewer than N at the guard. -/
theorem cycleGuardNeedsCycle : Obligations.CycleGuardNeedsCycle := by
  intro s t rank hfalls h hm herr
  obtain ⟨_, _, _, _, -, rfl⟩ | ⟨pos, e, info, hraises, rfl⟩ := exec_decode_completes h hm
  · exact absurd herr (by simp)
  · cases (herr : e = .malformedStream)
    have hpos : (BitVec.ofNat 64 pos).toNat = pos := Nat.mod_eq_of_lt hraises.pos_lt
    exact (FallsAlongChildren.exhausted hfalls hraises).trans hpos.ge

/-! A sound tree (42_huffman_decode.md R159): its children are leaves or indices above their record's. -/

theorem State.SoundTree.soundChild {s : State} (h : s.SoundTree) {i : Nat} {rec : NodeRecord}
    (hi : i < s.nodeCount.toNat) (hr : s.nodeAt i = some rec) (b : Bool) : s.soundChild i (rec.child b) := by
  obtain ⟨rec', hr', hleft, hright⟩ := h.sound i hi
  cases hr'.symm.trans hr
  cases b
  · exact hleft
  · exact hright

theorem State.SoundTree.fallsAlongChildren {s : State} (h : s.SoundTree) :
    FallsAlongChildren s fun i => s.nodeCount.toNat - i := by
  intro i rec b hi hr hindex _
  obtain ⟨u, hu⟩ | ⟨-, habove, -⟩ := h.soundChild hi hr b
  · exact absurd hindex (hu ▸ (leafValue_neg u).not_ge)
  · exact Nat.sub_lt_sub_left hi habove

theorem DecodeTakes.soundChild {s : State} (h : s.SoundTree) {off pos cur depth : Nat} {out : Text} {v : Word32}
    (htakes : DecodeTakes s off pos out cur depth v) : s.soundChild cur v := by
  obtain ⟨hroot, hreach, -, b, rec, -, hr, rfl⟩ := htakes
  exact h.soundChild (hreach.cur_lt hroot) hr b

theorem State.SoundTree.not_malformedTree {s : State} (h : s.SoundTree) (off pos info : Nat) :
    ¬ DecodeRaises s off pos .malformedTree info := by
  rintro (hempty | - | ⟨_, _, _, _, v, takes, low⟩ | - | ⟨_, _, _, _, v, takes, isIndex, high⟩)
  · exact h.rootExists.ne' (by rw [hempty]; rfl)
  · obtain ⟨u, rfl⟩ | ⟨hindex, -, -⟩ := takes.soundChild h
    · exact low.not_ge (neg_65536_le_leafValue u)
    · omega
  · obtain ⟨u, rfl⟩ | ⟨-, -, hbelow⟩ := takes.soundChild h
    · exact isIndex.not_gt (leafValue_neg u)
    · exact hbelow.not_ge high

/-- Settles O31: the tree is sound, so no child is malformed and indices only rise along a path. -/
theorem builtTreeNeverMalformed : Obligations.BuiltTreeNeverMalformed := by
  intro s t hcodes hvalid h hm
  have htree := hcodes.tree hvalid
  refine ⟨fun herr => ?_, cycleGuardNeedsCycle s t _ htree.fallsAlongChildren h hm⟩
  obtain ⟨_, _, _, _, -, rfl⟩ | ⟨pos, e, info, hraises, rfl⟩ := exec_decode_completes h hm
  · exact absurd herr (by simp)
  · cases (herr : e = .malformedTree)
    exact htree.not_malformedTree _ _ _ hraises

end Sys2Proof.Machine
end

section
/-! O15, O16, O17: the frequency count (43_huffman_build.md R180, R181, R183). -/

namespace Sys2Proof.Machine

open Sys2Proof

/-- Settles O15: the cleared table lists no counter, and an unlisted counter reads as 0. -/
theorem freqClearZeroesCounters : Obligations.FreqClearZeroesCounters :=
  ⟨decode_encode .freqClear, fun _ => ⟨[], rfl, fun _ => rfl⟩⟩

/-! FREQ_ADD's three outcomes. -/

/-- Every count fits its 32-bit counter (D15). -/
def FitsCounters (tmp : Table Nat) : Prop := ∀ e ∈ tmp, e.2 ≤ 2 ^ 32 - 1

theorem execFreqAdd_of_terminator {s : State} {i : Nat} (hi : s.textOperand[i]? = some terminator)
    (hfirst : ∀ j, j < i → s.textOperand[j]? ≠ some terminator) :
    execFreqAdd s = .next (s.raise .illegalOperand (word64 i)) := by
  obtain ⟨hlt, hval⟩ := List.getElem?_eq_some_iff.1 hi
  have hfind : s.textOperand.findIdx? (· == terminator) = some i :=
    List.findIdx?_eq_some_iff_getElem.2 ⟨hlt, by simp [hval], fun j hj hterm =>
      hfirst j hj (List.getElem?_eq_some_iff.2 ⟨hj.trans hlt, by simpa using hterm⟩)⟩
  rw [execFreqAdd, hfind]

theorem findIdx?_terminator_eq_none {t : Text} : t.findIdx? (· == terminator) = none ↔ terminator ∉ t := by
  rw [List.findIdx?_eq_none_iff]
  exact ⟨fun h hmem => by simpa using h _ hmem, fun h x hx => by simpa using ne_of_mem_of_not_mem hx h⟩

theorem execFreqAdd_of_overflow {s : State} {e : Nat × Nat} (hterm : terminator ∉ s.textOperand)
    (hfull : (countText s.freq s.textOperand).find? (fun e => decide (2 ^ 32 - 1 < e.2)) = some e) :
    execFreqAdd s = .next (s.raise .capacityExceeded (word64 e.1)) := by
  rw [execFreqAdd, findIdx?_terminator_eq_none.2 hterm]
  dsimp only
  rw [hfull]

theorem execFreqAdd_of_fits {s : State} (hterm : terminator ∉ s.textOperand)
    (hfits : FitsCounters (countText s.freq s.textOperand)) :
    execFreqAdd s = .next ({ s with freq := storeCounts (countText s.freq s.textOperand) }.complete 0) := by
  have hnone : (countText s.freq s.textOperand).find? (fun e => decide (2 ^ 32 - 1 < e.2)) = none :=
    List.find?_eq_none.2 fun e he => by simpa using hfits e he
  rw [execFreqAdd, findIdx?_terminator_eq_none.2 hterm]
  dsimp only
  rw [hnone]

/-- A FREQ_ADD without an error found no terminator in its text and counts that fit. -/
theorem execFreqAdd_ok {s s' : State} (h : execFreqAdd s = .next s') (hok : s'.errCode = .ok) :
    terminator ∉ s.textOperand ∧ FitsCounters (countText s.freq s.textOperand) ∧
      s'.freq = storeCounts (countText s.freq s.textOperand) := by
  obtain ⟨i, h'⟩ | ⟨u, h'⟩ | ⟨hfits, h'⟩ := execFreqAdd_cases s
  · cases h'.symm.trans h; exact absurd hok (by simp)
  · cases h'.symm.trans h; exact absurd hok (by simp)
  · refine ⟨findIdx?_terminator_eq_none.1 ?_, hfits, by cases h'.symm.trans h; rfl⟩
    cases hfind : s.textOperand.findIdx? (· == terminator) with
    | none => rfl
    | some i =>
      rw [execFreqAdd, hfind] at h
      cases h; exact absurd hok (by simp)

/-! What is counted (43_huffman_build.md R181). -/

/-- `tmp[u]` of FREQ_ADD: the unit's counter, its occurrences in the text, and the terminator's one more. -/
def State.countedWith (s : State) (u : CodeUnit) : Nat :=
  (s.freqOf u).toNat + s.textOperand.count u + (if u = terminator then 1 else 0)

theorem getD_countText (s : State) (u : CodeUnit) :
    (tableGet (countText s.freq s.textOperand) u.toNat).getD 0 = s.countedWith u :=
  tableGet_countText s.freq s.textOperand u

/-- A count past its counter's width is that of a code unit: FREQ's other entries stay as they were. -/
theorem eq_countedWith_of_overflow {s : State} (h : Rising s.freq) {e : Nat × Nat}
    (he : e ∈ countText s.freq s.textOperand) (hover : 2 ^ 32 - 1 < e.2) :
    ∃ u : CodeUnit, e = (u.toNat, s.countedWith u) := by
  have hunit : e.2 ≤ 2 ^ 32 - 1 ∨ ∃ u : CodeUnit, e.1 = u.toNat :=
    forall_mem_countText (P := fun e => e.2 ≤ 2 ^ 32 - 1 ∨ ∃ u : CodeUnit, e.1 = u.toNat) s.freq s.textOperand
      (fun x _ => .inl (Nat.le_sub_one_of_lt x.2.isLt)) (fun u _ => .inr ⟨u, rfl⟩) e he
  obtain hle | ⟨u, hu⟩ := hunit
  · exact absurd hover hle.not_gt
  · refine ⟨u, Prod.ext hu ?_⟩
    rw [← getD_countText, ← hu, tableGet_of_mem (rising_countText _ h) he, Option.getD_some]

theorem mem_countText_of_pos {s : State} {u : CodeUnit} (h : 0 < s.countedWith u) :
    (u.toNat, s.countedWith u) ∈ countText s.freq s.textOperand := by
  rw [← getD_countText] at h ⊢
  cases hget : tableGet (countText s.freq s.textOperand) u.toNat with
  | none => simp [hget] at h
  | some n => exact mem_of_tableGet hget

/-- In a table of rising indices the first entry that passes a test is the one with the least index. -/
theorem find?_eq_some_of_least {α : Type} {t : Table α} (h : Rising t) {p : Nat × α → Bool} {e : Nat × α}
    (he : e ∈ t) (hp : p e = true) (hleast : ∀ x ∈ t, x.1 < e.1 → p x = false) : t.find? p = some e := by
  obtain ⟨front, back, rfl⟩ := List.append_of_mem he
  refine List.find?_eq_some_iff_append.2 ⟨hp, front, back, rfl, fun x hx => ?_⟩
  rw [Rising, List.map_append, List.pairwise_append] at h
  obtain ⟨-, -, hlt⟩ := h
  rw [hleast x (List.mem_append_left _ hx) (hlt _ (List.mem_map_of_mem hx) _ (by simp))]
  rfl

/-- Settles O16: FREQ_ADD's outcome is decided by the first terminator of the text, then by the least unit whose
count passes its counter's width. -/
theorem freqAddCountsText : Obligations.FreqAddCountsText := by
  refine ⟨decode_encode .freqAdd, fun s hrising => ⟨fun i => execFreqAdd_of_terminator, ?full, ?counts⟩⟩
  case full =>
    intro u hterm (hover : 2 ^ 32 - 1 < s.countedWith u)
      (hleast : ∀ v : CodeUnit, v.toNat < u.toNat → s.countedWith v ≤ 2 ^ 32 - 1)
    have hfind : (countText s.freq s.textOperand).find? (fun e => decide (2 ^ 32 - 1 < e.2)) =
        some (u.toNat, s.countedWith u) := by
      refine find?_eq_some_of_least (rising_countText _ hrising) (mem_countText_of_pos (Nat.zero_lt_of_lt hover))
        (by simpa using hover) fun x hx hlt => ?_
      by_contra hbig
      obtain ⟨v, rfl⟩ := eq_countedWith_of_overflow hrising hx (by simpa using hbig)
      exact hbig (by simpa using hleast v hlt)
    have hinfo : word64 u.toNat = u.setWidth 64 := by
      rw [word64_eq (u.isLt.trans (by decide)), BitVec.ofNat_toNat]
    rw [← hinfo]
    exact execFreqAdd_of_overflow hterm hfind
  case counts =>
    intro hterm (hfit : ∀ u, s.countedWith u ≤ 2 ^ 32 - 1)
    have hfits : FitsCounters (countText s.freq s.textOperand) := by
      intro e he
      by_contra hbig
      obtain ⟨u, rfl⟩ := eq_countedWith_of_overflow hrising he (by omega)
      exact hbig (hfit u)
    refine ⟨_, execFreqAdd_of_fits hterm hfits, fun u => ?_⟩
    change ((tableGet (storeCounts (countText s.freq s.textOperand)) u.toNat).getD 0).toNat = s.countedWith u
    rw [tableGet_storeCounts, ← getD_countText]
    have := hfit u
    rw [← getD_countText] at this
    cases hget : tableGet (countText s.freq s.textOperand) u.toNat with
    | none => rfl
    | some n =>
      rw [hget, Option.getD_some] at this
      exact Nat.mod_eq_of_lt (by omega)

/-! The order of counting (43_huffman_build.md R183). -/

/-- FREQ with its counters as unbounded numbers: where FREQ_ADD starts to count. -/
def wideCounts (freq : Table Word32) : Table Nat := freq.map fun e => (e.1, e.2.toNat)

theorem countText_eq_foldl (freq : Table Word32) (t : Text) :
    countText freq t = (t ++ [terminator]).foldl bump (wideCounts freq) := by
  rw [List.foldl_append]; rfl

theorem wideCounts_storeCounts {tmp : Table Nat} (h : FitsCounters tmp) : wideCounts (storeCounts tmp) = tmp := by
  have hcounter : ∀ e ∈ tmp, (e.1, (BitVec.ofNat 32 e.2).toNat) = e := fun e he =>
    Prod.ext rfl (Nat.mod_eq_of_lt (Nat.lt_of_le_pred (by decide) (h e he)))
  rw [wideCounts, storeCounts, List.map_map]
  exact (List.map_congr_left (g := id) hcounter).trans (List.map_id tmp)

/-- Counting goes on from the counts stored before. -/
theorem countText_storeCounts {tmp : Table Nat} (h : FitsCounters tmp) (t : Text) :
    countText (storeCounts tmp) t = (t ++ [terminator]).foldl bump tmp := by
  rw [countText_eq_foldl, wideCounts_storeCounts h]

theorem rising_bump {tmp : Table Nat} (h : Rising tmp) (u : CodeUnit) : Rising (bump tmp u) := rising_tableSet _ _ h

theorem bump_comm {tmp : Table Nat} (h : Rising tmp) (u v : CodeUnit) :
    bump (bump tmp u) v = bump (bump tmp v) u := by
  refine table_ext (rising_bump (rising_bump h u) v) (rising_bump (rising_bump h v) u) fun i => ?_
  simp only [bump, tableGet_tableSet]
  by_cases huv : u.toNat = v.toNat
  · rw [huv]
  · by_cases hv : v.toNat = i
    · have hu : u.toNat ≠ i := hv ▸ huv
      simp [hv, hu]
    · simp [hv, Ne.symm huv]

theorem foldl_bump_perm {t t' : Text} (ht : t.Perm t') {tmp : Table Nat} (h : Rising tmp) :
    t.foldl bump tmp = t'.foldl bump tmp := by
  induction ht generalizing tmp with
  | nil => rfl
  | cons u _ ih => exact ih (rising_bump h u)
  | swap u v t => rw [List.foldl_cons, List.foldl_cons, bump_comm h]; rfl
  | trans _ _ ih ih' => exact (ih h).trans (ih' h)

/-- Two texts counted one after the other give the counts of either order. -/
theorem countText_swap {freq : Table Word32} (h : Rising freq) {t1 t2 : Text} (h1 : FitsCounters (countText freq t1))
    (h2 : FitsCounters (countText freq t2)) :
    countText (storeCounts (countText freq t1)) t2 = countText (storeCounts (countText freq t2)) t1 := by
  rw [countText_storeCounts h1, countText_storeCounts h2, countText_eq_foldl, countText_eq_foldl, ← List.foldl_append,
    ← List.foldl_append]
  exact foldl_bump_perm List.perm_append_comm (rising_map h)

/-- Settles O17: counting is a sum over both texts, so it has no order, and counts that fit after one order fit after
the other. -/
theorem freqAddsCommute : Obligations.FreqAddsCommute := by
  intro s s1 s2 s12 s21 t1 t2 hrising h1 hok1 h12 hok12 h2 hok2 h21
  obtain ⟨hterm1, hfits1, hfreq1⟩ := execFreqAdd_ok h1 hok1
  obtain ⟨-, hfits12, hfreq12⟩ := execFreqAdd_ok h12 hok12
  obtain ⟨-, hfits2, hfreq2⟩ := execFreqAdd_ok h2 hok2
  have hswap : countText s1.freq t2 = countText s2.freq t1 := by
    rw [hfreq1, hfreq2]; exact countText_swap hrising hfits1 hfits2
  have hrun : execWithText .freqAdd t1 s2 = _ := execFreqAdd_of_fits hterm1 (hswap ▸ hfits12)
  cases hrun.symm.trans h21
  exact ⟨rfl, hfreq12.trans (congrArg storeCounts hswap)⟩

end Sys2Proof.Machine
end

section
/-! O18, O19, O24: what TREE_BUILD raises and writes (43_huffman_build.md R182, R187 to R194). -/

namespace Sys2Proof.Machine

open Sys2Proof

/-! TREE_BUILD's three outcomes. -/

/-- What TREE_BUILD leaves when it builds from the symbols `first :: others` (43_huffman_build.md R182). -/
def State.withTree (s : State) (first : CodeUnit × Nat) (others : List (CodeUnit × Nat)) : State :=
  { s with
    tm := writeRecords s.tm 0 (buildTree first others).recs
    nodeCount := BitVec.ofNat 32 (recordsNeeded (others.length + 1))
    ct := codeTable (buildTree first others).codes
    ctValid := true }.complete (word64 (recordsNeeded (others.length + 1)))

theorem execTreeBuild_of_none {s : State} (h : symbols s = []) :
    execTreeBuild s = .next (s.raise .emptySymbolSet 0) := by
  rw [execTreeBuild, h]

theorem execTreeBuild_of_full {s : State} {first : CodeUnit × Nat} {others : List (CodeUnit × Nat)}
    (h : symbols s = first :: others) (hfull : s.cfg.nodeCap < recordsNeeded (others.length + 1)) :
    execTreeBuild s = .next (s.raise .capacityExceeded (word64 (recordsNeeded (others.length + 1)))) := by
  rw [execTreeBuild, h]; exact if_pos hfull

theorem execTreeBuild_of_room {s : State} {first : CodeUnit × Nat} {others : List (CodeUnit × Nat)}
    (h : symbols s = first :: others) (hroom : recordsNeeded (others.length + 1) ≤ s.cfg.nodeCap) :
    execTreeBuild s = .next (s.withTree first others) := by
  rw [execTreeBuild, h]; exact if_neg hroom.not_gt

/-- A TREE_BUILD without an error had symbols and room for their records. -/
theorem exec_treeBuild_ok {s t : State} (h : exec .treeBuild s = .next t) (hok : t.errCode = .ok) :
    ∃ first others, symbols s = first :: others ∧ recordsNeeded (others.length + 1) ≤ s.cfg.nodeCap ∧
      t = s.withTree first others := by
  obtain ⟨-, h'⟩ | ⟨first, others, hsym, ⟨-, h'⟩ | ⟨hroom, h'⟩⟩ := execTreeBuild_cases s <;> cases h'.symm.trans h
  · exact absurd hok (by simp)
  · exact absurd hok (by simp)
  · exact ⟨first, others, hsym, hroom, rfl⟩

/-! What a build writes. -/

theorem withTree_nodeAt (s : State) (first : CodeUnit × Nat) (others : List (CodeUnit × Nat)) (i : Nat) :
    (s.withTree first others).nodeAt i =
      if i < recordsNeeded (others.length + 1) then (buildTree first others).recs[i]? else s.nodeAt i := by
  change tableGet (writeRecords s.tm 0 (buildTree first others).recs) i = _
  rw [tableGet_writeRecords, length_buildTree_recs, Nat.zero_add, Nat.sub_zero]
  simp only [Nat.zero_le, true_and]
  rfl

theorem withTree_holds {s : State} (h : s.Wf) {first : CodeUnit × Nat} {others : List (CodeUnit × Nat)}
    (hroom : recordsNeeded (others.length + 1) ≤ s.cfg.nodeCap) :
    (s.withTree first others).Holds (buildTree first others) :=
  have hbuilt := holds_built h (first := first) hroom true
  ⟨hbuilt.records, hbuilt.count, hbuilt.countLe, hbuilt.table⟩

/-- The units with a code are the symbols, each once (43_huffman_build.md R193). -/
theorem buildTree_codes_perm_symbolSet {s : State} (h : s.Wf) {first : CodeUnit × Nat}
    {others : List (CodeUnit × Nat)} (hsym : symbols s = first :: others) :
    ((buildTree first others).codes.map Prod.fst).Perm s.symbolSet :=
  symbols_eq_symbolSet h ▸ hsym ▸ buildTree_codes_leaves first others

theorem State.Holds.codeOf_iff {t : State} {built : Built} (h : t.Holds built)
    (hnodup : (built.codes.map Prod.fst).Nodup) (u : CodeUnit) (c : Bits) :
    t.codeOf u = some c ↔ (u, c) ∈ built.codes := by
  rw [State.codeOf, h.table, tableGet_codeTable hnodup]

theorem State.Holds.coded_iff {t : State} {built : Built} (h : t.Holds built)
    (hnodup : (built.codes.map Prod.fst).Nodup) (u : CodeUnit) :
    t.codeOf u ≠ none ↔ u ∈ built.codes.map Prod.fst := by
  simp only [Option.ne_none_iff_exists', h.codeOf_iff hnodup, List.mem_map, Prod.exists, exists_and_right,
    exists_eq_right]

theorem length_symbolSet_le (s : State) : s.symbolSet.length ≤ 65536 := by
  simpa [State.symbolSet] using List.length_filter_le
    (fun u : CodeUnit => decide (0 < (s.freqOf u).toNat)) ((List.range 65536).map (BitVec.ofNat 16))

/-- k of 43_huffman_build.md R190 is a number of 64 bits. -/
theorem word64_recordsNeeded (s : State) :
    word64 (recordsNeeded s.symbolSet.length) = BitVec.ofNat 64 (recordsNeeded s.symbolSet.length) := by
  have hlen := length_symbolSet_le s
  refine word64_eq ?_
  rw [recordsNeeded]; omega

theorem length_eq_of_symbols {s : State} (h : s.Wf) {first : CodeUnit × Nat} {others : List (CodeUnit × Nat)}
    (hsym : symbols s = first :: others) : others.length + 1 = s.symbolSet.length := by
  rw [← length_symbols h, hsym, List.length_cons]

theorem exists_symbols_cons {s : State} (h : s.Wf) (hne : s.symbolSet ≠ []) :
    ∃ first others, symbols s = first :: others ∧ others.length + 1 = s.symbolSet.length := by
  cases hsym : symbols s with
  | nil => exact absurd (by rw [← symbols_eq_symbolSet h, hsym]; rfl) hne
  | cons first others => exact ⟨first, others, rfl, length_eq_of_symbols h hsym⟩

/-- Settles O18: the three outcomes of TREE_BUILD, in the terms of S and k of 43_huffman_build.md R182. -/
theorem treeBuildWritesTree : Obligations.TreeBuildWritesTree := by
  refine ⟨decode_encode .treeBuild, fun s h => ⟨fun hnil => ?none, fun hne hfull => ?full, fun hne hroom => ?room⟩⟩
  case none =>
    exact execTreeBuild_of_none (List.map_eq_nil_iff.1 ((symbols_eq_symbolSet h).trans hnil))
  case full =>
    obtain ⟨first, others, hsym, hlen⟩ := exists_symbols_cons h hne
    have hrun := execTreeBuild_of_full hsym (by rw [hlen]; exact hfull)
    rw [hlen, word64_recordsNeeded] at hrun
    exact hrun
  case room =>
    obtain ⟨first, others, hsym, hlen⟩ := exists_symbols_cons h hne
    have hroom' : recordsNeeded (others.length + 1) ≤ s.cfg.nodeCap := by rw [hlen]; exact hroom
    have hbuilt := withTree_holds h (first := first) hroom'
    have hperm := buildTree_codes_perm_symbolSet h hsym
    have hnode (i : Nat) := withTree_nodeAt s first others i
    simp only [hlen] at hnode
    refine ⟨(s.withTree first others).tm, (s.withTree first others).ct, ?_, fun i hi => ?_, fun i hi => ?_,
      fun u => ?_⟩
    · refine (execTreeBuild_of_room hsym hroom').trans ?_
      rw [State.withTree, hlen, word64_recordsNeeded]
      rfl
    · have hin : i < (buildTree first others).recs.length := by rw [length_buildTree_recs, hlen]; exact hi
      refine ne_of_eq_of_ne ((hnode i).trans (if_pos hi)) ?_
      rw [List.getElem?_eq_getElem hin]
      exact Option.some_ne_none _
    · exact (hnode i).trans (if_neg hi.not_gt)
    · rw [← hperm.mem_iff]
      exact hbuilt.coded_iff (hperm.nodup_iff.2 (nodup_symbolSet s)) u

/-- Settles O19: for one symbol the build is the one record with its leaf on both sides. -/
theorem singleSymbolBuildsDegenerateTree : Obligations.SingleSymbolBuildsDegenerateTree := by
  intro s u h hset
  obtain ⟨first, others, hsym, hlen⟩ := exists_symbols_cons h (by simp [hset])
  obtain rfl : others = [] := List.length_eq_zero_iff.1 (by simpa [hset] using hlen)
  obtain rfl : first.1 = u := by simpa [hsym, hset] using symbols_eq_symbolSet h
  obtain ⟨⟨hcap, -⟩, -, -⟩ := h.cfgLegal
  have hbuilt := withTree_holds h (first := first) (others := []) hcap
  have hcode (v : CodeUnit) (c : Bits) : _ ↔ (v, c) ∈ [(first.1, [false])] :=
    hbuilt.codeOf_iff (List.nodup_singleton first.1) v c
  refine ⟨_, execTreeBuild_of_room hsym hcap, rfl, rfl, hbuilt.records 0 Nat.one_pos,
    (hcode _ _).2 (List.mem_singleton_self _), fun v hv => ?_⟩
  exact Option.eq_none_iff_forall_ne_some.2 fun c hc =>
    hv (congrArg Prod.fst (List.mem_singleton.1 ((hcode v c).1 hc)))

/-- Settles O24: symbols, records and codes are computed from FREQ, and every record below N is one of those written. -/
theorem buildDependsOnFreqAlone : Obligations.BuildDependsOnFreqAlone := by
  intro s s' t t' hfreq h hok h' hok'
  obtain ⟨first, others, hsym, -, rfl⟩ := exec_treeBuild_ok h hok
  obtain ⟨first', others', hsym', -, rfl⟩ := exec_treeBuild_ok h' hok'
  have hsame : symbols s' = symbols s := by rw [symbols, symbols, hfreq]
  obtain ⟨rfl, rfl⟩ := List.cons.inj (hsym'.symm.trans (hsame.trans hsym))
  refine ⟨rfl, rfl, fun i hi => ?_⟩
  have hin : i < recordsNeeded (others'.length + 1) := Nat.lt_of_lt_of_le hi (Nat.mod_le _ _)
  rw [withTree_nodeAt, withTree_nodeAt, if_pos hin, if_pos hin]

end Sys2Proof.Machine
end

section
/-! O21: flattening is the pseudocode's visit (43_huffman_build.md R191). -/

namespace Sys2Proof.Machine

open Sys2Proof

theorem writeRecords_append (tm : Table NodeRecord) (base : Nat) (rs rs' : List NodeRecord) :
    writeRecords tm base (rs ++ rs') = writeRecords (writeRecords tm base rs) (base + rs.length) rs' := by
  induction rs generalizing tm base with
  | nil => rfl
  | cons r rs ih =>
    rw [List.cons_append, writeRecords, writeRecords, ih, List.length_cons, Nat.add_right_comm, Nat.add_assoc]

/-- What a visit does from any point of the walk: it returns the child's field, takes as many numbers as the tree has
internal items, adds the tree's codes, and leaves the records that writing the tree's from its number on leaves. The
visit writes an item's record after those of its subtrees, which have other numbers. -/
theorem visit_eq_flatten (t : HTree) (path : Bits) (idx : Nat) (recs : Table NodeRecord)
    (code : List (CodeUnit × Bits)) :
    ∃ recs', visit t path (idx, recs, code) =
        (childField t idx, idx + t.nodes, recs', code ++ flattenCodes t path) ∧
      ∀ i, tableGet recs' i = tableGet (writeRecords recs idx (flattenRecords t idx)) i := by
  induction t generalizing path idx recs code with
  | leaf u => exact ⟨recs, rfl, fun i => rfl⟩
  | node l r ihl ihr =>
    obtain ⟨recs1, hl, hget1⟩ := ihl (path ++ [false]) (idx + 1) recs code
    obtain ⟨recs2, hr, hget2⟩ :=
      ihr (path ++ [true]) (idx + 1 + l.nodes) recs1 (code ++ flattenCodes l (path ++ [false]))
    refine ⟨tableSet recs2 idx ⟨childField l (idx + 1), childField r (idx + 1 + l.nodes)⟩, ?_, fun i => ?_⟩
    · rw [visit, hl]
      dsimp only
      rw [hr]
      simp only [childField, HTree.nodes, flattenCodes, List.append_assoc, Nat.add_assoc]
    · rw [flattenRecords, writeRecords, writeRecords_append]
      simp only [tableGet_tableSet, hget2, hget1, tableGet_writeRecords, length_flattenRecords]
      by_cases hi : idx = i
      · rw [if_pos hi, if_pos hi, if_neg (by omega), if_neg (by omega)]
      · rw [if_neg hi, if_neg hi]

/-- Settles O21: the visit of the root, from number 0 and with nothing written. -/
theorem flattenFollowsVisit : Obligations.FlattenFollowsVisit := by
  intro l r
  obtain ⟨recs, hvisit, hget⟩ := visit_eq_flatten (.node l r) [] 0 [] []
  refine ⟨recs, by simpa [childField] using hvisit, length_flattenRecords _ 0, fun i hi => ?_⟩
  rw [hget, tableGet_writeRecords, length_flattenRecords, if_pos ⟨Nat.zero_le i, by rwa [Nat.zero_add]⟩,
    Nat.sub_zero]

end Sys2Proof.Machine
end

section
/-! O20: the model's merge is the greedy two-lowest merge (43_huffman_build.md R184, R185, R188). -/

namespace Sys2Proof.Machine

open Sys2Proof

/-- The items of the priority structure in rising order of their keys, which is the order they are popped in. -/
def Queue.items (q : Queue) : List Item := q.least :: q.rest

/-- The structure's items rise, and `next` is a sequence number that none of them has yet. -/
structure Queue.Ordered (q : Queue) (next : Nat) : Prop where
  sorted : q.items.Pairwise fun a b => a.before b = true
  fresh  : ∀ x ∈ q.items, x.seq < next

/-- One turn of the loop keeps the order, since the merged item's sequence number is new. -/
theorem Queue.Ordered.merge {a b : Item} {others : List Item} {next : Nat}
    (h : Queue.Ordered ⟨a, b :: others⟩ next) :
    Queue.Ordered (enqueue (joinItems a b next) others) (next + 1) := by
  obtain ⟨hsorted, hfresh⟩ := h
  have hothers : ∀ x ∈ others, x.seq < next := fun x hx => hfresh x (by simp [Queue.items, hx])
  refine ⟨enqueue_sorted hsorted.of_cons.of_cons fun x hx => (hothers x hx).ne', fun x hx => ?_⟩
  rcases List.mem_cons.1 ((enqueue_perm _ _).mem_iff.1 hx) with rfl | hx
  · exact Nat.lt_succ_self next
  · exact (hothers x hx).trans (Nat.lt_succ_self next)

/-- The loop takes the turns of the greedy merge. -/
theorem greedyMerge_mergeLoop (turns next : Nat) (q : Queue) (hturns : q.rest.length = turns)
    (hq : q.Ordered next) {items : List Item} (hitems : items.Perm q.items) :
    GreedyMerge items next (mergeLoop turns next q).tree := by
  induction turns generalizing next q items with
  | zero =>
    obtain ⟨a, rest⟩ := q
    obtain rfl : rest = [] := List.length_eq_zero_iff.1 hturns
    rw [List.perm_singleton.1 hitems]
    exact .last a next
  | succ turns ih =>
    obtain ⟨a, _ | ⟨b, others⟩⟩ := q
    · simp at hturns
    · obtain ⟨hab, hsorted⟩ := List.pairwise_cons.1 hq.sorted
      have hperm := enqueue_perm (joinItems a b next) others
      refine .merge items others a b next _ hitems
        ⟨hab b (List.mem_cons_self ..), (List.pairwise_cons.1 hsorted).1⟩ (ih _ _ ?_ hq.merge hperm.symm)
      have := hperm.length_eq
      simp only [List.length_cons] at this hturns
      omega

/-! The leaf items (43_huffman_build.md R184). -/

theorem map_seq_leafItems (j : Nat) (l : List (CodeUnit × Nat)) :
    (leafItems j l).map Item.seq = List.range' j l.length := by
  induction l generalizing j with
  | nil => rfl
  | cons e l ih => simp [leafItems, ih, List.range'_succ]

theorem leafItems_eq_map_zipIdx (j : Nat) (l : List (CodeUnit × Nat)) :
    leafItems j l = (l.zipIdx j).map fun e => ⟨e.1.2, e.2, .leaf e.1.1⟩ := by
  induction l generalizing j with
  | nil => rfl
  | cons e l ih => simp [leafItems, ih]

/-- The symbols are listed with their counters (43_huffman_build.md R182). -/
theorem symbols_eq_map {s : State} (h : s.Wf) :
    symbols s = s.symbolSet.map fun u => (u, (s.freqOf u).toNat) := by
  have hcount : ∀ e ∈ symbols s, e = (e.1, (s.freqOf e.1).toNat) := by
    intro e he
    obtain ⟨x, hx, rfl⟩ := List.mem_map.1 he
    have hmem := List.mem_of_mem_filter hx
    have hindex : (BitVec.ofNat 16 x.1).toNat = x.1 := Nat.mod_eq_of_lt (h.freqBelow x hmem)
    rw [State.freqOf, hindex, tableGet_of_mem h.freqRising hmem]; rfl
  rw [← symbols_eq_symbolSet h, List.map_map]
  exact ((List.map_congr_left (f := id) hcount).symm.trans (List.map_id _)).symm

theorem leafItemsOf_eq {s : State} (h : s.Wf) : leafItemsOf s = leafItems 0 (symbols s) := by
  rw [leafItems_eq_map_zipIdx, symbols_eq_map h, List.zipIdx_map, List.map_map]
  rfl

theorem foldr_insertItem_sorted {l : List Item} (h : (l.map Item.seq).Nodup) :
    (l.foldr insertItem []).Pairwise fun a b => a.before b = true := by
  induction l with
  | nil => exact List.Pairwise.nil
  | cons x l ih =>
    obtain ⟨hx, hl⟩ := List.nodup_cons.1 h
    refine insertItem_sorted (ih hl) fun y hy hseq => hx ?_
    exact List.mem_map.2 ⟨y, (foldr_insertItem_perm l).mem_iff.1 hy, hseq.symm⟩

/-- The merge of the symbols is the greedy merge of their leaf items. -/
theorem greedyMerge_mergeSymbols (first : CodeUnit × Nat) (others : List (CodeUnit × Nat)) :
    GreedyMerge (leafItems 0 (first :: others)) (others.length + 1) (mergeSymbols first others) := by
  have hseq := map_seq_leafItems 0 (first :: others)
  have hnodup : ((leafItems 0 (first :: others)).map Item.seq).Nodup := hseq ▸ List.nodup_range'
  have hperm : (leafItems 0 (first :: others)).Perm _ :=
    ((enqueue_perm _ _).trans ((foldr_insertItem_perm (leafItems 1 others)).cons _)).symm
  obtain ⟨hfirst, hrest⟩ := List.nodup_cons.1 hnodup
  refine greedyMerge_mergeLoop _ _ _ (length_mergeQueue _ _ _) ⟨?_, fun x hx => ?_⟩ hperm
  · refine enqueue_sorted (foldr_insertItem_sorted hrest) fun x hx hseqx => hfirst ?_
    exact List.mem_map.2 ⟨x, (foldr_insertItem_perm _).mem_iff.1 hx, hseqx.symm⟩
  · have hmem := List.mem_map_of_mem (f := Item.seq) (hperm.mem_iff.2 hx)
    rw [hseq, List.mem_range'_1] at hmem
    simpa using hmem.2

/-! A build of two symbols or more. -/

/-- `t` holds the flattening of the tree with the subtrees `l` and `r`, which the greedy merge of the symbols of `s`
reaches. -/
structure BuiltFrom (s t : State) (l r : HTree) : Prop where
  merged : GreedyMerge (leafItemsOf s) s.symbolSet.length (.node l r)
  holds  : t.Holds ⟨flattenRecords (.node l r) 0, flattenCodes (.node l r) []⟩
  leaves : (HTree.node l r).leaves.Perm s.symbolSet

theorem exists_builtFrom {s t : State} (h : s.Wf) (htwo : 2 ≤ s.symbolSet.length) (ht : exec .treeBuild s = .next t)
    (hok : t.errCode = .ok) : ∃ l r, BuiltFrom s t l r := by
  obtain ⟨first, others, hsym, hroom, rfl⟩ := exec_treeBuild_ok ht hok
  have hlen := length_eq_of_symbols h hsym
  have hholds := withTree_holds h (first := first) hroom
  have hmerged := greedyMerge_mergeSymbols first others
  rw [← hsym, ← leafItemsOf_eq h, hlen] at hmerged
  have hleaves := hsym ▸ mergeSymbols_leaves first others
  rw [symbols_eq_symbolSet h] at hleaves
  cases others with
  | nil => simp only [List.length_nil] at hlen; omega
  | cons second others =>
    obtain ⟨l, r, hroot⟩ := mergeSymbols_isNode first second others
    simp only [buildTree] at hholds
    rw [hroot] at hholds hmerged hleaves
    exact ⟨l, r, hmerged, hholds, hleaves⟩

section
variable {s t : State} {l r : HTree}

theorem BuiltFrom.nodup_leaves (h : BuiltFrom s t l r) : (HTree.node l r).leaves.Nodup :=
  h.leaves.nodup_iff.2 (nodup_symbolSet s)

theorem BuiltFrom.codeOf_iff (h : BuiltFrom s t l r) (u : CodeUnit) (c : Bits) :
    t.codeOf u = some c ↔ (u, c) ∈ flattenCodes (.node l r) [] :=
  h.holds.codeOf_iff ((map_fst_flattenCodes _ _).symm ▸ h.nodup_leaves) u c

theorem BuiltFrom.nodes_eq (h : BuiltFrom s t l r) : t.nodeCount.toNat = (HTree.node l r).nodes :=
  h.holds.count.trans (length_flattenRecords _ 0)

theorem BuiltFrom.nodeAt_eq (h : BuiltFrom s t l r) {i : Nat} (hi : i < t.nodeCount.toNat) :
    t.nodeAt i = (flattenRecords (.node l r) 0)[i]? :=
  h.holds.records i (h.holds.count ▸ hi)

theorem BuiltFrom.stored (h : BuiltFrom s t l r) : Stored t (.node l r) 0 :=
  stored_of_flattenRecords fun i hi => by rw [Nat.zero_add]; exact h.nodeAt_eq (h.nodes_eq ▸ hi)

theorem BuiltFrom.count_eq (h : BuiltFrom s t l r) : t.nodeCount.toNat = s.symbolSet.length - 1 := by
  rw [h.nodes_eq, ← h.leaves.length_eq, length_leaves, Nat.add_sub_cancel]

theorem BuiltFrom.codesLead (h : BuiltFrom s t l r) : CodesLead t (flattenCodes (.node l r) []) :=
  codesLead_node h.stored h.nodes_eq h.holds.countLe

end

/-- Settles O20: the tree is the one the model merges, whose loop takes the turns of the greedy merge. -/
theorem builtTreeIsGreedyMerge : Obligations.BuiltTreeIsGreedyMerge := by
  intro s t h htwo ht hok
  obtain ⟨l, r, hbuilt⟩ := exists_builtFrom h htwo ht hok
  exact ⟨.node l r, hbuilt.merged, fun _ => hbuilt.nodeAt_eq, hbuilt.codeOf_iff⟩

end Sys2Proof.Machine
end

section
/-! O22, O23: a built tree is valid and its codes are bounded (43_huffman_build.md R195, R196). -/

namespace Sys2Proof.Machine

open Sys2Proof

/-! No code begins another (43_huffman_build.md R195). -/

/-- Paths that part at a bit do not begin one another. -/
theorem not_prefix_of_parted {l r : HTree} {path : Bits} {b : Bool} {e f : CodeUnit × Bits}
    (he : e ∈ flattenCodes l (path ++ [b])) (hf : f ∈ flattenCodes r (path ++ [!b])) : ¬ e.2 <+: f.2 := by
  obtain ⟨c, hc, -⟩ := mem_flattenCodes he
  obtain ⟨d, hd, -⟩ := mem_flattenCodes hf
  rw [hc, hd, List.append_assoc, List.append_assoc, List.prefix_append_right_inj]
  simp [List.cons_prefix_cons]

/-- A leaf's path that begins a leaf's path is that leaf's. -/
theorem eq_of_flattenCodes_prefix {t : HTree} {path : Bits} {e f : CodeUnit × Bits} (he : e ∈ flattenCodes t path)
    (hf : f ∈ flattenCodes t path) (h : e.2 <+: f.2) : e.1 = f.1 := by
  induction t generalizing path with
  | leaf u => rw [List.mem_singleton.1 he, List.mem_singleton.1 hf]
  | node l r ihl ihr =>
    rcases List.mem_append.1 he with he | he <;> rcases List.mem_append.1 hf with hf | hf
    · exact ihl he hf
    · exact absurd h (not_prefix_of_parted (b := false) he hf)
    · exact absurd h (not_prefix_of_parted (b := true) he hf)
    · exact ihr he hf

/-! Where the leaves stand: each at one side of one record. -/

/-- The leaves of a tree numbered from `idx`, each with the record and the side it stands at; the tree itself stands at
`spot`. -/
def leafSpots : HTree → (idx : Nat) → (spot : Nat × Bool) → List (CodeUnit × (Nat × Bool))
  | .leaf u, _, spot => [(u, spot)]
  | .node l r, idx, _ => leafSpots l (idx + 1) (idx, false) ++ leafSpots r (idx + 1 + l.nodes) (idx, true)

theorem map_fst_leafSpots (t : HTree) (idx : Nat) (spot : Nat × Bool) :
    (leafSpots t idx spot).map Prod.fst = t.leaves := by
  induction t generalizing idx spot with
  | leaf u => rfl
  | node l r ihl ihr => simp [leafSpots, HTree.leaves, ihl, ihr]

/-- The side `b` of record `i` holds the unit's leaf. -/
def State.leafAt (s : State) (u : CodeUnit) (i : Nat) (b : Bool) : Prop :=
  ∃ rec, s.nodeAt i = some rec ∧ rec.child b = leafValue u

theorem childField_eq_leafValue_iff {t : HTree} {idx : Nat} (h : idx + t.nodes ≤ 2 ^ 31) {u : CodeUnit} :
    childField t idx = leafValue u ↔ t = .leaf u := by
  cases t with
  | leaf v => rw [HTree.leaf.injEq]; exact ⟨leafValue_inj, congrArg leafValue⟩
  | node l r =>
    refine iff_of_false (fun heq => ?_) HTree.noConfusion
    simp only [HTree.nodes] at h
    have hneg := leafValue_neg u
    rw [← heq, childField, toInt_ofNat_index (by omega)] at hneg
    omega

/-- The children of a stored tree's records that are leaf values are its leaves, at their spots. -/
theorem Stored.mem_leafSpots_iff {s : State} {t : HTree} {idx : Nat} (h : Stored s t idx)
    (hn : idx + t.nodes ≤ 2 ^ 31) (spot : Nat × Bool) (u : CodeUnit) (i : Nat) (b : Bool) :
    (u, (i, b)) ∈ leafSpots t idx spot ↔
      (t = .leaf u ∧ (i, b) = spot) ∨ (idx ≤ i ∧ i < idx + t.nodes ∧ s.leafAt u i b) := by
  induction t generalizing idx spot with
  | leaf v =>
    have hempty : ¬ (idx ≤ i ∧ i < idx + (HTree.leaf v).nodes ∧ s.leafAt u i b) := fun ⟨h1, h2, _⟩ => h1.not_gt h2
    simp [leafSpots, hempty, eq_comm]
  | node l r ihl ihr =>
    obtain ⟨hrec, hl, hr⟩ := h
    simp only [HTree.nodes] at hn ⊢
    have hleft : s.leafAt u idx false ↔ l = .leaf u := by
      simp [State.leafAt, hrec, NodeRecord.child,
        childField_eq_leafValue_iff (show idx + 1 + l.nodes ≤ 2 ^ 31 by omega)]
    have hright : s.leafAt u idx true ↔ r = .leaf u := by
      simp [State.leafAt, hrec, NodeRecord.child,
        childField_eq_leafValue_iff (show idx + 1 + l.nodes + r.nodes ≤ 2 ^ 31 by omega)]
    rw [leafSpots, List.mem_append, ihl hl (by omega), ihr hr (by omega)]
    by_cases hi : i = idx
    · -- the root's own record: each side is a leaf exactly when that subtree is one
      subst hi
      cases b <;> simp [hleft, hright]
    · by_cases hleaf : s.leafAt u i b <;> simp [hi, hleaf]
      omega
/-! What holds of a build of two symbols or more. -/

section
variable {s t : State} {l r : HTree}

/-- Each child of a built record is the leaf of a symbol or an index above the record's and below N. -/
theorem BuiltFrom.record (h : BuiltFrom s t l r) {i : Nat} (hi : i < t.nodeCount.toNat) :
    ∃ rec, t.nodeAt i = some rec ∧ ∀ b, (∃ u, u ∈ s.symbolSet ∧ rec.child b = leafValue u) ∨
      (0 ≤ (rec.child b).toInt ∧ i < (rec.child b).toNat ∧ (rec.child b).toNat < t.nodeCount.toNat) := by
  obtain ⟨rec, hrec, hnames⟩ := h.stored.record (Nat.zero_le i) (by rwa [Nat.zero_add, ← h.nodes_eq])
  rw [Nat.zero_add, ← h.nodes_eq] at hnames
  refine ⟨rec, hrec, fun b => ?_⟩
  obtain ⟨u, hu⟩ | hindex := (hnames b).soundChild h.holds.countLe
  · exact .inl ⟨u, h.leaves.mem_iff.1 ((hu ▸ hnames b).mem_of_leafValue h.holds.countLe), hu⟩
  · exact .inr hindex

/-- Below N a unit's leaf stands at its spots and nowhere else. -/
theorem BuiltFrom.mem_leafSpots_iff (h : BuiltFrom s t l r) (u : CodeUnit) (i : Nat) (b : Bool) :
    (u, (i, b)) ∈ leafSpots (.node l r) 0 (0, false) ↔ i < t.nodeCount.toNat ∧ t.leafAt u i b := by
  have hsize : 0 + (HTree.node l r).nodes ≤ 2 ^ 31 := by rw [Nat.zero_add, ← h.nodes_eq]; exact h.holds.countLe
  simp [h.stored.mem_leafSpots_iff hsize, h.nodes_eq]

/-- Each symbol's leaf stands at one side of one record. -/
theorem BuiltFrom.exists_unique_leafAt (h : BuiltFrom s t l r) {u : CodeUnit} (hu : u ∈ s.symbolSet) :
    ∃ i b, i < t.nodeCount.toNat ∧ t.leafAt u i b ∧
      ∀ j b', j < t.nodeCount.toNat → t.leafAt u j b' → j = i ∧ b' = b := by
  have hunits := map_fst_leafSpots (.node l r) 0 (0, false)
  have hmem := h.leaves.mem_iff.2 hu
  rw [← hunits] at hmem
  obtain ⟨⟨_, i, b⟩, hspot, rfl⟩ := List.mem_map.1 hmem
  obtain ⟨hi, hleaf⟩ := (h.mem_leafSpots_iff _ i b).1 hspot
  refine ⟨i, b, hi, hleaf, fun j b' hj hleaf' => ?_⟩
  have hspot' := (h.mem_leafSpots_iff _ j b').2 ⟨hj, hleaf'⟩
  have hsame := List.inj_on_of_nodup_map (hunits.symm ▸ h.nodup_leaves) hspot' hspot rfl
  simpa using hsame

end

/-- Settles O22: the records in TM[0..N) are those of the merged tree, whose leaves are the symbols, each once. -/
theorem builtTreeIsValid : Obligations.BuiltTreeIsValid := by
  intro s t h htwo ht hok
  obtain ⟨l, r, hbuilt⟩ := exists_builtFrom h htwo ht hok
  refine ⟨hbuilt.count_eq, fun _ => hbuilt.record, fun u hu => ?leaf, fun u v c d hc hd hcd => ?prefixFree,
    fun u c hc => ?nonempty⟩
  case leaf =>
    obtain ⟨i, b, hi, ⟨rec, hrec, hchild⟩, honly⟩ := hbuilt.exists_unique_leafAt hu
    exact ⟨i, rec, b, hi, hrec, hchild, fun j rec' b' hj hrec' hchild' => honly j b' hj ⟨rec', hrec', hchild'⟩⟩
  case prefixFree =>
    exact eq_of_flattenCodes_prefix ((hbuilt.codeOf_iff u c).1 hc) ((hbuilt.codeOf_iff v d).1 hd) hcd
  case nonempty => exact flattenCodes_node_ne_nil ((hbuilt.codeOf_iff u c).1 hc)

/-- Settles O23: a code is a path of a tree with |S| - 1 internal items, or the one bit of the degenerate tree. -/
theorem codeLengthsAreBounded : Obligations.CodeLengthsAreBounded := by
  intro s t h ht hok
  refine ⟨fun htwo u hu => ?two, fun hone u hu => ?one⟩
  case two =>
    obtain ⟨l, r, hbuilt⟩ := exists_builtFrom h htwo ht hok
    have hmem := hbuilt.leaves.mem_iff.2 hu
    rw [← map_fst_flattenCodes _ []] at hmem
    obtain ⟨⟨_, c⟩, hc, rfl⟩ := List.mem_map.1 hmem
    obtain ⟨hpos, hle⟩ := hbuilt.codesLead.lengths _ hc
    exact ⟨c, (hbuilt.codeOf_iff _ c).2 hc, hpos, hbuilt.count_eq ▸ hle, Nat.sub_le_of_le_add (length_symbolSet_le s)⟩
  case one =>
    obtain ⟨v, hset⟩ := List.length_eq_one_iff.1 hone
    obtain rfl : u = v := by simpa [hset] using hu
    obtain ⟨t', ht', -, -, -, hcode, -⟩ := singleSymbolBuildsDegenerateTree s u h hset
    cases ht'.symm.trans ht
    exact ⟨_, hcode, rfl⟩

end Sys2Proof.Machine
end

section
/-! O32, O33, O35: the command ENCODE (44_huffman_encode.md R220 to R225). Its check of the text and its code string
each follow the text; a code string in the stream is the text spelled there, which DECODE reads back. -/

namespace Sys2Proof.Machine

open Sys2Proof

/-! ENCODE's check of the text (44_huffman_encode.md R222). -/

/-- The unit passes ENCODE's check: it is no terminator and has a code. -/
def PassesCheck (s : State) (u : CodeUnit) : Prop := u ≠ terminator ∧ s.codeOf u ≠ none

theorem firstBadUnit_cons_of_terminator (s : State) (i : Nat) (t : Text) :
    firstBadUnit s i (terminator :: t) = some (.illegalOperand, i) :=
  if_pos rfl

theorem firstBadUnit_cons_of_uncoded {s : State} {u : CodeUnit} (hu : u ≠ terminator) (hc : s.codeOf u = none)
    (i : Nat) (t : Text) : firstBadUnit s i (u :: t) = some (.unknownSymbol, i) := by
  rw [firstBadUnit, if_neg hu, hc]

theorem firstBadUnit_cons_of_passes {s : State} {u : CodeUnit} (h : PassesCheck s u) (i : Nat) (t : Text) :
    firstBadUnit s i (u :: t) = firstBadUnit s (i + 1) t := by
  obtain ⟨hu, hcoded⟩ := h
  obtain ⟨c, hc⟩ := Option.ne_none_iff_exists'.1 hcoded
  rw [firstBadUnit, if_neg hu, hc]

theorem firstBadUnit_append_of_passes {s : State} {first : Text} (h : ∀ u ∈ first, PassesCheck s u) (i : Nat)
    (rest : Text) : firstBadUnit s i (first ++ rest) = firstBadUnit s (i + first.length) rest := by
  induction first generalizing i with
  | nil => rfl
  | cons u first ih =>
    obtain ⟨hu, hfirst⟩ := List.forall_mem_cons.1 h
    rw [List.cons_append, firstBadUnit_cons_of_passes hu, ih hfirst, List.length_cons, Nat.add_right_comm,
      Nat.add_assoc]

/-- Where every unit before index `i` passes, the check goes on at index `i`. -/
theorem firstBadUnit_eq_of_getElem? {s : State} {t : Text} {i : Nat} {u : CodeUnit} (hi : t[i]? = some u)
    (hfirst : ∀ j v, j < i → t[j]? = some v → PassesCheck s v) :
    firstBadUnit s 0 t = firstBadUnit s i (u :: t.drop (i + 1)) := by
  obtain ⟨hlt, hu⟩ := List.getElem?_eq_some_iff.1 hi
  have hpass : ∀ v ∈ t.take i, PassesCheck s v := by
    intro v hv
    obtain ⟨j, hj, hjv⟩ := List.mem_take_iff_getElem.1 hv
    obtain ⟨hji, hjt⟩ := Nat.lt_min.1 hj
    exact hfirst j v hji (List.getElem?_eq_some_iff.2 ⟨hjt, hjv⟩)
  calc firstBadUnit s 0 t
      = firstBadUnit s 0 (t.take i ++ t.drop i) := by rw [List.take_append_drop]
    _ = firstBadUnit s i (t.drop i) := by
        rw [firstBadUnit_append_of_passes hpass, List.length_take_of_le hlt.le, Nat.zero_add]
    _ = firstBadUnit s i (u :: t.drop (i + 1)) := by rw [List.drop_eq_getElem_cons hlt, hu]

theorem firstBadUnit_eq_none {s : State} {t : Text} (h : ∀ u ∈ t, PassesCheck s u) : firstBadUnit s 0 t = none := by
  rw [← List.append_nil t, firstBadUnit_append_of_passes h]
  rfl

theorem terminator_notMem_of_firstBadUnit {s : State} {t : Text} {i : Nat} (h : firstBadUnit s i t = none) :
    terminator ∉ t := by
  induction t generalizing i with
  | nil => exact List.not_mem_nil
  | cons u t ih =>
    by_cases hu : u = terminator
    · rw [hu, firstBadUnit_cons_of_terminator] at h
      exact absurd h (by simp)
    · have hcoded := codeOf_ne_none_of_firstBadUnit h u List.mem_cons_self
      rw [firstBadUnit_cons_of_passes ⟨hu, hcoded⟩] at h
      exact List.not_mem_cons_of_ne_of_not_mem (Ne.symm hu) (ih h)

/-! The code string (44_huffman_encode.md R220). -/

theorem textCode_cons_eq_some {s : State} {u : CodeUnit} {t : Text} {c : Bits} :
    textCode s (u :: t) = some c ↔
      ∃ cu ct, s.codeOf u = some cu ∧ textCode s t = some ct ∧ c = cu ++ ct := by
  rw [textCode]
  cases s.codeOf u <;> cases textCode s t <;> simp [eq_comm]

theorem textCode_of_forall₂ {s : State} {t : Text} {codes : List Bits}
    (h : List.Forall₂ (fun u c => s.codeOf u = some c) t codes) : textCode s t = some codes.flatten := by
  induction h with
  | nil => rfl
  | cons hu _ ih => exact textCode_cons_eq_some.2 ⟨_, _, hu, ih, List.flatten_cons⟩

/-- The empty text is coded as the terminator alone (44_huffman_encode.md R223). -/
theorem codeString_nil (s : State) : codeString s [] = s.codeOf terminator := by
  rw [codeString, List.nil_append, textCode, textCode]
  cases s.codeOf terminator <;> simp

theorem codeString_cons_eq_some {s : State} {u : CodeUnit} {t : Text} {c : Bits} :
    codeString s (u :: t) = some c ↔
      ∃ cu ct, s.codeOf u = some cu ∧ codeString s t = some ct ∧ c = cu ++ ct :=
  textCode_cons_eq_some

theorem State.Wf.codeOf_ne_nil {s : State} (h : s.Wf) {u : CodeUnit} {c : Bits} (hc : s.codeOf u = some c) :
    c ≠ [] :=
  h.ctNonempty _ (mem_of_tableGet hc)

theorem State.Wf.codeString_ne_nil {s : State} (h : s.Wf) {t : Text} {c : Bits} (hc : codeString s t = some c) :
    c ≠ [] := by
  cases t with
  | nil => exact h.codeOf_ne_nil (codeString_nil s ▸ hc)
  | cons u t =>
    obtain ⟨cu, ct, hcu, -, rfl⟩ := codeString_cons_eq_some.1 hc
    exact List.append_ne_nil_of_left_ne_nil (h.codeOf_ne_nil hcu) ct

/-! What ENCODE answers. -/

theorem execEncode_of_noTable {s : State} (h : s.ctValid = false) : execEncode s = .next (s.raise .noCodeTable 0) :=
  if_pos h

theorem execEncode_of_badUnit {s : State} (hv : s.ctValid = true) {e : ErrCode} {i : Nat}
    (hbad : firstBadUnit s 0 s.textOperand = some (e, i)) : execEncode s = .next (s.raise e (word64 i)) := by
  rw [execEncode, if_neg (by simp [hv]), hbad]

/-- A text that passes the check is written where its start offset fits 32 bits and the writer has room. -/
theorem execEncode_of_codeString {s : State} {c : Bits} (hv : s.ctValid = true)
    (hpass : firstBadUnit s 0 s.textOperand = none) (hc : codeString s s.textOperand = some c) :
    execEncode s = if 2 ^ 32 - 1 < s.wb.length ∨ s.cfg.wbufCapBits < s.wb.length + c.length
      then .next (s.raise .capacityExceeded (word64 s.wb.length))
      else .next ({ s with wb := s.wb ++ c }.complete (word64 s.wb.length)) := by
  rw [execEncode, if_neg (by simp [hv]), hpass]
  dsimp only
  rw [hc, ite_or]

/-- Settles O32: the first unit that fails the check is the one raised; a text that passes has the code string its
codes make, which the writer takes if it has room. -/
theorem encodeAppendsCodeString : Obligations.EncodeAppendsCodeString := by
  refine ⟨decode_encode .encode, fun s => ⟨fun hv => ?noTable, fun hv i u hi hfirst => ?badUnit,
    fun hv hterm codes hcodes => ?checked⟩⟩
  case noTable => exact execEncode_of_noTable hv
  case badUnit =>
    have hcheck := firstBadUnit_eq_of_getElem? hi hfirst
    refine ⟨fun hu => ?_, fun hu hc => ?_⟩
    · rw [hu, firstBadUnit_cons_of_terminator] at hcheck
      exact execEncode_of_badUnit hv hcheck
    · rw [firstBadUnit_cons_of_uncoded hu hc] at hcheck
      exact execEncode_of_badUnit hv hcheck
  case checked =>
    have hcode : codeString s s.textOperand = some codes.flatten := textCode_of_forall₂ hcodes
    have hcoded : ∀ u ∈ s.textOperand ++ [terminator], s.codeOf u ≠ none :=
      (textCode_ne_none_iff s _).1 (by simp [textCode_of_forall₂ hcodes])
    have hpass : firstBadUnit s 0 s.textOperand = none :=
      firstBadUnit_eq_none fun u hu => ⟨ne_of_mem_of_not_mem hu hterm, hcoded u (List.mem_append_left _ hu)⟩
    have hwrites := execEncode_of_codeString hv hpass hcode
    refine ⟨fun hfull => hwrites.trans (if_pos hfull), fun hstart hroom => ?_⟩
    rw [← word64_eq (Nat.lt_of_le_of_lt hstart (by decide))]
    exact hwrites.trans (if_neg (not_or.2 ⟨Nat.not_lt.2 hstart, Nat.not_lt.2 hroom⟩))

/-- What an ENCODE that succeeded found in its text and writer (44_huffman_encode.md R222). -/
structure EncodeChecked (s : State) (t : Text) : Prop where
  tableValid   : s.ctValid = true
  noTerminator : terminator ∉ t
  startFits    : s.wb.length ≤ 2 ^ 32 - 1

theorem encodeChecked_of_ok {s s' : State} {t : Text} (h : execWithText .encode t s = .next s')
    (hok : s'.errCode = .ok) : EncodeChecked s t := by
  obtain ⟨e, info, he, h'⟩ | ⟨hv, hpass, -, -, hstart, -, -⟩ | ⟨-, -, -, h'⟩ :=
    execEncode_cases { s with pending := some ⟨encode .encode, t⟩ }
  · cases h'.symm.trans h
    cases (hok : e = .ok)
    exact absurd he (by decide)
  · exact ⟨hv, terminator_notMem_of_firstBadUnit hpass, hstart⟩
  · cases h'.symm.trans h

/-- The offset a successful ENCODE returns is the length written before it, with no wrap. -/
theorem toNat_result_of_encode {s s' : State} {t : Text} (h : execWithText .encode t s = .next s')
    (hok : s'.errCode = .ok) : s'.result.toNat = s.wb.length := by
  obtain ⟨-, -, -, hresult, -⟩ := encode_succeeds h hok
  have hstart := (encodeChecked_of_ok h hok).startFits
  rw [hresult, BitVec.toNat_ofNat, Nat.mod_eq_of_lt (by omega)]

/-- Settles O33: the first ENCODE appends at least one bit, so the second begins later. -/
theorem encodeOffsetsIncrease : Obligations.EncodeOffsetsIncrease := by
  intro s s1 s2 t1 t2 hwf h1 hok1 h2 hok2
  obtain ⟨c, hc, hwb, -, -⟩ := encode_succeeds h1 hok1
  have hpos : 0 < c.length := List.length_pos_iff.2 (hwf.codeString_ne_nil hc)
  rw [toNat_result_of_encode h1 hok1, toNat_result_of_encode h2 hok2, hwb, List.length_append]
  exact Nat.lt_add_of_pos_right hpos

/-! The code string in the stream (44_huffman_encode.md R224). -/

theorem streamHas_append {s : State} {pos : Nat} {c d : Bits} (h : streamHas s pos (c ++ d)) :
    streamHas s pos c ∧ streamHas s (pos + c.length) d := by
  obtain ⟨hlen, hbits⟩ := h
  rw [List.length_append] at hlen hbits
  refine ⟨⟨by omega, fun i hi => ?_⟩, ⟨by omega, fun i hi => ?_⟩⟩
  · rw [hbits i (by omega), List.getElem?_append_left hi]
  · rw [Nat.add_assoc, hbits (c.length + i) (by omega), List.getElem?_append_right (Nat.le_add_right ..),
      Nat.add_sub_cancel_left]

/-- With pack(w) loaded as the data segment the stream begins with w (20_memory.md R66). -/
theorem streamHas_of_pack_loaded {s : State} {w : Bits}
    (hlen : s.dataLen.toNat = (pack s.cfg.bitOrder w).length)
    (hload : ∀ j, j < (pack s.cfg.bitOrder w).length → s.byteAt j = (pack s.cfg.bitOrder w)[j]?) :
    streamHas s 0 w := by
  obtain ⟨hbits, -⟩ := readerReadsWhatWriterPacked s w hlen hload
  refine ⟨?_, fun i hi => by rw [Nat.zero_add]; exact hbits i hi⟩
  rw [State.bitLength, hlen, length_pack]
  omega

/-- A unit's code is coded in the stream of every state with the same tree (43_huffman_build.md R193, R196). -/
theorem State.CodesMatch.codedAt {s s2 : State} (h : s.CodesMatch) (hv : s.ctValid = true) (htm : s2.tm = s.tm)
    (hn : s2.nodeCount = s.nodeCount) {u : CodeUnit} {c : Bits} (hc : s.codeOf u = some c) {pos : Nat}
    (hs : streamHas s2 pos c) : Machine.codedAt s2 pos u c := by
  refine ⟨?_, ?_, hs⟩
  · rw [follow_congr htm hn]
    exact h.reach hv u c hc
  · rw [hn]
    exact (h.lengths hv u c hc).2

/-- A code string in the stream spells its text, in every state with the same tree. -/
theorem State.CodesMatch.spells {s s2 : State} (h : s.CodesMatch) (hv : s.ctValid = true) (htm : s2.tm = s.tm)
    (hn : s2.nodeCount = s.nodeCount) {t : Text} (hterm : terminator ∉ t) {c : Bits} (hc : codeString s t = some c)
    {pos : Nat} (hs : streamHas s2 pos c) : Machine.spells s2 pos t (pos + c.length) := by
  induction t generalizing c pos with
  | nil =>
    rw [codeString_nil] at hc
    exact ⟨c, h.codedAt hv htm hn hc hs, rfl⟩
  | cons u t ih =>
    obtain ⟨hu, hterm⟩ := List.ne_and_not_mem_of_not_mem_cons hterm
    obtain ⟨cu, ct, hcu, hct, rfl⟩ := codeString_cons_eq_some.1 hc
    obtain ⟨hsu, hst⟩ := streamHas_append hs
    rw [List.length_append, ← Nat.add_assoc]
    exact ⟨hu.symm, cu, h.codedAt hv htm hn hcu hsu, ih hterm hct hst⟩

/-- ENCODE writes neither a parameter nor the tree (44_huffman_encode.md R222). -/
theorem encode_keeps_tree {s s' : State} {t : Text} (h : execWithText .encode t s = .next s') :
    s'.cfg = s.cfg ∧ s'.tm = s.tm ∧ s'.nodeCount = s.nodeCount := by
  obtain ⟨hcfg, -, -, -, -, -, -, -, -, -, -, -, ⟨htm, hn, -, -⟩ | htb, -, -⟩ :=
    commandsWriteOnlyTheirState _ _ _ h
  · exact ⟨hcfg, htm, hn⟩
  · cases htb

/-- Settles O35: the packed writer holds the code string from the returned offset on, so it spells the text there, and
DECODE returns a spelled text. -/
theorem encodeDecodeRoundTrip : Obligations.EncodeDecodeRoundTrip := by
  intro s s1 s2 t c hinv h hok hc htm hn hcfg hlen hload harg hfits
  obtain ⟨c', hc', hwb, hresult, -⟩ := encode_succeeds h hok
  obtain rfl : c' = c := Option.some.inj (hc'.symm.trans hc)
  obtain ⟨hv, hterm, -⟩ := encodeChecked_of_ok h hok
  obtain ⟨-, htm1, hn1⟩ := encode_keeps_tree h
  rw [← hcfg] at hlen hload hfits
  have hoff : s2.arg0.toNat = s.wb.length := by
    rw [← toNat_result_of_encode h hok, ← harg]
    exact (toNat_offOperand s2).symm
  have hstream : streamHas s2 s2.arg0.toNat c' := by
    have hwritten := streamHas_of_pack_loaded hlen hload
    rw [hwb] at hwritten
    obtain ⟨-, hcode⟩ := streamHas_append hwritten
    rwa [Nat.zero_add, ← hoff] at hcode
  have hspells := hinv.codes.spells hv (htm.trans htm1) (hn.trans hn1) hterm hc hstream
  have hstop : s1.result + BitVec.ofNat 64 c'.length = BitVec.ofNat 64 (s2.arg0.toNat + c'.length) := by
    rw [hresult, hoff, BitVec.ofNat_add]
  rw [hstop]
  exact decodeReturnsSpelledText s2 t _ hspells hfits

end Sys2Proof.Machine
end

section
/-! O58: insertion and lookup in an entry table (45_host_container.md R245 to R247). -/

namespace Sys2Proof.Machine

open Sys2Proof

theorem insertEntry_of_mem {tbl : List Entry} {e : Entry} (h : ∃ x ∈ tbl, x.id = e.id) :
    insertEntry tbl e = .error .duplicateId :=
  if_pos (by simpa using h)

theorem insertEntry_of_fresh {tbl : List Entry} {e : Entry} (h : ∀ x ∈ tbl, x.id ≠ e.id) :
    insertEntry tbl e = .ok (tbl ++ [e]) :=
  if_neg (by simpa using h)

/-- A table stays free of repeated ids exactly when the id put at its end is new. -/
theorem uniqueIds_append_singleton {tbl : List Entry} {e : Entry} :
    UniqueIds (tbl ++ [e]) ↔ UniqueIds tbl ∧ ∀ x ∈ tbl, x.id ≠ e.id := by
  simp [UniqueIds, List.nodup_append]

/-- An entry of a table with unique ids is the one its id finds (45_host_container.md R247). -/
theorem lookupEntry_of_mem {tbl : List Entry} (h : UniqueIds tbl) {x : Entry} (hx : x ∈ tbl) :
    lookupEntry tbl x.id = .ok x.offset := by
  have hfind : tbl.find? (fun y => y.id == x.id) = some x := by
    obtain ⟨front, back, rfl⟩ := List.append_of_mem hx
    refine List.find?_eq_some_iff_append.2 ⟨by simp, front, back, rfl, fun y hy => ?_⟩
    rw [UniqueIds, List.map_append, List.nodup_append] at h
    obtain ⟨-, -, hne⟩ := h
    simpa using hne _ (List.mem_map_of_mem hy) x.id (by simp)
  rw [lookupEntry, hfind]

theorem lookupEntry_of_absent {tbl : List Entry} {id : Word32} (h : ∀ x ∈ tbl, x.id ≠ id) :
    lookupEntry tbl id = .error .notFound := by
  rw [lookupEntry, List.find?_eq_none.2 (by simpa using h)]

/-- Settles O58: insertion tests for the id and appends, and an id finds its one entry. -/
theorem entryTableInsertAndLookup : Obligations.EntryTableInsertAndLookup := by
  refine fun tbl e id h => ⟨insertEntry_of_mem, fun hfresh => ?fresh, ?found, lookupEntry_of_absent⟩
  case fresh =>
    have hunique := uniqueIds_append_singleton.2 ⟨h, hfresh⟩
    exact ⟨insertEntry_of_fresh hfresh, hunique, lookupEntry_of_mem hunique (by simp)⟩
  case found =>
    rintro x hx rfl
    exact lookupEntry_of_mem h hx

end Sys2Proof.Machine
end

section
/-! O57: the order of PARSE's errors (45_host_container.md R249, R251). -/

namespace Sys2Proof.Machine

open Sys2Proof

/-- Entries inserted one after another are appended, unless an id occurs twice (45_host_container.md R249). -/
theorem insertEntries_eq {tbl : List Entry} (h : UniqueIds tbl) (es : List Entry) :
    insertEntries tbl es = if UniqueIds (tbl ++ es) then .ok (tbl ++ es) else .error .duplicateId := by
  induction es generalizing tbl with
  | nil => rw [List.append_nil, if_pos h]; rfl
  | cons e es ih =>
    rw [insertEntries]
    by_cases hfresh : ∀ x ∈ tbl, x.id ≠ e.id
    · rw [insertEntry_of_fresh hfresh]
      dsimp only
      rw [ih (uniqueIds_append_singleton.2 ⟨h, hfresh⟩), List.append_assoc, List.singleton_append]
    · have hdup : ¬ UniqueIds (tbl ++ e :: es) := by
        rw [← List.singleton_append, ← List.append_assoc, UniqueIds, List.map_append]
        exact fun hall => hfresh (uniqueIds_append_singleton.1 hall.of_append_left).2
      rw [insertEntry_of_mem (by simpa using hfresh), if_neg hdup]

theorem insertEntries_nil_eq (es : List Entry) :
    insertEntries [] es = if UniqueIds es then .ok es else .error .duplicateId :=
  insertEntries_eq (tbl := []) List.nodup_nil es

/-! PARSE, check by check. -/

/-- T of 45_host_container.md R242, from the counts in a file's header. -/
def declaredLength (bytes : List Byte) : Nat :=
  fileLength (le32At bytes 12).toNat (le32At bytes 16).toNat (le32At bytes 20).toNat (le32At bytes 24).toNat

theorem parse_of_noMagic {bytes : List Byte} (h : bytes.length < 4) : parse bytes = .error .truncatedFile := if_pos h

theorem parse_of_wrongMagic {bytes : List Byte} (hlen : 4 ≤ bytes.length) (hmagic : le32At bytes 0 ≠ tlkMagic) :
    parse bytes = .error .invalidMagic := by
  rw [parse, if_neg hlen.not_gt, if_pos hmagic]

theorem parse_of_shortHeader {bytes : List Byte} (hlen : 4 ≤ bytes.length) (hmagic : le32At bytes 0 = tlkMagic)
    (hshort : bytes.length < 28) : parse bytes = .error .truncatedFile := by
  rw [parse, if_neg hlen.not_gt, if_neg (not_not.2 hmagic), if_pos hshort]

/-- With its header whole and the magic right, a file is judged by its length, then by its tables. -/
theorem parse_of_header {bytes : List Byte} (hlen : 28 ≤ bytes.length) (hmagic : le32At bytes 0 = tlkMagic) :
    parse bytes =
      if bytes.length < declaredLength bytes then .error .truncatedFile
      else if declaredLength bytes < bytes.length then .error .trailingData
      else parseSections bytes (le32At bytes 12).toNat (le32At bytes 16).toNat (le32At bytes 20).toNat := by
  rw [parse, if_neg (by omega), if_neg (not_not.2 hmagic), if_neg hlen.not_gt]
  rfl

/-- The document whose sections stand in the file's bytes, whatever its ids (45_host_container.md R249). -/
def docAt (bytes : List Byte) (m f n : Nat) : Doc where
  version    := le32At bytes 4
  minVersion := le32At bytes 8
  male       := entriesAt bytes 28 m
  female     := entriesAt bytes (28 + 8 * m) f
  nodes      := nodesAt bytes (28 + 8 * m + 8 * f) n
  data       := bytes.drop (28 + 8 * m + 8 * f + 8 * n)

theorem parseSections_eq (bytes : List Byte) (m f n : Nat) :
    parseSections bytes m f n =
      if UniqueIds (docAt bytes m f n).male ∧ UniqueIds (docAt bytes m f n).female then .ok (docAt bytes m f n)
      else .error .duplicateId := by
  rw [parseSections, insertEntries_nil_eq, insertEntries_nil_eq, docAt]
  by_cases hmale : UniqueIds (entriesAt bytes 28 m)
  · by_cases hfemale : UniqueIds (entriesAt bytes (28 + 8 * m) f)
    · rw [if_pos hmale, if_pos hfemale, if_pos ⟨hmale, hfemale⟩]
    · rw [if_pos hmale, if_neg hfemale, if_neg (not_and_of_not_right _ hfemale)]
  · rw [if_neg hmale, if_neg (not_and_of_not_left _ hmale)]

/-- A file of the declared length gives its document, unless an id occurs twice in a table. -/
theorem parse_of_length {bytes : List Byte} (hlen : 28 ≤ bytes.length) (hmagic : le32At bytes 0 = tlkMagic)
    (htotal : declaredLength bytes = bytes.length) : parse bytes =
      parseSections bytes (le32At bytes 12).toNat (le32At bytes 16).toNat (le32At bytes 20).toNat := by
  rw [parse_of_header hlen hmagic, if_neg htotal.not_gt, if_neg htotal.not_lt]

/-- Settles O57: each test of PARSE decides where all earlier ones passed. -/
theorem parseReportsFirstError : Obligations.ParseReportsFirstError := by
  refine fun bytes => ⟨parse_of_noMagic, parse_of_wrongMagic, fun hlen hmagic hshort => ?truncated,
    fun hlen hmagic hlong => ?trailing, fun hlen hmagic htotal => ?tables⟩
  case truncated =>
    by_cases hheader : bytes.length < 28
    · exact parse_of_shortHeader hlen hmagic hheader
    · have hT : bytes.length < declaredLength bytes := hshort.resolve_left hheader
      rw [parse_of_header (by omega) hmagic, if_pos hT]
  case trailing =>
    have hT : declaredLength bytes < bytes.length := hlong
    rw [parse_of_header hlen hmagic, if_neg hT.not_gt, if_pos hT]
  case tables =>
    rw [parse_of_length hlen hmagic htotal, parseSections_eq]
    exact ⟨fun hdup => if_neg hdup, fun hmale hfemale => ⟨_, if_pos ⟨hmale, hfemale⟩⟩⟩

end Sys2Proof.Machine
end

section
/-! O56: PARSE reads back an emitted file (45_host_container.md R249, R257, R262). -/

namespace Sys2Proof.Machine

open Sys2Proof

/-! A 32-bit field in a file (20_memory.md R67). -/

@[simp] theorem length_toLe32 (v : Word32) : (toLe32 v).length = 4 := rfl

theorem le32_toLe32 (v : Word32) :
    le32 (v.extractLsb' 0 8) (v.extractLsb' 8 8) (v.extractLsb' 16 8) (v.extractLsb' 24 8) = v := by
  have hjoin {start next : Nat} (len len' : Nat) (h : next = start + len) :=
    BitVec.extractLsb'_append_extractLsb'_eq_extractLsb' (len₁ := len) (len₂ := len') (x := v) h
  rw [le32, hjoin 8 8 (by decide : 24 = 16 + 8), hjoin 8 16 (by decide : 16 = 8 + 8),
    hjoin 8 24 (by decide : 8 = 0 + 8)]
  exact BitVec.extractLsb'_eq_self

/-- A field reads back from where it was put, whatever stands around it. -/
theorem le32At_append (front : List Byte) (v : Word32) (back : List Byte) :
    le32At (front ++ (toLe32 v ++ back)) front.length = v := by
  have hbyte (i : Nat) : (front ++ (toLe32 v ++ back)).getD (front.length + i) 0 = (toLe32 v ++ back).getD i 0 := by
    rw [List.getD_append_right _ _ _ _ (Nat.le_add_right ..), Nat.add_sub_cancel_left]
  have hfirst := hbyte 0
  rw [Nat.add_zero] at hfirst
  rw [le32At, hfirst, hbyte, hbyte, hbyte]
  exact le32_toLe32 v


/-! Records of two fields: entries and nodes (20_memory.md R68, R69). -/

/-- `n` records of two fields from byte `base` on. `entriesAt` and `nodesAt` are the two cases of it. -/
def recordsAt {α : Type} (mk : Word32 → Word32 → α) (bytes : List Byte) (base n : Nat) : List α :=
  (List.range n).map fun i => mk (le32At bytes (base + 8 * i)) (le32At bytes (base + 8 * i + 4))

theorem entriesAt_eq (bytes : List Byte) (base n : Nat) :
    entriesAt bytes base n = recordsAt Entry.mk bytes base n := rfl

theorem nodesAt_eq (bytes : List Byte) (base n : Nat) :
    nodesAt bytes base n = recordsAt NodeRecord.mk bytes base n := rfl

theorem recordsAt_succ {α : Type} (mk : Word32 → Word32 → α) (bytes : List Byte) (base n : Nat) :
    recordsAt mk bytes base (n + 1) =
      mk (le32At bytes base) (le32At bytes (base + 4)) :: recordsAt mk bytes (base + 8) n := by
  rw [recordsAt, recordsAt, List.range_succ_eq_map, List.map_cons, List.map_map, Nat.mul_zero, Nat.add_zero]
  refine congrArg _ (List.map_congr_left fun i _ => ?_)
  rw [Function.comp_apply, Nat.succ_eq_add_one, show base + 8 * (i + 1) = base + 8 + 8 * i by omega]

/-- Records read back from where their wire forms were put. -/
theorem recordsAt_append {α : Type} {mk : Word32 → Word32 → α} {wire : α → List Byte}
    (hwire : ∀ a, ∃ x y, a = mk x y ∧ wire a = toLe32 x ++ toLe32 y) (as : List α) (front back : List Byte) :
    recordsAt mk (front ++ (as.flatMap wire ++ back)) front.length as.length = as := by
  induction as generalizing front with
  | nil => rfl
  | cons a as ih =>
    obtain ⟨x, y, rfl, hxy⟩ := hwire a
    have hx := le32At_append front x (toLe32 y ++ (as.flatMap wire ++ back))
    have hy := le32At_append (front ++ toLe32 x) y (as.flatMap wire ++ back)
    have hrest := ih (front ++ (toLe32 x ++ toLe32 y))
    simp only [List.append_assoc, List.length_append, length_toLe32] at hy hrest
    rw [List.length_cons, recordsAt_succ, List.flatMap_cons, hxy]
    simp only [List.append_assoc]
    rw [hx, hy, hrest]

theorem Entry.wire_eq (e : Entry) : ∃ x y, e = ⟨x, y⟩ ∧ e.wire = toLe32 x ++ toLe32 y := ⟨e.id, e.offset, rfl, rfl⟩

theorem NodeRecord.wire_eq (r : NodeRecord) : ∃ x y, r = ⟨x, y⟩ ∧ r.wire = toLe32 x ++ toLe32 y :=
  ⟨r.left, r.right, rfl, rfl⟩

/-! The sections of an emitted file (45_host_container.md R241). -/

/-- The seven words of a document's header. -/
def headerWords (d : Doc) : List Word32 :=
  [tlkMagic, d.version, d.minVersion, BitVec.ofNat 32 d.male.length, BitVec.ofNat 32 d.female.length,
    BitVec.ofNat 32 d.nodes.length, BitVec.ofNat 32 d.data.length]

/-- The header of a document's file: its first 28 bytes. -/
def headerOf (d : Doc) : List Byte := (headerWords d).flatMap toLe32

theorem length_headerOf (d : Doc) : (headerOf d).length = 28 := rfl

theorem emitDoc_eq (d : Doc) :
    emitDoc d = headerOf d ++ (d.male.flatMap Entry.wire ++ (d.female.flatMap Entry.wire ++
      (d.nodes.flatMap NodeRecord.wire ++ d.data))) := by
  simp only [emitDoc, headerOf, headerWords, List.flatMap_cons, List.flatMap_nil, List.append_nil, List.append_assoc]

/-- Words written one after another read back at their offsets. -/
theorem le32At_flatMap (front : List Word32) (v : Word32) (rest : List Word32) (back : List Byte) :
    le32At ((front ++ v :: rest).flatMap toLe32 ++ back) (4 * front.length) = v := by
  have hlen : (front.flatMap toLe32).length = 4 * front.length := by
    simp [List.length_flatMap, Nat.mul_comm]
  rw [List.flatMap_append, List.flatMap_cons, List.append_assoc, List.append_assoc, ← hlen]
  exact le32At_append _ v _

/-- The words of an emitted file's header, each at its offset. -/
structure HeaderReads (bytes : List Byte) (d : Doc) : Prop where
  magic      : le32At bytes 0 = tlkMagic
  version    : le32At bytes 4 = d.version
  minVersion : le32At bytes 8 = d.minVersion
  male       : le32At bytes 12 = BitVec.ofNat 32 d.male.length
  female     : le32At bytes 16 = BitVec.ofNat 32 d.female.length
  nodes      : le32At bytes 20 = BitVec.ofNat 32 d.nodes.length
  data       : le32At bytes 24 = BitVec.ofNat 32 d.data.length

theorem headerReads_emitDoc (d : Doc) : HeaderReads (emitDoc d) d := by
  have hword (k : Nat) (v : Word32) (h : headerWords d = (headerWords d).take k ++ v :: (headerWords d).drop (k + 1))
      (hk : ((headerWords d).take k).length = k) : le32At (emitDoc d) (4 * k) = v := by
    have hread := le32At_flatMap ((headerWords d).take k) v ((headerWords d).drop (k + 1))
      (d.male.flatMap Entry.wire ++ (d.female.flatMap Entry.wire ++ (d.nodes.flatMap NodeRecord.wire ++ d.data)))
    rw [← h, hk] at hread
    rw [emitDoc_eq]
    exact hread
  exact ⟨hword 0 _ rfl rfl, hword 1 _ rfl rfl, hword 2 _ rfl rfl, hword 3 _ rfl rfl, hword 4 _ rfl rfl,
    hword 5 _ rfl rfl, hword 6 _ rfl rfl⟩

theorem length_entries_wire (es : List Entry) : (es.flatMap Entry.wire).length = 8 * es.length := by
  simp [List.length_flatMap, Entry.wire, Nat.mul_comm]

theorem length_nodes_wire (rs : List NodeRecord) : (rs.flatMap NodeRecord.wire).length = 8 * rs.length := by
  simp [List.length_flatMap, NodeRecord.wire, Nat.mul_comm]

/-- An emitted file has the length its header declares (45_host_container.md R259). -/
theorem length_emitDoc (d : Doc) :
    (emitDoc d).length = fileLength d.male.length d.female.length d.nodes.length d.data.length := by
  simp only [emitDoc_eq, List.length_append, length_headerOf, length_entries_wire, length_nodes_wire, fileLength]
  omega

/-- The sections of an emitted file are the document's own. -/
theorem docAt_emitDoc (d : Doc) : docAt (emitDoc d) d.male.length d.female.length d.nodes.length = d := by
  obtain ⟨-, hversion, hminVersion, -, -, -, -⟩ := headerReads_emitDoc d
  have hmale := recordsAt_append Entry.wire_eq d.male (headerOf d)
    (d.female.flatMap Entry.wire ++ (d.nodes.flatMap NodeRecord.wire ++ d.data))
  have hfemale := recordsAt_append Entry.wire_eq d.female (headerOf d ++ d.male.flatMap Entry.wire)
    (d.nodes.flatMap NodeRecord.wire ++ d.data)
  have hnodes := recordsAt_append NodeRecord.wire_eq d.nodes
    (headerOf d ++ d.male.flatMap Entry.wire ++ d.female.flatMap Entry.wire) d.data
  have hdata := List.drop_left (l₂ := d.data)
    (l₁ := headerOf d ++ d.male.flatMap Entry.wire ++ d.female.flatMap Entry.wire ++ d.nodes.flatMap NodeRecord.wire)
  simp only [List.append_assoc, List.length_append, length_headerOf, length_entries_wire, length_nodes_wire,
    ← emitDoc_eq, ← Nat.add_assoc] at hmale hfemale hnodes hdata
  simp only [docAt, entriesAt_eq, nodesAt_eq, hversion, hminVersion, hmale, hfemale, hnodes, hdata]

/-- Settles O56: the header declares the file's own length, and every section reads back. -/
theorem parseReadsEmittedDocument : Obligations.ParseReadsEmittedDocument := by
  intro d hmale hfemale hm hf hn hd
  obtain ⟨hmagic, -, -, hmaleCount, hfemaleCount, hnodesCount, hdataCount⟩ := headerReads_emitDoc d
  have hcount {n : Nat} (h : n < 2 ^ 32) : (BitVec.ofNat 32 n).toNat = n := Nat.mod_eq_of_lt h
  have hlen := length_emitDoc d
  have htotal : declaredLength (emitDoc d) = (emitDoc d).length := by
    rw [declaredLength, hmaleCount, hfemaleCount, hnodesCount, hdataCount, hcount hm, hcount hf, hcount hn, hcount hd,
      hlen]
  have hheader : 28 ≤ (emitDoc d).length := by
    rw [hlen, fileLength]
    omega
  rw [parse_of_length hheader hmagic htotal, hmaleCount, hfemaleCount, hnodesCount, hcount hm, hcount hf, hcount hn,
    parseSections_eq, docAt_emitDoc, if_pos ⟨hmale, hfemale⟩]

end Sys2Proof.Machine
end

section
/-! O59: SERIALIZE's checks (45_host_container.md R256). -/

namespace Sys2Proof.Machine

open Sys2Proof

/-- A list that fails a check is answered before any command is issued. -/
theorem serialize_of_check {male female : List (Word32 × Text)} {e : HostError}
    (h : serializeCheck male female = some e) (version minVersion : Word32) (s : State) :
    serialize version minVersion male female s = .next (s, .error e) := by
  rw [serialize, h]

theorem serializeCheck_of_duplicate {male female : List (Word32 × Text)}
    (h : ¬ (male.map Prod.fst).Nodup ∨ ¬ (female.map Prod.fst).Nodup) :
    serializeCheck male female = some (.host .duplicateId) := by
  rw [serializeCheck, ← ite_or, if_pos h]

/-- With unique ids in each list the later checks decide. -/
theorem serializeCheck_of_unique {male female : List (Word32 × Text)} (hmale : (male.map Prod.fst).Nodup)
    (hfemale : (female.map Prod.fst).Nodup) : serializeCheck male female =
      if ∃ p ∈ male ++ female, terminator ∈ p.2 then some (.arch .illegalOperand)
      else if male = [] ∧ female = [] then some (.arch .emptySymbolSet)
      else if 2 ^ 32 - 1 < male.length ∨ 2 ^ 32 - 1 < female.length then some (.arch .capacityExceeded)
      else none := by
  rw [serializeCheck, if_neg (not_not.2 hmale), if_neg (not_not.2 hfemale)]
  simp only [List.any_eq_true, List.contains_iff_mem]

/-- Settles O59: each check decides where all earlier ones passed. -/
theorem serializeChecksFirst : Obligations.SerializeChecksFirst := by
  intro version minVersion male female s
  refine ⟨fun hdup => ?duplicate, fun hmale hfemale hterm => ?terminator, fun hm hf => ?empty,
    fun hmale hfemale hterm hlong => ?long⟩ <;> refine serialize_of_check ?_ version minVersion s
  case duplicate => exact serializeCheck_of_duplicate hdup
  case terminator => rw [serializeCheck_of_unique hmale hfemale, if_pos hterm]
  case empty =>
    subst hm hf
    rfl
  case long =>
    have hne : ¬ (male = [] ∧ female = []) := by
      rintro ⟨rfl, rfl⟩
      simp at hlong
    rw [serializeCheck_of_unique hmale hfemale, if_neg (by simpa using hterm), if_neg hne, if_pos hlong]

end Sys2Proof.Machine
end

section
/-! O60, the command lines of SERIALIZE (45_host_container.md R257): each is performed in an idle block that meets the
invariant, and leaves such a block. -/

namespace Sys2Proof.Machine

open Sys2Proof

/-- The block between two command lines of a host procedure: it meets the invariant and the host may access it. -/
structure State.Ready (s : State) : Prop where
  inv  : s.Inv
  idle : s.Idle

/-- The block when the host's poll of STATUS has found BUSY = 0 (30_encoding.md R97). -/
def State.polled (s : State) : State := s.answer (.word s.statusWord)

theorem State.Ready.polled {s : State} (h : s.Ready) : s.polled.Ready :=
  have ⟨⟨hwf, hcodes⟩, ⟨hfault, hbusy⟩⟩ := h
  ⟨⟨hwf.answer _, hcodes.congr rfl rfl rfl rfl⟩, ⟨hfault, hbusy⟩⟩

theorem pollStatus_of_noFault {s : State} (h : s.mfault.isEmpty = true) : pollStatus s = .next s.polled := if_pos h

/-- The block as the engine finds the command `i`, issued with `t` in TEXT_IN (10_state.md R24). -/
def State.latched (s : State) (i : Instr) (t : Text) : State := { s with textIn := t }.issue (encode i)

theorem State.Inv.latched {s : State} (h : s.Inv) (i : Instr) (t : Text) : (s.latched i t).Inv :=
  have ⟨hwf, hcodes⟩ := h
  ⟨State.Wf.issue (s := { s with textIn := t }) { hwf with } _, hcodes.congr rfl rfl rfl rfl⟩

/-- The command reads data memory, so it can meet UninitRead (60_exceptions.md R290). -/
def ReadsMemory (i : Instr) : Prop := i = .rdBit ∨ i = .decode

/-- `r` is the block as the command `i`, with the text `t`, leaves it before the poll. -/
structure Performed (i : Instr) (t : Text) (s r : State) : Prop where
  exec  : exec i (s.latched i t) = .next r
  ready : r.Ready

theorem performed_of_ready {s : State} (h : s.Ready) {i : Instr} (hi : ¬ ReadsMemory i) (t : Text) :
    ∃ r, Performed i t s r := by
  have hinv := h.inv.latched i t
  obtain ⟨r, hr, hbusy, hfault⟩ | ⟨hmem, -⟩ := exec_completes_or_uninit i hinv.codes
  · exact ⟨r, hr, ⟨wf_exec hinv.wf hr, codesMatch_exec hinv hr⟩, (congrArg _ hfault).trans h.idle.noFault, hbusy⟩
  · exact absurd hmem hi

theorem Performed.cfg {i : Instr} {t : Text} {s r : State} (h : Performed i t s r) : r.polled.cfg = s.cfg :=
  exec_cfg (s := s.latched i t) (t := r) h.exec

theorem takeTurns_commandLine_of_performed {s r : State} {i : Instr} (h : s.Ready) (hr : Performed i s.textIn s r) :
    takeTurns (commandLine i) s = .next r.polled := by
  have hexec : Machine.exec i (s.issue (encode i)) = .next r := hr.exec
  rw [takeTurns_commandLine (decode_encode i) h.idle.noFault h.idle.busy, hexec]
  exact pollStatus_of_noFault hr.ready.idle.noFault

theorem takeTurns_textLine_of_performed {s r : State} {i : Instr} {t : Text} (h : s.Ready) (hr : Performed i t s r) :
    takeTurns (textLine i t) s = .next r.polled := by
  have hloaded : State.Ready { s with textIn := t } :=
    have ⟨⟨hwf, hcodes⟩, ⟨hfault, hbusy⟩⟩ := h
    ⟨⟨{ hwf with }, hcodes.congr rfl rfl rfl rfl⟩, ⟨hfault, hbusy⟩⟩
  rw [takeTurns_textLine i t h.idle.noFault h.idle.busy]
  exact takeTurns_commandLine_of_performed hloaded ⟨hr.exec, hr.ready⟩

/-- A line is that of the command `i` with the text `t`: its text line, or its command line where `t` is in the
text port already. -/
def IsLineOf (l : List Turn) (i : Instr) (t : Text) (s : State) : Prop :=
  l = textLine i t ∨ (l = commandLine i ∧ t = s.textIn)

theorem takeTurns_of_performed {s r : State} {i : Instr} {t : Text} {l : List Turn} (h : s.Ready)
    (hl : IsLineOf l i t s) (hr : Performed i t s r) : takeTurns l s = .next r.polled := by
  obtain rfl | ⟨rfl, rfl⟩ := hl
  · exact takeTurns_textLine_of_performed h hr
  · exact takeTurns_commandLine_of_performed h hr

/-- Every line of a command that reads no data memory is performed, and its command is what the line did. -/
theorem exists_performed {s : State} {i : Instr} {t : Text} {l : List Turn} (h : s.Ready) (hi : ¬ ReadsMemory i)
    (hl : IsLineOf l i t s) : ∃ r, Performed i t s r ∧ takeTurns l s = .next r.polled := by
  obtain ⟨r, hr⟩ := performed_of_ready h hi t
  exact ⟨r, hr, takeTurns_of_performed h hl hr⟩

/-! Lines one after another. -/

/-- The line is performed in every ready block, and leaves one with the same parameters. -/
def KeepsReady (l : List Turn) : Prop := ∀ s : State, s.Ready → ∃ r, takeTurns l s = .next r ∧ r.Ready ∧ r.cfg = s.cfg

theorem keepsReady_of_isLineOf {l : List Turn} {i : Instr} (hi : ¬ ReadsMemory i)
    (hl : ∀ s, ∃ t, IsLineOf l i t s) : KeepsReady l := by
  intro s h
  obtain ⟨t, hlt⟩ := hl s
  obtain ⟨r, hr, hrun⟩ := exists_performed h hi hlt
  exact ⟨_, hrun, hr.ready.polled, hr.cfg⟩

theorem keepsReady_commandLine {i : Instr} (hi : ¬ ReadsMemory i) : KeepsReady (commandLine i) :=
  keepsReady_of_isLineOf hi fun s => ⟨s.textIn, .inr ⟨rfl, rfl⟩⟩

theorem keepsReady_textLine {i : Instr} (hi : ¬ ReadsMemory i) (t : Text) : KeepsReady (textLine i t) :=
  keepsReady_of_isLineOf hi fun _ => ⟨t, .inl rfl⟩

theorem runLines_ready {ls : List (List Turn)} (hls : ∀ l ∈ ls, KeepsReady l) {s : State} (h : s.Ready)
    (err : Option ErrCode) : ∃ r e, runLines ls err s = .next (r, e) ∧ r.Ready ∧ r.cfg = s.cfg := by
  induction ls generalizing s err with
  | nil => exact ⟨s, err, rfl, h, rfl⟩
  | cons l ls ih =>
    obtain ⟨hl, hls⟩ := List.forall_mem_cons.1 hls
    obtain ⟨m, hm, hready, hcfg⟩ := hl s h
    obtain ⟨r, e, hrun, hr, hcfg'⟩ := ih hls hready (err <|> m.commandError)
    exact ⟨r, e, by rw [runLines, hm, andThen_next, hrun], hr, hcfg'.trans hcfg⟩

theorem commandError_eq_none {s : State} : s.commandError = none ↔ s.errCode = .ok := by
  rw [State.commandError]
  split <;> simp [*]

/-- No error is reported so far exactly when none was before and the last command reported none. -/
theorem firstError_eq_none {err : Option ErrCode} {s : State} :
    (err <|> s.commandError) = none ↔ err = none ∧ s.errCode = .ok := by
  rw [← commandError_eq_none]
  cases err <;> simp

/-- Lines that report no error: the earlier ones report none, and the last one none. -/
theorem runLines_concat_ok {ls : List (List Turn)} {l : List Turn} {err : Option ErrCode} {s r : State}
    (h : runLines (ls ++ [l]) err s = .next (r, none)) :
    ∃ m, runLines ls err s = .next (m, none) ∧ takeTurns l m = .next r ∧ r.errCode = .ok := by
  rw [runLines_append, andThen_eq_next] at h
  obtain ⟨⟨m, e⟩, hls, hl⟩ := h
  obtain ⟨r', hr', hlast⟩ := andThen_eq_next.1 hl
  obtain ⟨rfl, herr⟩ := Prod.mk.inj (Host.Outcome.next.inj hlast)
  obtain ⟨rfl, hok⟩ := firstError_eq_none.1 herr
  exact ⟨m, hls, hr', hok⟩

theorem runLines_cons_of_ok {l : List Turn} {s r : State} (hl : takeTurns l s = .next r) (hok : r.errCode = .ok)
    (ls : List (List Turn)) : runLines (l :: ls) none s = runLines ls none r := by
  rw [runLines, hl, andThen_next, firstError_eq_none.2 ⟨rfl, hok⟩]

theorem runLines_append_of_ok {ls : List (List Turn)} {s r : State} (hls : runLines ls none s = .next (r, none))
    (ms : List (List Turn)) : runLines (ls ++ ms) none s = runLines ms none r := by
  rw [runLines_append, hls, andThen_next]

end Sys2Proof.Machine
end

section
/-! O60, what SERIALIZE does when no command reports an error: the tree of BUILD, the texts' code strings one after
another in the writer, the file (45_host_container.md R257). -/

namespace Sys2Proof.Machine

open Sys2Proof

/-! BUILD and WR_CLEAR. -/

/-- The block is ready to encode: its code table is valid. -/
structure State.Encoder (s : State) : Prop where
  ready   : s.Ready
  ctValid : s.ctValid = true

/-- The two blocks have one set of parameters, one tree and one code table. -/
structure SameCodes (s r : State) : Prop where
  cfg       : r.cfg = s.cfg
  tm        : r.tm = s.tm
  nodeCount : r.nodeCount = s.nodeCount
  ct        : r.ct = s.ct
  ctValid   : r.ctValid = s.ctValid

theorem SameCodes.refl (s : State) : SameCodes s s := ⟨rfl, rfl, rfl, rfl, rfl⟩

theorem SameCodes.trans {s r q : State} (h : SameCodes s r) (h' : SameCodes r q) : SameCodes s q :=
  ⟨h'.cfg.trans h.cfg, h'.tm.trans h.tm, h'.nodeCount.trans h.nodeCount, h'.ct.trans h.ct, h'.ctValid.trans h.ctValid⟩

theorem Performed.sameCodes {i : Instr} {t : Text} {s r : State} (h : Performed i t s r) (hi : i ≠ .treeBuild) :
    SameCodes s r.polled := by
  obtain ⟨hcfg, -, -, -, -, -, -, -, -, -, -, -, ⟨htm, hn, hct, hv⟩ | hbuild, -⟩ :=
    commandsWriteOnlyTheirState i _ r h.exec
  · exact ⟨hcfg, htm, hn, hct, hv⟩
  · exact absurd hbuild hi

theorem keepsReady_of_mem_build {ts : List Text} :
    ∀ l ∈ commandLine .freqClear :: ts.map (textLine .freqAdd), KeepsReady l := by
  refine List.forall_mem_cons.2 ⟨keepsReady_commandLine (by simp [ReadsMemory]), fun l hl => ?_⟩
  obtain ⟨t, -, rfl⟩ := List.mem_map.1 hl
  exact keepsReady_textLine (by simp [ReadsMemory]) t

theorem buildLines_eq (ts : List Text) :
    buildLines ts = (commandLine .freqClear :: ts.map (textLine .freqAdd)) ++ [commandLine .treeBuild] := rfl

theorem wrClearLine_runs {s : State} (h : s.Ready) : ∃ r, takeTurns (commandLine .wrClear) s = .next r ∧ r.Ready ∧
    SameCodes s r ∧ r.errCode = .ok ∧ r.wb = [] := by
  obtain ⟨r, hr, hrun⟩ := exists_performed (i := .wrClear) h (by simp [ReadsMemory]) (.inr ⟨rfl, rfl⟩)
  have hexec := hr.exec
  cases hexec
  exact ⟨_, hrun, hr.ready.polled, hr.sameCodes (by simp), rfl, rfl⟩

theorem treeBuildLine_ok {s r : State} (h : s.Ready) (hrun : takeTurns (commandLine .treeBuild) s = .next r)
    (hok : r.errCode = .ok) : r.Encoder ∧ r.cfg = s.cfg := by
  obtain ⟨q, hq, hrun'⟩ := exists_performed (i := .treeBuild) h (by simp [ReadsMemory]) (.inr ⟨rfl, rfl⟩)
  cases hrun'.symm.trans hrun
  obtain ⟨first, others, -, -, hbuilt⟩ := exec_treeBuild_ok hq.exec hok
  exact ⟨⟨hq.ready.polled, by rw [hbuilt]; rfl⟩, hq.cfg⟩

/-- A BUILD and a WR_CLEAR without an error leave a block ready to encode, its writer empty. -/
theorem build_ok {ts : List Text} {s b : State} (h : s.Ready)
    (hrun : runLines (buildLines ts ++ [commandLine .wrClear]) none s = .next (b, none)) :
    b.Encoder ∧ b.cfg = s.cfg ∧ b.wb = [] := by
  obtain ⟨built, hbuild, hclear, -⟩ := runLines_concat_ok hrun
  rw [buildLines_eq] at hbuild
  obtain ⟨counted, hcount, htree, hok⟩ := runLines_concat_ok hbuild
  obtain ⟨_, _, hcount', hcounted, hcfg⟩ := runLines_ready (keepsReady_of_mem_build (ts := ts)) h none
  cases hcount'.symm.trans hcount
  obtain ⟨⟨hready, hvalid⟩, hcfg'⟩ := treeBuildLine_ok hcounted htree hok
  obtain ⟨_, hclear', hb, hsame, -, hwb⟩ := wrClearLine_runs hready
  cases hclear'.symm.trans hclear
  exact ⟨⟨hb, hsame.ctValid.trans hvalid⟩, (hsame.cfg.trans hcfg').trans hcfg, hwb⟩

/-! ENCODE and the entries. -/

/-- The code string of the text stands in `w` from bit `off` on, under the codes of `b`. -/
def StandsAt (b : State) (w : Bits) (off : Nat) (t : Text) : Prop :=
  terminator ∉ t ∧ ∃ front c back, codeString b t = some c ∧ w = front ++ (c ++ back) ∧ front.length = off

theorem StandsAt.append {b : State} {w : Bits} {off : Nat} {t : Text} (h : StandsAt b w off t) (more : Bits) :
    StandsAt b (w ++ more) off t := by
  obtain ⟨hterm, front, c, back, hc, rfl, hoff⟩ := h
  exact ⟨hterm, front, c, back ++ more, hc, by simp only [List.append_assoc], hoff⟩

theorem StandsAt.congr {b b' : State} {w : Bits} {off : Nat} {t : Text} (h : StandsAt b w off t) (hct : b'.ct = b.ct) :
    StandsAt b' w off t := by
  obtain ⟨hterm, front, c, back, hc, hw, hoff⟩ := h
  exact ⟨hterm, front, c, back, (codeString_congr hct t).trans hc, hw, hoff⟩

theorem encodeLine_runs {s : State} (h : s.Ready) (t : Text) :
    ∃ r, Performed .encode t s r ∧ takeTurns (textLine .encode t) s = .next r.polled :=
  exists_performed h (by simp [ReadsMemory]) (.inl rfl)

/-- An ENCODE without an error: its code string is appended at the offset it returns, one of 32 bits. -/
theorem Performed.encode_ok {t : Text} {s r : State} (h : Performed .encode t s r) (hok : r.errCode = .ok) :
    terminator ∉ t ∧ (r.result.setWidth 32 : Word32).toNat = s.wb.length ∧
      ∃ c, codeString s t = some c ∧ r.wb = s.wb ++ c := by
  have hrun : execWithText .encode t (s.latched .encode t) = .next r := h.exec
  obtain ⟨c, hc, hwb, -, -⟩ := encode_succeeds hrun hok
  obtain ⟨-, hterm, hstart⟩ := encodeChecked_of_ok hrun hok
  have hresult : r.result.toNat = s.wb.length := toNat_result_of_encode (s := s.latched .encode t) hrun hok
  refine ⟨hterm, ?_, c, (codeString_congr (s := s) (s' := s.latched .encode t) rfl t).symm.trans hc, hwb⟩
  rw [BitVec.toNat_setWidth, hresult]
  exact Nat.mod_eq_of_lt (Nat.lt_of_le_pred (by decide) hstart)

/-- The entry is the pair's: its id, and the offset at which the pair's text stands. -/
structure EntryFor (b : State) (w : Bits) (p : Word32 × Text) (e : Entry) : Prop where
  id     : e.id = p.1
  stands : StandsAt b w e.offset.toNat p.2

theorem EntryFor.append {b : State} {w : Bits} {p : Word32 × Text} {e : Entry} (h : EntryFor b w p e) (more : Bits) :
    EntryFor b (w ++ more) p e := ⟨h.id, h.stands.append more⟩

theorem EntryFor.congr {b b' : State} {w : Bits} {p : Word32 × Text} {e : Entry} (h : EntryFor b w p e)
    (hct : b'.ct = b.ct) : EntryFor b' w p e := ⟨h.id, h.stands.congr hct⟩

/-- What the loop over a list of pairs does, from `x` to `y`, when no command reports an error. -/
structure EncodesAll (l : List (Word32 × Text)) (x y : Encoding) : Prop where
  ready   : y.block.Ready
  same    : SameCodes x.block y.block
  appends : ∃ written, y.block.wb = x.block.wb ++ written
  entries : ∃ added, y.tbl = x.tbl ++ added ∧ List.Forall₂ (EntryFor x.block y.block.wb) l added

theorem tableAfterInsert_of_fresh {tbl : List Entry} {e : Entry} (h : ∀ x ∈ tbl, x.id ≠ e.id) :
    tableAfterInsert tbl e = tbl ++ [e] := by
  rw [tableAfterInsert, insertEntry_of_fresh h]

/-- A first error is never forgotten. -/
theorem encodeEntries_noError {l : List (Word32 × Text)} {s : State} {err : Option ErrCode} {tbl : List Entry}
    {y : Encoding} (hrun : encodeEntries l ⟨s, err, tbl⟩ = .next y) (hok : y.err = none) : err = none := by
  induction l generalizing s err tbl with
  | nil =>
    cases hrun
    exact hok
  | cons p l ih =>
    obtain ⟨_, -, hrest⟩ := andThen_eq_next.1 hrun
    exact (firstError_eq_none.1 (ih hrest)).1

/-- With new ids and no error, each pair's text is appended to the writer and its entry to the table. -/
theorem encodeEntries_ok {l : List (Word32 × Text)} {x y : Encoding} (h : x.block.Ready)
    (hnew : (x.tbl.map Entry.id ++ l.map Prod.fst).Nodup) (hrun : encodeEntries l x = .next y)
    (hok : y.err = none) : EncodesAll l x y := by
  induction l generalizing x with
  | nil =>
    cases hrun
    exact ⟨h, .refl _, ⟨[], (List.append_nil _).symm⟩, [], (List.append_nil _).symm, .nil⟩
  | cons p l ih =>
    obtain ⟨id, t⟩ := p
    obtain ⟨r, hr, hline⟩ := encodeLine_runs h t
    have hfresh : ∀ e ∈ x.tbl, e.id ≠ id := by
      rw [List.nodup_append] at hnew
      obtain ⟨-, -, hne⟩ := hnew
      exact fun e he => hne _ (List.mem_map_of_mem he) id (by simp)
    rw [encodeEntries, hline, andThen_next, tableAfterInsert_of_fresh hfresh] at hrun
    obtain ⟨-, hcode⟩ := firstError_eq_none.1 (encodeEntries_noError hrun hok)
    obtain ⟨hready, hsame, ⟨written, hwb⟩, added, htbl, hadded⟩ := ih hr.ready.polled (by simpa using hnew) hrun
    obtain ⟨hterm, hoff, c, hc, hwb'⟩ := hr.encode_ok hcode
    have hsame' := hr.sameCodes (by simp)
    have hwritten : y.block.wb = x.block.wb ++ (c ++ written) := by
      rw [hwb, ← List.append_assoc, ← hwb']
      rfl
    have hentry : EntryFor x.block y.block.wb (id, t) ⟨id, r.result.setWidth 32⟩ :=
      ⟨rfl, hterm, x.block.wb, c, written, hc, hwritten, hoff.symm⟩
    refine ⟨hready, hsame'.trans hsame, ⟨_, hwritten⟩, _ :: added, ?_,
      .cons hentry (hadded.imp fun p e he => he.congr hsame'.ct.symm)⟩
    rw [htbl, List.append_assoc]
    rfl

/-! The file. -/

/-- The lists pass every check of SERIALIZE (45_host_container.md R256). -/
structure ListsLegal (male female : List (Word32 × Text)) : Prop where
  maleUnique   : (male.map Prod.fst).Nodup
  femaleUnique : (female.map Prod.fst).Nodup
  noTerminator : ∀ p ∈ male ++ female, terminator ∉ p.2
  notEmpty     : male ++ female ≠ []
  maleFits     : male.length ≤ 2 ^ 32 - 1
  femaleFits   : female.length ≤ 2 ^ 32 - 1

theorem serializeCheck_eq_none {male female : List (Word32 × Text)} :
    serializeCheck male female = none ↔ ListsLegal male female := by
  constructor
  · intro h
    have hunique : (male.map Prod.fst).Nodup ∧ (female.map Prod.fst).Nodup := by
      by_contra hdup
      rw [serializeCheck_of_duplicate (not_and_or.1 hdup)] at h
      simp at h
    obtain ⟨hmale, hfemale⟩ := hunique
    rw [serializeCheck_of_unique hmale hfemale] at h
    split_ifs at h with hterm hempty hlong
    obtain ⟨hm, hf⟩ := not_or.1 hlong
    exact ⟨hmale, hfemale, by simpa using hterm, by simpa using hempty, not_lt.1 hm, not_lt.1 hf⟩
  · rintro ⟨hmale, hfemale, hterm, hne, hm, hf⟩
    rw [serializeCheck_of_unique hmale hfemale, if_neg (by simpa using hterm), if_neg (by simpa using hne),
      if_neg (not_or.2 ⟨hm.not_gt, hf.not_gt⟩)]

/-- The block and the document after a SERIALIZE without an error: the document's data are the bits `w` packed, in
which every pair's text stands at its entry's offset. -/
structure FileHolds (male female : List (Word32 × Text)) (s : State) (d : Doc) (w : Bits) : Prop where
  encoder : s.Encoder
  fits    : w.length ≤ s.cfg.wbufCapBits
  nodes   : d.nodes = treeRecords s
  data    : d.data = pack s.cfg.bitOrder w
  male    : List.Forall₂ (EntryFor s w) male d.male
  female  : List.Forall₂ (EntryFor s w) female d.female

theorem wrFinishLine_runs {s : State} (h : s.Ready) : ∃ r, takeTurns (commandLine .wrFinish) s = .next r ∧ r.Ready ∧
    SameCodes s r ∧ r.errCode = .ok ∧ r.resBytes = pack s.cfg.bitOrder s.wb := by
  obtain ⟨r, hr, hrun⟩ := exists_performed (i := .wrFinish) h (by simp [ReadsMemory]) (.inr ⟨rfl, rfl⟩)
  have hexec := hr.exec
  cases hexec
  exact ⟨_, hrun, hr.ready.polled, hr.sameCodes (by simp), rfl, rfl⟩

/-- A SERIALIZE that returns bytes emits a file that holds every pair. -/
theorem serialize_ok {version minVersion : Word32} {male female : List (Word32 × Text)} {s s1 : State}
    {bytes : List Byte} (h : s.Ready)
    (hrun : serialize version minVersion male female s = .next (s1, .ok bytes)) :
    ListsLegal male female ∧ s1.cfg = s.cfg ∧ ∃ d w, bytes = emitDoc d ∧ d.version = version ∧
      d.minVersion = minVersion ∧ FileHolds male female s1 d w := by
  cases hcheck : serializeCheck male female with
  | some e =>
    rw [serialize_of_check hcheck] at hrun
    simp at hrun
  | none =>
    have hlegal := serializeCheck_eq_none.1 hcheck
    rw [serialize, hcheck] at hrun
    simp only [andThen_eq_next] at hrun
    obtain ⟨⟨b, berr⟩, hbuild, m, hmale, f, hfemale, ⟨r, rerr⟩, hfinish, hresult⟩ := hrun
    obtain ⟨rfl, hbytes⟩ := Prod.mk.inj (Host.Outcome.next.inj hresult)
    obtain rfl : rerr = none := by
      cases rerr with
      | none => rfl
      | some e => simp [serializeResult] at hbytes
    obtain ⟨_, hlast, hline, -⟩ := runLines_concat_ok (ls := []) hfinish
    obtain ⟨rfl, hferr⟩ := Prod.mk.inj (Host.Outcome.next.inj hlast)
    have hmerr : m.err = none := encodeEntries_noError hfemale hferr
    obtain rfl : berr = none := encodeEntries_noError hmale hmerr
    obtain ⟨⟨hb, hvalid⟩, hcfg, hwb⟩ := build_ok h hbuild
    obtain ⟨hm, hsameM, -, _, hmtbl, hmaleFor⟩ := encodeEntries_ok (x := ⟨b, none, []⟩) hb
      hlegal.maleUnique hmale hmerr
    obtain ⟨hf, hsameF, ⟨more, hmore⟩, _, hftbl, hfemaleFor⟩ := encodeEntries_ok
      (x := ⟨m.block, m.err, []⟩) hm hlegal.femaleUnique hfemale hferr
    obtain ⟨_, hline', hr, hsameR, -, hpacked⟩ := wrFinishLine_runs hf
    cases hline'.symm.trans hline
    have hsame := (hsameM.trans hsameF).trans hsameR
    refine ⟨hlegal, hsame.cfg.trans hcfg, _, f.block.wb, (Except.ok.inj hbytes).symm, rfl, rfl,
      ⟨hr, hsame.ctValid.trans hvalid⟩, ?_, rfl, ?_, ?_, ?_⟩
    · rw [hsameR.cfg]
      exact hf.inv.wf.wbLe
    · rw [hsameR.cfg]
      exact hpacked
    · rw [hmtbl]
      exact hmaleFor.imp fun p e he => (hmore ▸ he.append more).congr hsame.ct
    · rw [hftbl]
      exact hfemaleFor.imp fun p e he => he.congr (hsameF.trans hsameR).ct

end Sys2Proof.Machine
end

section
/-! O60, LOAD_DOC and DECODE_ENTRY (45_host_container.md R250, R253): loading a document whose nodes are the block's own
tree leaves the tree as it was, and puts the document's data in the stream. -/

namespace Sys2Proof.Machine

open Sys2Proof

/-! The records of the tree. -/

theorem State.Encoder.nodeAt_ne_none {s : State} (h : s.Encoder) {i : Nat} (hi : i < s.nodeCount.toNat) :
    s.nodeAt i ≠ none := by
  obtain ⟨-, hsound⟩ := h.ready.inv.codes.tree h.ctValid
  obtain ⟨rec, hrec, -⟩ := hsound i hi
  simp [hrec]

/-- Every record of TM[0..N) is written, so all are listed (43_huffman_build.md R192). -/
theorem State.Encoder.treeRecords_map_some {s : State} (h : s.Encoder) :
    (treeRecords s).map some = (List.range s.nodeCount.toNat).map s.nodeAt := by
  have hsome : ∀ i ∈ List.range s.nodeCount.toNat, s.nodeAt i = some ((s.nodeAt i).getD ⟨0, 0⟩) := fun i hi => by
    obtain ⟨rec, hrec⟩ := Option.ne_none_iff_exists'.1 (h.nodeAt_ne_none (List.mem_range.1 hi))
    rw [hrec, Option.getD_some]
  have hlist : treeRecords s = (List.range s.nodeCount.toNat).map fun i => (s.nodeAt i).getD ⟨0, 0⟩ :=
    (List.filterMap_congr hsome).trans (congrFun List.filterMap_eq_map _)
  rw [hlist, List.map_map]
  exact List.map_congr_left fun i hi => (hsome i hi).symm

theorem State.Encoder.length_treeRecords {s : State} (h : s.Encoder) : (treeRecords s).length = s.nodeCount.toNat := by
  simpa using congrArg List.length h.treeRecords_map_some

theorem State.Encoder.getElem?_treeRecords {s : State} (h : s.Encoder) {i : Nat} (hi : i < s.nodeCount.toNat) :
    (treeRecords s)[i]? = s.nodeAt i := by
  have hat := congrArg (·[i]?) h.treeRecords_map_some
  simp only [List.getElem?_map, List.getElem?_range hi, Option.map_some] at hat
  obtain ⟨rec, hrec⟩ := Option.ne_none_iff_exists'.1 (h.nodeAt_ne_none hi)
  simpa [hrec] using hat

/-- Written over itself the tree is as it was. -/
theorem State.Encoder.writeRecords_treeRecords {s : State} (h : s.Encoder) :
    writeRecords s.tm 0 (treeRecords s) = s.tm := by
  have hrising := h.ready.inv.wf.tmRising
  refine table_ext (rising_writeRecords 0 _ hrising) hrising fun i => ?_
  rw [tableGet_writeRecords, h.length_treeRecords, Nat.zero_add, Nat.sub_zero]
  split
  next hi => exact h.getElem?_treeRecords hi.2
  · rfl

/-! The host's writes, one after another. -/

theorem takeTurns_cons_of_next {t : Turn} {ts : List Turn} {s r : State} (h : takeTurn t s = .next r) :
    takeTurns (t :: ts) s = takeTurns ts r := by
  rw [takeTurns, h, andThen_next]

theorem takeTurns_writeNodeLines {s : State} (h : s.Idle) (hv : s.ctValid = false) {base : Nat} {rs : List NodeRecord}
    (hle : base + rs.length ≤ s.cfg.nodeCap) :
    takeTurns (writeNodeLines base rs) s = .next { s with tm := writeRecords s.tm base rs } := by
  induction rs generalizing s base with
  | nil => rfl
  | cons r rs ih =>
    rw [List.length_cons] at hle
    have hwrite : takeTurn (.host (.writeNode base r)) s = .next { s with tm := tableSet s.tm base r } :=
      (hostStep_writeNode h (by omega) r).trans (by rw [← hv])
    rw [writeNodeLines, takeTurns_cons_of_next hwrite]
    exact ih (s := { s with tm := tableSet s.tm base r }) ⟨h.noFault, h.busy⟩ hv (by simp only; omega)

theorem takeTurns_writeDataLines {s : State} (h : s.Idle) {base : Nat} {bs : List Byte}
    (hle : base + bs.length ≤ s.cfg.dataCap) :
    ∃ dm : Memory, takeTurns (writeDataLines base bs) s = .next { s with dm := dm } ∧
      (∀ j, j < bs.length → dm.read (base + j) = bs[j]?) ∧ ∀ k, k < base → dm.read k = s.byteAt k := by
  induction bs generalizing s base with
  | nil => exact ⟨s.dm, rfl, by simp, fun _ _ => rfl⟩
  | cons b bs ih =>
    rw [List.length_cons] at hle
    have hwrite : takeTurn (.host (.writeData base b)) s = .next { s with dm := s.dm.write base b } :=
      hostStep_writeData h (by omega) b
    obtain ⟨dm, hrun, hin, hbelow⟩ := ih (s := { s with dm := s.dm.write base b }) ⟨h.noFault, h.busy⟩
      (base := base + 1) (by simp only; omega)
    refine ⟨dm, by rw [writeDataLines, takeTurns_cons_of_next hwrite, hrun], fun j hj => ?_, fun k hk => ?_⟩
    · cases j with
      | zero => exact (hbelow base (Nat.lt_succ_self base)).trans (Memory.read_write_self ..)
      | succ j =>
        rw [List.length_cons] at hj
        rw [List.getElem?_cons_succ, ← hin j (by omega), Nat.add_assoc, Nat.add_comm 1 j]
    · exact (hbelow k (by omega)).trans (Memory.read_write_ne _ b (by omega))

/-- The block with its own tree written again and other data in the stream. -/
def State.reloaded (s : State) (dm : Memory) (dataLen : Word32) : State :=
  { s with ctValid := false, dm := dm, dataLen := dataLen }

/-- LOAD_DOC of a document whose nodes are the block's tree (45_host_container.md R250). -/
theorem loadDoc_of_treeRecords {s : State} (h : s.Encoder) {d : Doc} (hnodes : d.nodes = treeRecords s)
    (hdata : d.data.length ≤ s.cfg.dataCap) : ∃ dm : Memory,
      loadDoc d s = .next (s.reloaded dm (BitVec.ofNat 32 d.data.length), .ok ()) ∧
      ∀ j, j < d.data.length → dm.read j = d.data[j]? := by
  have hwf := h.ready.inv.wf
  have hlen : d.nodes.length = s.nodeCount.toNat := by rw [hnodes, h.length_treeRecords]
  have hcap : d.nodes.length ≤ s.cfg.nodeCap := hlen ▸ hwf.nodeCountLe
  have hidle : State.Idle { s with ctValid := false } := ⟨h.ready.idle.noFault, h.ready.idle.busy⟩
  have hcount : takeTurn (writeNLine (BitVec.ofNat 32 d.nodes.length)) s = .next { s with ctValid := false } := by
    rw [hlen, BitVec.ofNat_toNat, BitVec.setWidth_eq]
    exact (hostStep_writeReg h.ready.idle (r := .nodeCount) rfl _).trans
      (congrArg _ (writeReg_nodeCount hwf.nodeCountLe))
  have htree : takeTurns (loadTree d.nodes) s = .next { s with ctValid := false } := by
    rw [loadTree, takeTurns_cons_of_next hcount, takeTurns_writeNodeLines hidle rfl (by rw [Nat.zero_add]; exact hcap),
      hnodes]
    exact congrArg (fun tm => Host.Outcome.next { s with ctValid := false, tm := tm }) h.writeRecords_treeRecords
  obtain ⟨dm, hbytes, hread, -⟩ := takeTurns_writeDataLines hidle (base := 0) (bs := d.data)
    (by rw [Nat.zero_add]; exact hdata)
  have hsize : (BitVec.ofNat 32 d.data.length).toNat ≤ s.cfg.dataCap := (Nat.mod_le _ _).trans hdata
  have hlast : takeTurn (writeDLine (BitVec.ofNat 32 d.data.length)) { s with ctValid := false, dm := dm } =
      .next (s.reloaded dm (BitVec.ofNat 32 d.data.length)) :=
    (hostStep_writeReg (s := { s with ctValid := false, dm := dm }) ⟨h.ready.idle.noFault, h.ready.idle.busy⟩
      (r := .dataLen) rfl _).trans (congrArg _ (writeReg_dataLen hsize))
  refine ⟨dm, ?_, fun j hj => by simpa using hread j hj⟩
  rw [loadDoc, if_neg (not_or.2 ⟨hcap.not_gt, hdata.not_gt⟩), takeTurns_append, htree, andThen_next, loadData,
    takeTurns_append, hbytes, andThen_next, takeTurns_cons_of_next hlast]
  rfl

/-! A DECODE of a text that stands in the stream. -/

/-- The bits `w`, packed, are the block's data segment. -/
structure State.Streams (s : State) (w : Bits) : Prop where
  length : s.dataLen.toNat = (pack s.cfg.bitOrder w).length
  bytes  : ∀ j, j < (pack s.cfg.bitOrder w).length → s.byteAt j = (pack s.cfg.bitOrder w)[j]?

theorem State.Streams.congr {s r : State} {w : Bits} (h : s.Streams w) (hcfg : r.cfg = s.cfg)
    (hlen : r.dataLen = s.dataLen) (hdm : r.dm = s.dm) : r.Streams w := by
  obtain ⟨hlength, hbytes⟩ := h
  constructor
  · rwa [hcfg, hlen]
  · simpa only [State.byteAt, hcfg, hdm] using hbytes

/-- A DECODE at the offset of a text that stands in the stream, in a block with the tree the text was encoded with,
returns the text (42_huffman_decode.md R160). -/
theorem exec_decode_of_standsAt {s s2 : State} (h : s.Encoder) (htm : s2.tm = s.tm) (hn : s2.nodeCount = s.nodeCount)
    {w : Bits} (hw : s2.Streams w) {t : Text} (ht : StandsAt s w s2.arg0.toNat t) (hfits : t.length ≤ s2.cfg.outCap) :
    ∃ r, exec .decode s2 = .next r ∧ r.mfault = s2.mfault ∧ r.errCode = .ok ∧ r.resText = t := by
  obtain ⟨hterm, front, c, back, hc, rfl, hoff⟩ := ht
  obtain ⟨-, hrest⟩ := streamHas_append (streamHas_of_pack_loaded hw.length hw.bytes)
  obtain ⟨hcode, -⟩ := streamHas_append hrest
  rw [Nat.zero_add, hoff] at hcode
  have hspells := h.ready.inv.codes.spells h.ctValid htm hn hterm hc hcode
  exact ⟨_, decodeReturnsSpelledText s2 t _ hspells hfits, rfl, rfl, rfl⟩

/-- DECODE's command line at the offset of a text that stands in the stream returns the text. -/
theorem decodeLine_of_standsAt {s s2 : State} (h : s.Encoder) (htm : s2.tm = s.tm) (hn : s2.nodeCount = s.nodeCount)
    (hidle : s2.Idle) {w : Bits} (hw : s2.Streams w) {off : Word32} {t : Text} (ht : StandsAt s w off.toNat t)
    (hfits : t.length ≤ s2.cfg.outCap) :
    ∃ s3, takeTurns (offsetLine .decode off) s2 = .next s3 ∧ s3.commandError = none ∧ s3.resText = t := by
  obtain ⟨r, hexec, hfault, hok, htext⟩ := exec_decode_of_standsAt h
    (s2 := { s2 with arg0 := off }.issue (encode .decode)) htm hn (hw.congr rfl rfl rfl) ht hfits
  refine ⟨r.polled, ?_, commandError_eq_none.2 hok, htext⟩
  have hline := takeTurns_commandLine (s := { s2 with arg0 := off }) (decode_encode .decode) hidle.noFault hidle.busy
  rw [takeTurns_offsetLine .decode off hidle.noFault hidle.busy, hline, hexec]
  exact pollStatus_of_noFault ((congrArg _ hfault).trans hidle.noFault)

/-! The round trip (45_host_container.md R261). -/

/-- Each pair of a list has its entry in the list's table. -/
theorem exists_entryFor {s : State} {w : Bits} {l : List (Word32 × Text)} {es : List Entry}
    (h : List.Forall₂ (EntryFor s w) l es) {p : Word32 × Text} (hp : p ∈ l) : ∃ e ∈ es, EntryFor s w p e := by
  induction h with
  | nil => exact absurd hp List.not_mem_nil
  | cons he _ ih =>
    obtain rfl | hp := List.mem_cons.1 hp
    · exact ⟨_, List.mem_cons_self, he⟩
    · obtain ⟨e, hmem, he⟩ := ih hp
      exact ⟨e, List.mem_cons_of_mem _ hmem, he⟩

/-- A table has its list's ids in their order. -/
theorem map_id_of_entriesFor {s : State} {w : Bits} {l : List (Word32 × Text)} {es : List Entry}
    (h : List.Forall₂ (EntryFor s w) l es) : es.map Entry.id = l.map Prod.fst := by
  induction h with
  | nil => rfl
  | cons he _ ih => rw [List.map_cons, List.map_cons, he.id, ih]

theorem uniqueIds_of_entriesFor {s : State} {w : Bits} {l : List (Word32 × Text)} {es : List Entry}
    (h : List.Forall₂ (EntryFor s w) l es) (hl : (l.map Prod.fst).Nodup) : UniqueIds es := by
  rwa [UniqueIds, map_id_of_entriesFor h]

theorem decodeEntry_of_absent {d : Doc} {g : Gender} {id : Word32} (h : id ∉ (d.table g).map Entry.id) (s : State) :
    decodeEntry d id g s = .next (s, .error (.host .notFound)) := by
  have hnone : ∀ x ∈ d.table g, x.id ≠ id := fun x hx => ne_of_mem_of_not_mem (List.mem_map_of_mem hx) h
  rw [decodeEntry, lookupEntry_of_absent hnone]

/-- In the reloaded block each pair of a table with unique ids decodes to its text. -/
theorem decodeEntry_of_mem {d : Doc} {g : Gender} {l : List (Word32 × Text)} {s s2 : State} {w : Bits} (h : s.Encoder)
    (htm : s2.tm = s.tm) (hn : s2.nodeCount = s.nodeCount) (hidle : s2.Idle) (hw : s2.Streams w)
    (hunique : UniqueIds (d.table g)) (hl : List.Forall₂ (EntryFor s w) l (d.table g)) {p : Word32 × Text} (hp : p ∈ l)
    (hfits : p.2.length ≤ s2.cfg.outCap) : ∃ s3, decodeEntry d p.1 g s2 = .next (s3, .ok p.2) := by
  obtain ⟨e, he, hid, hstands⟩ := exists_entryFor hl hp
  obtain ⟨s3, hrun, hok, htext⟩ := decodeLine_of_standsAt h htm hn hidle hw hstands hfits
  refine ⟨s3, ?_⟩
  rw [decodeEntry, ← hid, lookupEntry_of_mem hunique he]
  dsimp only
  rw [hrun, andThen_next, hok, htext]

/-- The document loads, every pair decodes to its text, and an id outside a table is not found. -/
theorem FileHolds.decodes {male female : List (Word32 × Text)} {s : State} {d : Doc} {w : Bits}
    (h : FileHolds male female s d w) (hlegal : ListsLegal male female)
    (hfits : ∀ p ∈ male ++ female, p.2.length ≤ s.cfg.outCap) (hdata : d.data.length ≤ s.cfg.dataCap) :
    ∃ s2, loadDoc d s = .next (s2, .ok ()) ∧
      (∀ p ∈ male, ∃ s3, decodeEntry d p.1 .male s2 = .next (s3, .ok p.2)) ∧
      (∀ p ∈ female, ∃ s3, decodeEntry d p.1 .female s2 = .next (s3, .ok p.2)) ∧
      (∀ id, id ∉ male.map Prod.fst → decodeEntry d id .male s2 = .next (s2, .error (.host .notFound))) ∧
      (∀ id, id ∉ female.map Prod.fst → decodeEntry d id .female s2 = .next (s2, .error (.host .notFound))) := by
  obtain ⟨dm, hload, hread⟩ := loadDoc_of_treeRecords h.encoder h.nodes hdata
  have hidle := h.encoder.ready.idle
  have hmaleUnique := uniqueIds_of_entriesFor h.male hlegal.maleUnique
  have hfemaleUnique := uniqueIds_of_entriesFor h.female hlegal.femaleUnique
  have hsmall : d.data.length < 2 ^ 32 := by
    have := h.encoder.ready.inv.wf.cfgLegal
    omega
  have hstreams : (s.reloaded dm (BitVec.ofNat 32 d.data.length)).Streams w := by
    refine ⟨?_, ?_⟩
    · rw [State.reloaded, ← h.data]
      exact Nat.mod_eq_of_lt hsmall
    · rw [State.reloaded, ← h.data]
      exact hread
  refine ⟨_, hload, fun p hp => ?_, fun p hp => ?_, fun id hid => ?_, fun id hid => ?_⟩
  · exact decodeEntry_of_mem h.encoder (g := .male) (s2 := s.reloaded dm _) rfl rfl ⟨hidle.noFault, hidle.busy⟩
      hstreams hmaleUnique h.male hp (hfits p (List.mem_append_left _ hp))
  · exact decodeEntry_of_mem h.encoder (g := .female) (s2 := s.reloaded dm _) rfl rfl
      ⟨hidle.noFault, hidle.busy⟩ hstreams hfemaleUnique h.female hp (hfits p (List.mem_append_right _ hp))
  · exact decodeEntry_of_absent (g := .male) (map_id_of_entriesFor h.male ▸ hid) _
  · exact decodeEntry_of_absent (g := .female) (map_id_of_entriesFor h.female ▸ hid) _

/-- The file of a SERIALIZE without an error is parsed back (45_host_container.md R259, R262). -/
theorem FileHolds.parse {male female : List (Word32 × Text)} {s : State} {d : Doc} {w : Bits}
    (h : FileHolds male female s d w) (hlegal : ListsLegal male female) : parse (emitDoc d) = .ok d := by
  have hmaleUnique := uniqueIds_of_entriesFor h.male hlegal.maleUnique
  have hfemaleUnique := uniqueIds_of_entriesFor h.female hlegal.femaleUnique
  obtain ⟨-, -, hcap⟩ := h.encoder.ready.inv.wf.cfgLegal
  have hm := hlegal.maleFits
  have hf := hlegal.femaleFits
  have hw := h.fits
  refine parseReadsEmittedDocument d hmaleUnique hfemaleUnique ?_ ?_ ?_ ?_
  · rw [← h.male.length_eq]
    omega
  · rw [← h.female.length_eq]
    omega
  · rw [h.nodes, h.encoder.length_treeRecords]
    exact s.nodeCount.isLt
  · rw [h.data, length_pack]
    omega

end Sys2Proof.Machine
end

section
/-! O60, that SERIALIZE reports no error where the capacities hold (45_host_container.md R261): the counts of BUILD, the
room for its records, and the room for every code string. -/

namespace Sys2Proof.Machine

open Sys2Proof

/-! The counts of BUILD (43_huffman_build.md R183). -/

/-- The counters are those of BUILD after the texts `ts`. -/
def Counted (s : State) (ts : List Text) : Prop := ∀ u, (s.freqOf u).toNat = countOf ts u

theorem countOf_nil (u : CodeUnit) : countOf [] u = 0 := by
  simp [countOf]

theorem countOf_cons (t : Text) (ts : List Text) (u : CodeUnit) :
    countOf (t :: ts) u = t.count u + (if u = terminator then 1 else 0) + countOf ts u := by
  rw [countOf, countOf, List.flatten_cons, List.count_append, List.length_cons]
  split <;> omega

theorem countOf_append (ts us : List Text) (u : CodeUnit) : countOf (ts ++ us) u = countOf ts u + countOf us u := by
  induction ts with
  | nil => rw [List.nil_append, countOf_nil, Nat.zero_add]
  | cons t ts ih => rw [List.cons_append, countOf_cons, countOf_cons, ih, ← Nat.add_assoc]

theorem freqClearLine_counts {s : State} (h : s.Ready) : ∃ r, takeTurns (commandLine .freqClear) s = .next r ∧
    r.Ready ∧ r.cfg = s.cfg ∧ r.errCode = .ok ∧ Counted r [] := by
  obtain ⟨r, hr, hrun⟩ := exists_performed (i := .freqClear) h (by simp [ReadsMemory]) (.inr ⟨rfl, rfl⟩)
  have hexec := hr.exec
  cases hexec
  exact ⟨_, hrun, hr.ready.polled, hr.cfg, rfl, fun u => (countOf_nil u).symm⟩

theorem freqAddLine_counts {s : State} (h : s.Ready) {ts : List Text} (hcounted : Counted s ts) {t : Text}
    (hterm : terminator ∉ t) (hfits : ∀ u, countOf (ts ++ [t]) u ≤ 2 ^ 32 - 1) :
    ∃ r, takeTurns (textLine .freqAdd t) s = .next r ∧ r.Ready ∧ r.cfg = s.cfg ∧ r.errCode = .ok ∧
      Counted r (ts ++ [t]) := by
  have hcount (u : CodeUnit) : countOf (ts ++ [t]) u =
      (s.freqOf u).toNat + t.count u + (if u = terminator then 1 else 0) := by
    rw [countOf_append, countOf_cons, countOf_nil, hcounted u, Nat.add_zero, Nat.add_assoc]
  obtain ⟨r, hr, hrun⟩ := exists_performed (i := .freqAdd) h (by simp [ReadsMemory]) (.inl rfl)
  obtain ⟨-, hadd⟩ := freqAddCountsText
  obtain ⟨-, -, hok⟩ := hadd (s.latched .freqAdd t) h.inv.wf.freqRising
  obtain ⟨f, hf, hcounts⟩ := hok hterm fun u => (hcount u).symm.trans_le (hfits u)
  cases hf.symm.trans hr.exec
  exact ⟨_, hrun, hr.ready.polled, hr.cfg, rfl, fun u => (hcounts u).trans (hcount u).symm⟩

/-- FREQ_ADD of each text in turn counts them all. -/
theorem freqAddLines_count {s : State} (h : s.Ready) {done ts : List Text} (hcounted : Counted s done)
    (hterm : ∀ t ∈ ts, terminator ∉ t) (hfits : ∀ u, countOf (done ++ ts) u ≤ 2 ^ 32 - 1) :
    ∃ r, runLines (ts.map (textLine .freqAdd)) none s = .next (r, none) ∧ r.Ready ∧ r.cfg = s.cfg ∧
      Counted r (done ++ ts) := by
  induction ts generalizing s done with
  | nil => exact ⟨s, rfl, h, rfl, by rwa [List.append_nil]⟩
  | cons t ts ih =>
    obtain ⟨ht, hts⟩ := List.forall_mem_cons.1 hterm
    have hsplit : done ++ t :: ts = (done ++ [t]) ++ ts := by simp
    rw [hsplit] at hfits ⊢
    have hfits' (u : CodeUnit) : countOf (done ++ [t]) u ≤ 2 ^ 32 - 1 :=
      (Nat.le_add_right _ _).trans ((countOf_append _ ts u).symm.trans_le (hfits u))
    obtain ⟨m, hline, hm, hcfg, hok, hcounted'⟩ := freqAddLine_counts h hcounted ht hfits'
    obtain ⟨r, hrest, hr, hcfg', hall⟩ := ih hm hcounted' hts hfits
    exact ⟨r, by rw [List.map_cons, runLines_cons_of_ok hline hok, hrest], hr, hcfg'.trans hcfg, hall⟩

/-! The symbols and the tree (43_huffman_build.md R186, R190). -/

theorem mem_unitsOf {ts : List Text} (hne : ts ≠ []) (u : CodeUnit) : u ∈ unitsOf ts ↔ countOf ts u ≠ 0 := by
  have hlen : ts.length ≠ 0 := by simpa using hne
  rw [unitsOf, List.mem_dedup, List.mem_cons, countOf, ← List.count_pos_iff]
  split <;> simp [*, Nat.pos_iff_ne_zero]

theorem mem_unitsOf_of_mem {ts : List Text} {t : Text} (ht : t ∈ ts) {u : CodeUnit} (hu : u ∈ t ++ [terminator]) :
    u ∈ unitsOf ts := by
  rw [unitsOf, List.mem_dedup, List.mem_cons]
  obtain hu | hu := List.mem_append.1 hu
  · exact .inr (List.mem_flatten_of_mem ht hu)
  · exact .inl (List.mem_singleton.1 hu)

theorem symbolSet_perm_unitsOf {s : State} {ts : List Text} (h : Counted s ts) (hne : ts ≠ []) :
    s.symbolSet.Perm (unitsOf ts) := by
  have hnodup : (unitsOf ts).Nodup := List.nodup_dedup _
  refine (List.perm_ext_iff_of_nodup (nodup_symbolSet s) hnodup).2 fun u => ?_
  rw [mem_symbolSet, mem_unitsOf hne, ← h u, ne_eq, ne_eq, BitVec.toNat_eq]
  rfl

/-- A TREE_BUILD after the counts of the texts, with room for its records, gives every unit a code. -/
theorem treeBuildLine_codes {s : State} (h : s.Ready) {ts : List Text} (hcounted : Counted s ts) (hne : ts ≠ [])
    (hroom : max 1 ((unitsOf ts).length - 1) ≤ s.cfg.nodeCap) :
    ∃ r, takeTurns (commandLine .treeBuild) s = .next r ∧ r.errCode = .ok ∧ ∀ u ∈ unitsOf ts, r.codeOf u ≠ none := by
  have hperm := symbolSet_perm_unitsOf (s := s.latched .treeBuild s.textIn) hcounted hne
  have hsym : (s.latched .treeBuild s.textIn).symbolSet ≠ [] := by
    intro hnil
    rw [hnil] at hperm
    simpa [unitsOf] using hperm.symm.eq_nil
  obtain ⟨r, hr, hrun⟩ := exists_performed (i := .treeBuild) h (by simp [ReadsMemory]) (.inr ⟨rfl, rfl⟩)
  obtain ⟨-, hbuild⟩ := treeBuildWritesTree
  obtain ⟨-, -, hok⟩ := hbuild (s.latched .treeBuild s.textIn) (h.inv.latched _ _).wf
  obtain ⟨tm, ct, hexec, -, -, hcodes⟩ := hok hsym (by rw [hperm.length_eq]; exact hroom)
  cases hexec.symm.trans hr.exec
  exact ⟨_, hrun, rfl, fun u hu => (hcodes u).2 (hperm.mem_iff.2 hu)⟩

/-- BUILD of the texts and WR_CLEAR report no error (43_huffman_build.md R181, R190). -/
theorem build_succeeds {s : State} (h : s.Ready) {ts : List Text} (hne : ts ≠ []) (hterm : ∀ t ∈ ts, terminator ∉ t)
    (hfits : ∀ u, countOf ts u ≤ 2 ^ 32 - 1) (hroom : max 1 ((unitsOf ts).length - 1) ≤ s.cfg.nodeCap) :
    ∃ b, runLines (buildLines ts ++ [commandLine .wrClear]) none s = .next (b, none) ∧
      ∀ u ∈ unitsOf ts, b.codeOf u ≠ none := by
  obtain ⟨cleared, hclear, hcleared, hcfg, hok, hzero⟩ := freqClearLine_counts h
  obtain ⟨counted, hadds, hcounted, hcfg', hcount⟩ := freqAddLines_count hcleared hzero hterm hfits
  obtain ⟨built, hbuild, hok', hcodes⟩ := treeBuildLine_codes hcounted hcount hne (by rw [hcfg', hcfg]; exact hroom)
  obtain ⟨⟨hbuilt, -⟩, -⟩ := treeBuildLine_ok hcounted hbuild hok'
  obtain ⟨b, hwrClear, -, hsame, hok'', -⟩ := wrClearLine_runs hbuilt
  refine ⟨b, ?_, fun u hu => by rw [State.codeOf, hsame.ct]; exact hcodes u hu⟩
  rw [buildLines, List.cons_append, List.append_assoc, runLines_cons_of_ok hclear hok, runLines_append_of_ok hadds,
    List.singleton_append, runLines_cons_of_ok hbuild hok', runLines_cons_of_ok hwrClear hok'']
  rfl

/-! The room for the code strings (44_huffman_encode.md R222). -/

theorem codeBits_cons (b : State) (t : Text) (ts : List Text) :
    codeBits b (t :: ts) = ((codeString b t).getD []).length + codeBits b ts := List.sum_cons

theorem codeBits_congr {b b' : State} (h : b'.ct = b.ct) (ts : List Text) : codeBits b' ts = codeBits b ts := by
  simp only [codeBits, codeString_congr h]

/-- The writer takes the texts: each has a code string, the start offsets have 32 bits and the bits fit
(45_host_container.md R261). -/
structure HasRoom (s : State) (ts : List Text) : Prop where
  noTerminator : ∀ t ∈ ts, terminator ∉ t
  coded        : ∀ t ∈ ts, codeString s t ≠ none
  fits         : s.wb.length + codeBits s ts ≤ s.cfg.wbufCapBits
  startsFit    : ∀ i, i < ts.length → s.wb.length + codeBits s (ts.take i) ≤ 2 ^ 32 - 1

/-- An ENCODE with room reports no error, and leaves room for the other texts. -/
theorem encodeLine_succeeds {s : State} (h : s.Encoder) {t : Text} {ts : List Text} (hroom : HasRoom s (t :: ts)) :
    ∃ r, takeTurns (textLine .encode t) s = .next r ∧ r.Encoder ∧ r.errCode = .ok ∧ HasRoom r ts := by
  obtain ⟨hterm, hcoded, hfits, hstarts⟩ := hroom
  obtain ⟨hterm, hterms⟩ := List.forall_mem_cons.1 hterm
  obtain ⟨hcode, hcodes⟩ := List.forall_mem_cons.1 hcoded
  obtain ⟨c, hc⟩ := Option.ne_none_iff_exists'.1 hcode
  have hbits (us : List Text) : codeBits s (t :: us) = c.length + codeBits s us := by
    rw [codeBits_cons, hc, Option.getD_some]
  have hpass : firstBadUnit (s.latched .encode t) 0 t = none := firstBadUnit_eq_none fun u hu =>
    ⟨ne_of_mem_of_not_mem hu hterm, (textCode_ne_none_iff s _).1 hcode u (List.mem_append_left _ hu)⟩
  have hc' : codeString (s.latched .encode t) t = some c :=
    (codeString_congr (s := s) (s' := s.latched .encode t) rfl t).trans hc
  have hstart : s.wb.length ≤ 2 ^ 32 - 1 := hstarts 0 (Nat.zero_lt_succ _)
  rw [hbits] at hfits
  have hfree : ¬ (2 ^ 32 - 1 < s.wb.length ∨ s.cfg.wbufCapBits < s.wb.length + c.length) := by omega
  have hexec := (execEncode_of_codeString (s := s.latched .encode t) h.ctValid hpass hc').trans (if_neg hfree)
  obtain ⟨r, hr, hrun⟩ := encodeLine_runs h.ready t
  have hsame := hr.sameCodes (by simp)
  have hlen : r.polled.wb.length = s.wb.length + c.length := by
    cases hexec.symm.trans hr.exec
    exact List.length_append
  have hok : r.polled.errCode = .ok := by
    cases hexec.symm.trans hr.exec
    rfl
  refine ⟨_, hrun, ⟨hr.ready.polled, hsame.ctValid.trans h.ctValid⟩, hok, hterms, fun u hu => ?_, ?_, fun i hi => ?_⟩
  · rw [codeString_congr hsame.ct]
    exact hcodes u hu
  · rw [codeBits_congr hsame.ct, hsame.cfg, hlen]
    omega
  · have := hstarts (i + 1) (Nat.succ_lt_succ hi)
    rw [List.take_succ_cons, hbits] at this
    rw [codeBits_congr hsame.ct, hlen]
    omega

/-- The loop over a list of pairs reports no error where the writer has room, and leaves the room for later texts. -/
theorem encodeEntries_succeeds {l : List (Word32 × Text)} {s : State} (h : s.Encoder) {more : List Text}
    (hroom : HasRoom s (l.map Prod.snd ++ more)) (tbl : List Entry) :
    ∃ y, encodeEntries l ⟨s, none, tbl⟩ = .next y ∧ y.err = none ∧ y.block.Encoder ∧ HasRoom y.block more := by
  induction l generalizing s tbl with
  | nil => exact ⟨_, rfl, rfl, h, hroom⟩
  | cons p l ih =>
    obtain ⟨id, t⟩ := p
    obtain ⟨r, hline, hr, hok, hroom'⟩ := encodeLine_succeeds h hroom
    obtain ⟨y, hrest, hy⟩ := ih hr hroom' (tableAfterInsert tbl ⟨id, r.result.setWidth 32⟩)
    exact ⟨y, by rw [encodeEntries, hline, andThen_next, firstError_eq_none.2 ⟨rfl, hok⟩, hrest], hy⟩

/-- After a BUILD without an error, SERIALIZE returns bytes where the writer has room (45_host_container.md R261). -/
theorem serialize_succeeds {male female : List (Word32 × Text)} (hlegal : ListsLegal male female) {s b : State}
    (h : s.Ready)
    (hbuild : runLines (buildLines ((male ++ female).map Prod.snd) ++ [commandLine .wrClear]) none s = .next (b, none))
    (hroom : HasRoom b ((male ++ female).map Prod.snd)) (version minVersion : Word32) :
    ∃ s1 bytes, serialize version minVersion male female s = .next (s1, .ok bytes) := by
  obtain ⟨hb, -, -⟩ := build_ok h hbuild
  rw [List.map_append] at hroom
  obtain ⟨m, hmale, hmerr, hm, hroomM⟩ := encodeEntries_succeeds hb hroom []
  rw [← List.append_nil (female.map Prod.snd)] at hroomM
  obtain ⟨f, hfemale, hferr, hf, -⟩ := encodeEntries_succeeds hm hroomM []
  obtain ⟨r, hfinish, -, -, hok, -⟩ := wrFinishLine_runs hf.ready
  refine ⟨r, emitDoc ⟨version, minVersion, m.tbl, f.tbl, treeRecords r, r.resBytes⟩, ?_⟩
  rw [serialize, serializeCheck_eq_none.2 hlegal]
  dsimp only
  rw [hbuild, andThen_next, hmale, andThen_next, hmerr, hfemale, andThen_next, hferr, runLines_cons_of_ok hfinish hok]
  rfl

/-- Settles O60. First part: BUILD's counters and records fit, and each ENCODE finds its codes and room. Second part:
the file holds every pair, so it is parsed back and every pair decodes. -/
theorem serializedFileRoundTrips : Obligations.SerializedFileRoundTrips := by
  refine ⟨?first, ?second⟩
  case first =>
    intro version minVersion male female s hinv hidle hmale hfemale hterm hne hm hf hcounts hnodes
    have hready : s.Ready := ⟨hinv, hidle⟩
    have hterms : ∀ t ∈ (male ++ female).map Prod.snd, terminator ∉ t := List.forall_mem_map.2 hterm
    obtain ⟨b, hbuild, hcodes⟩ := build_succeeds hready (by simpa using hne) hterms hcounts hnodes
    obtain ⟨-, hcfg, hwb⟩ := build_ok hready hbuild
    have hcoded : ∀ t ∈ (male ++ female).map Prod.snd, codeString b t ≠ none := fun t ht =>
      (textCode_ne_none_iff b _).2 fun u hu => hcodes u (mem_unitsOf_of_mem ht hu)
    refine ⟨b, hbuild, fun hbits hstarts => ?_⟩
    refine serialize_succeeds ⟨hmale, hfemale, hterm, hne, hm, hf⟩ hready hbuild ⟨hterms, hcoded, ?_, fun i hi => ?_⟩
      version minVersion
    · rwa [hwb, List.length_nil, Nat.zero_add, hcfg]
    · rw [hwb, List.length_nil, Nat.zero_add]
      exact hstarts i (by simpa using hi)
  case second =>
    intro version minVersion male female s s1 bytes hinv hidle hrun hfits
    obtain ⟨hlegal, hcfg, d, w, rfl, hversion, hminVersion, hfile⟩ := serialize_ok ⟨hinv, hidle⟩ hrun
    rw [← hcfg] at hfits ⊢
    exact ⟨d, hfile.parse hlegal, hversion, hminVersion, map_id_of_entriesFor hfile.male,
      map_id_of_entriesFor hfile.female, hfile.decodes hlegal hfits⟩

end Sys2Proof.Machine
end

section
/-! O48: no turn is taken once a model fault is recorded (60_exceptions.md R291). -/

namespace Sys2Proof.Machine

open Sys2Proof

/-- Neither agent has a turn while a model fault is recorded. -/
theorem takeTurn_of_fault {s : State} (h : s.mfault ≠ FaultSet.empty) (u : Turn) :
    takeTurn u s = .fault (.modelFault s.mfault) :=
  if_neg (mt FaultSet.isEmpty_iff.1 h)

/-- Settles O48: whichever turn the agenda gives, it finds the fault recorded. -/
theorem recordedFaultStopsMachine : Obligations.RecordedFaultStopsMachine := by
  intro s h
  rw [step, nextTurn]
  cases s.agenda with
  | nil => exact takeTurn_of_fault h .engine
  | cons u rest => exact takeTurn_of_fault (s := { s with agenda := rest }) h u

end Sys2Proof.Machine
end

section
/-! O46: the host's accesses outside the map (60_exceptions.md R290). -/

namespace Sys2Proof.Machine

open Sys2Proof

/-! The register window (10_state.md R23, R29, R30). -/

/-- The offsets of the registers the host may read: all but CMD (10_state.md R23). -/
def readableOffsets : List Nat := [0x04, 0x08, 0x0C, 0x10, 0x14, 0x18, 0x20, 0x24, 0x28, 0x2C, 0x30, 0x34]

/-- The registers the host may write (10_state.md R23). -/
def writableRegs : List Reg := [.cmd, .arg0, .nodeCount, .dataLen]

/-- The offsets of `writableRegs` (10_state.md R23). -/
def writableOffsets : List Nat := [0x00, 0x10, 0x14, 0x18]

theorem offset_mem_of_readable {offset : Nat} {r : Reg} (h : regAt offset = some r) (hr : r ≠ .cmd) :
    offset ∈ readableOffsets := by
  unfold regAt at h
  split at h <;> cases h <;> simp [readableOffsets] at hr ⊢

theorem offset_mem_of_writable {offset : Nat} {r : Reg} (h : regAt offset = some r) (hr : r ∈ writableRegs) :
    offset ∈ writableOffsets := by
  unfold regAt at h
  split at h <;> cases h <;> simp [writableRegs, writableOffsets] at hr ⊢

theorem writeReg_of_readOnly {r : Reg} (h : r ∉ writableRegs) (s : State) (v : Word32) :
    writeReg s v r = s.recordFault .hostRange := by
  cases r with
  | cmd | arg0 | nodeCount | dataLen => exact absurd h (by decide)
  | status | errInfoLo | errInfoHi | resultLo | resultHi | rdPosLo | rdPosHi | wrPosLo | wrPosHi => rfl

theorem accessReadReg_outside (s : State) {width offset : Nat} (h : width ≠ 4 ∨ offset ∉ readableOffsets) :
    accessReadReg s width offset = s.recordFault .hostRange := by
  rw [accessReadReg]
  split
  next hwidth =>
    have hoffset := h.resolve_left (not_not.2 hwidth)
    cases hreg : regAt offset with
    | none => rfl
    | some r =>
      obtain rfl : r = .cmd := by_contra fun hr => hoffset (offset_mem_of_readable hreg hr)
      rfl
  · rfl

theorem accessWriteReg_outside (s : State) {width offset : Nat} {v : Word32}
    (h : width ≠ 4 ∨ offset ∉ writableOffsets ∨ (offset = 0x14 ∧ s.cfg.nodeCap < v.toNat) ∨
      (offset = 0x18 ∧ s.cfg.dataCap < v.toNat)) :
    accessWriteReg s width offset v = s.recordFault .hostRange := by
  rw [accessWriteReg]
  split
  next hwidth =>
    obtain hoffset | ⟨rfl, hv⟩ | ⟨rfl, hv⟩ := h.resolve_left (not_not.2 hwidth)
    · cases hreg : regAt offset with
      | none => rfl
      | some r => exact writeReg_of_readOnly (fun hr => hoffset (offset_mem_of_writable hreg hr)) s v
    · exact if_pos hv
    · exact if_pos hv
  · rfl

/-- Settles O46: each cause is a test of the access, made before anything is written or answered. -/
theorem hostRangeIsRecorded : Obligations.HostRangeIsRecorded := by
  intro s a hidle houtside
  suffices h : idleAccess s a = s.recordFault .hostRange by rw [hostStep_idle hidle, h]; rfl
  obtain ⟨width, offset, rfl, h⟩ | ⟨width, offset, v, rfl, h⟩ | ⟨i, hi, rfl | ⟨r, rfl⟩⟩ | ⟨j, hj, rfl | ⟨b, rfl⟩⟩ :=
    houtside
  · exact accessReadReg_outside s h
  · exact accessWriteReg_outside s h
  · exact if_neg (Nat.not_lt.2 hi)
  · exact if_neg (Nat.not_lt.2 hi)
  · exact if_neg (Nat.not_lt.2 hj)
  · exact if_neg (Nat.not_lt.2 hj)

end Sys2Proof.Machine
end

section
/-! O36, O37 and O39: how a command ends (60_exceptions.md R282 to R284). Without a model fault it reaches `return`, or
`raise` with an error of its row; only DECODE's raise changes more than the completion fields. -/

namespace Sys2Proof.Machine

open Sys2Proof

/-- The commands whose rule names no result (10_state.md R28). -/
def namesNoResult : List Instr := [.rdInit, .wrClear, .wrBit false, .wrBit true, .freqClear, .freqAdd]

/-- The state `t` is that of the command `i`, begun in `s`, after its `return` or `raise`. -/
inductive CommandEnds (i : Instr) (s : State) : State → Prop where
  | returned (x : State) (result : Word64) (unnamed : i ∈ namesNoResult → result = 0) :
      CommandEnds i s (x.complete result)
  | raised (e : ErrCode) (info : Word64) (listed : e ∈ errorsOf i) (notDecode : i ≠ .decode) :
      CommandEnds i s (s.raise e info)
  | decodeRaised (pos : Nat) (e : ErrCode) (info : Nat) (isDecode : i = .decode)
      (raises : DecodeRaises s s.arg0.toNat pos e info) :
      CommandEnds i s ({ s with rdPos := BitVec.ofNat 64 pos, resText := [] }.raise e (word64 info))

theorem commandEnds_rdBit {s t : State} (h : exec .rdBit s = .next t) (hm : t.mfault.isEmpty = true) :
    CommandEnds .rdBit s t := by
  obtain ⟨-, h'⟩ | ⟨-, b, -, h'⟩ | ⟨-, -, h'⟩ := execRdBit_cases s <;> cases h'.symm.trans h
  · exact .raised _ _ (by decide) (by decide)
  · exact .returned _ _ (fun hi => absurd hi (by decide))
  · exact absurd hm (by simp)

theorem commandEnds_wrBit {b : Bool} {s t : State} (h : exec (.wrBit b) s = .next t) : CommandEnds (.wrBit b) s t := by
  obtain ⟨-, h'⟩ | ⟨-, h'⟩ := execWrBit_cases b s <;> cases h'.symm.trans h
  · exact .raised _ _ (List.mem_singleton_self _) (by simp)
  · exact .returned _ _ (fun _ => rfl)

theorem commandEnds_freqAdd {s t : State} (h : exec .freqAdd s = .next t) : CommandEnds .freqAdd s t := by
  obtain ⟨k, h'⟩ | ⟨u, h'⟩ | ⟨-, h'⟩ := execFreqAdd_cases s <;> cases h'.symm.trans h
  · exact .raised _ _ (by decide) (by decide)
  · exact .raised _ _ (by decide) (by decide)
  · exact .returned _ _ (fun _ => rfl)

theorem commandEnds_treeBuild {s t : State} (h : exec .treeBuild s = .next t) : CommandEnds .treeBuild s t := by
  obtain ⟨-, h'⟩ | ⟨first, others, -, ⟨-, h'⟩ | ⟨-, h'⟩⟩ := execTreeBuild_cases s <;> cases h'.symm.trans h
  · exact .raised _ _ (by decide) (by decide)
  · exact .raised _ _ (by decide) (by decide)
  · exact .returned _ _ (fun hi => absurd hi (by decide))

theorem commandEnds_decode {s t : State} (h : exec .decode s = .next t) (hm : t.mfault.isEmpty = true) :
    CommandEnds .decode s t := by
  obtain ⟨pos, out, cur, depth, -, rfl⟩ | ⟨pos, e, info, hraises, rfl⟩ := exec_decode_completes h hm
  · exact .returned _ _ (fun hi => absurd hi (by decide))
  · exact .decodeRaised pos e info rfl hraises

theorem commandEnds_encode {s t : State} (h : exec .encode s = .next t) : CommandEnds .encode s t := by
  obtain ⟨e, info, he, h'⟩ | ⟨-, -, bits, -, -, -, h'⟩ | ⟨-, -, -, h'⟩ := execEncode_cases s <;> cases h'.symm.trans h
  · exact .raised e info he (by decide)
  · exact .returned _ _ (fun hi => absurd hi (by decide))

/-- A command that records no model fault ends by `return` or by `raise` (60_exceptions.md R283, R284). -/
theorem exec_commandEnds {i : Instr} {s t : State} (h : exec i s = .next t) (hm : t.mfault.isEmpty = true) :
    CommandEnds i s t := by
  cases i with
  | rdInit | wrClear | freqClear => cases h; exact .returned _ _ (fun _ => rfl)
  | wrPos | wrFinish => cases h; exact .returned _ _ (fun hi => absurd hi (by decide))
  | rdBit => exact commandEnds_rdBit h hm
  | wrBit b => exact commandEnds_wrBit h
  | freqAdd => exact commandEnds_freqAdd h
  | treeBuild => exact commandEnds_treeBuild h
  | decode => exact commandEnds_decode h hm
  | encode => exact commandEnds_encode h

theorem DecodeRaises.error_mem {s : State} {off pos info : Nat} {e : ErrCode} (h : DecodeRaises s off pos e info) :
    e ∈ errorsOf .decode := by
  cases h <;> decide

theorem ok_notMem_errorsOf (i : Instr) : ErrCode.ok ∉ errorsOf i := by
  cases i with
  | rdInit | wrClear | wrPos | wrFinish | freqClear => exact List.not_mem_nil
  | wrBit b => simp [errorsOf]
  | rdBit | freqAdd | treeBuild | decode | encode => decide

/-- Settles O36: `return` sets OK, and every `raise` is of the command's row. -/
theorem commandsRaiseOnlyTheirErrors : Obligations.CommandsRaiseOnlyTheirErrors := by
  intro i s t h hm
  cases exec_commandEnds h hm with
  | returned => exact .inl rfl
  | raised e info listed => exact .inr listed
  | decodeRaised pos e info isDecode raises => exact .inr (isDecode ▸ raises.error_mem)

/-- Settles O37: a `return` leaves no error, and a `raise` is made in the state before the command, but for DECODE's
cursor and RES_TEXT. -/
theorem errorsArePrecise : Obligations.ErrorsArePrecise := by
  intro i s t h hm herr
  cases exec_commandEnds h hm with
  | returned => exact absurd rfl herr
  | raised e info listed notDecode => exact ⟨fun _ => rfl, fun hi => absurd hi notDecode⟩
  | decodeRaised pos e info isDecode raises => exact ⟨fun hi => absurd isDecode hi, fun _ => ⟨pos, info, raises, rfl⟩⟩

/-- Settles O39: no row lists OK, so a command that answers it reached `return`. -/
theorem successClearsErrorAndBusy : Obligations.SuccessClearsErrorAndBusy := by
  intro i s t h hm hok
  cases exec_commandEnds h hm with
  | returned x result unnamed => exact ⟨rfl, rfl, unnamed⟩
  | raised e info listed =>
    cases (hok : e = .ok)
    exact absurd listed (ok_notMem_errorsOf i)
  | decodeRaised pos e info _ raises =>
    cases (hok : e = .ok)
    exact absurd raises.error_mem (ok_notMem_errorsOf .decode)

end Sys2Proof.Machine
end

section
/-! O38: an error is not sticky (60_exceptions.md R286). No command reads ERR_CODE, ERR_INFO or RESULT, and `return` and
`raise` both write all three; only a read of memory never written, which does neither, leaves them. -/

namespace Sys2Proof.Machine

open Sys2Proof

/-- The state with other completion fields of an earlier command. -/
def State.withLast (s : State) (e : ErrCode) (info r : Word64) : State :=
  { s with errCode := e, errInfo := info, result := r }

section
variable (s : State) (e : ErrCode) (info r : Word64)

theorem firstBadUnit_withLast (k : Nat) (t : Text) : firstBadUnit (s.withLast e info r) k t = firstBadUnit s k t := by
  induction t generalizing k with
  | nil => rfl
  | cons u t ih => rw [firstBadUnit, firstBadUnit, ih]; rfl

theorem execEncode_withLast : execEncode (s.withLast e info r) = execEncode s := by
  rw [execEncode, execEncode, firstBadUnit_withLast, codeString_congr (s := s) (s' := s.withLast e info r) rfl]
  rfl

theorem decodeWalk_withLast (off : Nat) : decodeWalk (s.withLast e info r) off = decodeWalk s off :=
  SameDecodeInputs.decodeWalk_eq (s := s) (s' := s.withLast e info r) ⟨rfl, rfl, rfl, rfl, rfl, fun _ _ => rfl,
    fun _ _ => rfl⟩ off

end

theorem exec_rdBit_withLast {s t : State} (h : exec .rdBit s = .next t) (hm : t.mfault.isEmpty = true)
    (e : ErrCode) (info r : Word64) : exec .rdBit (s.withLast e info r) = .next t := by
  obtain ⟨hend, h'⟩ | ⟨hin, b, hb, h'⟩ | ⟨-, -, h'⟩ := execRdBit_cases s <;> cases h'.symm.trans h
  · exact exec_rdBit_of_end hend
  · exact exec_rdBit_of_bit hin hb
  · exact absurd hm (by simp)

theorem exec_decode_withLast {s t : State} (h : exec .decode s = .next t) (hm : t.mfault.isEmpty = true)
    (e : ErrCode) (info r : Word64) : exec .decode (s.withLast e info r) = .next t := by
  have hwalk : decodeWalk (s.withLast e info r) (s.withLast e info r).offOperand.toNat =
      decodeWalk s s.offOperand.toNat := decodeWalk_withLast s e info r _
  rw [exec, execDecode] at h ⊢
  rw [hwalk]
  cases hw : decodeWalk s s.offOperand.toNat <;> rw [hw] at h
  case returned => exact h
  case raised => exact h
  case uninit => cases h; exact absurd hm (by simp)

/-- Settles O38: only RD_BIT and DECODE can end without writing the three fields, and then they record a fault. A
command without a read of memory and without ENCODE's walk along the text has the same outcome by definition. -/
theorem errorsAreNotSticky : Obligations.ErrorsAreNotSticky := by
  intro i s t e info r h hm
  cases i with
  | rdInit | wrClear | wrPos | wrFinish | freqClear | wrBit | freqAdd | treeBuild => exact h
  | rdBit => exact exec_rdBit_withLast h hm e info r
  | decode => exact exec_decode_withLast h hm e info r
  | encode => exact (execEncode_withLast s e info r).trans h

end Sys2Proof.Machine
end
